-- ==== Sys2Proof/Syntax.lean ====
section
/-! DEFINITION. The instructions: one constructor for the one row of spec/opcode_table.json. -/

namespace Sys2Proof

/-- The instructions the spec gives a meaning (spec/30_encoding.md R72, spec/40_ecreate.md R81). -/
inductive Instr where
  /-- `ENCLS[ECREATE]`: no field inside the instruction; EAX, RBX and RCX are implicit inputs (R74, R76). -/
  | enclsEcreate
  deriving DecidableEq, Repr

end Sys2Proof
end

