-- ==== Sys2Proof/Word.lean ====
section
/-! DEFINITION. The word types of the model: bytes, 32- and 64-bit words, and the block of 4096 bytes in which every
structure of the spec fits (spec/10_state.md R17, R23, R30; spec/00_scope.md R10: bit 0 is the least significant). -/

namespace Sys2Proof

/-- One byte (spec/20_memory.md R54). -/
abbrev Byte := BitVec 8

/-- 32 bits: EAX, the words of a SHA-256 state, MISCSELECT[31:0], SSAFRAMESIZE. -/
abbrev Word32 := BitVec 32

/-- 64 bits: RBX, RCX, addresses, SIZE, BASEADDR, `CR_NEXT_EID`. -/
abbrev Word64 := BitVec 64

/-- The contents of at most 4096 bytes of memory as one little-endian value: byte k stands in bits 8k+7:8k
(spec/20_memory.md R50, spec/00_scope.md R11 `MemRead`). -/
abbrev Block := BitVec 32768

/-- The bytes of a page (spec/20_memory.md R54: "4KBytes" is bits 32767:0). -/
abbrev pageBytes : Nat := 4096

end Sys2Proof
end

