-- ==== Sys2Proof/Decode.lean ====
section
/-! DEFINITION. Bytes to instruction and back (spec/30_encoding.md R72 to R78). The bytes of ENCLS are a parameter of the
model (R73, spec/00_scope.md R7, R8): every function takes them. Total on any bytes: what is not the one encoding is
rejected by name. -/

namespace Sys2Proof

/-- Why bytes are no instruction of the spec. -/
inductive DecodeError where
  /-- Fewer bytes than the instruction has. -/
  | truncated
  /-- Not the bytes of `ENCLS`: another instruction, or `ENCLS` with bytes set in front of it, which the spec gives no
  meaning (spec/30_encoding.md R78, spec/93_implementation_defined.md U11). -/
  | notEncls
  deriving DecidableEq, Repr

/-- The value spec/opcode_table.json carries for `ENCLS_OPCODE`: 0F 01 CF in ascending address order (spec/30_encoding.md
R73; PRESUMED, G1, log 1). -/
def tableOpcode : List Byte := [0x0F, 0x01, 0xCF]

/-- The words of an instruction, where `opcode` is `ENCLS_OPCODE`. -/
def encode (opcode : List Byte) (i : Instr) : List Byte :=
  match i with
  | .enclsEcreate => opcode

/-- Reads one instruction from the front of a list of bytes and answers the rest with it; `opcode` is `ENCLS_OPCODE`. -/
def decode (opcode bytes : List Byte) : Except DecodeError (Instr × List Byte) :=
  if bytes.length < opcode.length then .error .truncated
  else if bytes.take opcode.length = opcode then .ok (.enclsEcreate, bytes.drop opcode.length)
  else .error .notEncls

/-- `n` bytes of a number, least significant first. -/
def bytesOfNat (n w : Nat) : List Byte :=
  (List.range n).map fun k => BitVec.ofNat 8 (w / 2 ^ (8 * k))

/-- The bytes of an instruction whose `nbits` table bits are `w`, every higher bit 0, up to the longest instruction. -/
def tableBytes (nbits w : Nat) : List Byte :=
  bytesOfNat (max tableOpcode.length ((nbits + 7) / 8)) (w % 2 ^ nbits)

/-- The instruction the decoder reads, with the table's bytes for ENCLS, from an instruction word numbered as
spec/opcode_table.json numbers it. -/
def decodeTableWord (nbits w : Nat) : Option Instr :=
  match decode tableOpcode (tableBytes nbits w) with
  | .ok (i, _) => some i
  | .error _ => none

end Sys2Proof
end

