-- ==== Sys2Proof/Config.lean ====
section
/-! DEFINITION. What an implementation fixes (spec/00_scope.md R8). The parameters that STEER the operation are plain
data in the structure `Config`, which State holds and no step changes, so a statement about every state is a statement
about every configuration (log 3). The parameters whose value nothing reads, and the values the spec leaves free, are
opaque constants: nothing in Lean can evaluate one or prove a value of it. -/

namespace Sys2Proof

/-- A field of a structure: its lowest bit and its number of bits, bit 0 being bit 0 of the first byte
(spec/00_scope.md R8, R10). -/
structure Field where
  lo  : Nat
  len : Nat
  deriving DecidableEq, Repr, Inhabited

/-- `LAYOUT_PAGEINFO` (spec/10_state.md R27). -/
structure PageinfoLayout where
  /-- Size of the structure in bytes. -/
  size    : Nat
  linaddr : Field
  srcpge  : Field
  secinfo : Field
  secs    : Field
  /-- Further named fields, which ECREATE does not read. -/
  others  : List Field
  deriving DecidableEq, Repr, Inhabited

/-- `LAYOUT_SECINFO` and `secinfo_reserved` (spec/10_state.md R28). -/
structure SecinfoLayout where
  /-- Size of the structure in bytes. -/
  size     : Nat
  flags    : Field
  /-- `FLAGS.PT`, its bits numbered inside FLAGS. -/
  pt       : Field
  /-- Further named fields and further bits of FLAGS, which ECREATE does not read (D32). -/
  others   : List Field
  reserved : Block
  deriving DecidableEq, Repr, Inhabited

/-- `LAYOUT_ATTRIBUTES`, bits numbered inside ATTRIBUTES (spec/10_state.md R31). -/
structure AttributesLayout where
  xfrm      : Field
  mode64bit : Field
  kss       : Field
  /-- The bit that records initialisation, where the layout has one (spec/40_ecreate.md R111, G6). -/
  init      : Option Field
  /-- Every other bit of ATTRIBUTES. -/
  others    : List Field
  deriving DecidableEq, Repr, Inhabited

/-- `LAYOUT_SECS` and `secs_reserved` (spec/10_state.md R29, R32). -/
structure SecsLayout where
  size           : Field
  baseaddr       : Field
  ssaframesize   : Field
  miscselect     : Field
  attributes     : Field
  configid       : Field
  configsvn      : Field
  mrenclave      : Field
  isvsvn         : Field
  isvprodid      : Field
  eid            : Field
  virtchildcnt   : Field
  enclavecontext : Field
  /-- Fields of an SECS the source does not mention (N8): copied and left alone. -/
  others         : List Field
  reserved       : Block
  deriving DecidableEq, Repr, Inhabited

/-- A range of 4 KByte page frames of the physical space: the first frame number and how many. -/
structure Region where
  first : Nat
  count : Nat
  deriving DecidableEq, Repr, Inhabited

/-- A function on naturals as plain data: the listed arguments, and the value of every other one (log 31). -/
structure Table where
  entries : List (Nat × Nat)
  other   : Nat
  deriving DecidableEq, Repr, Inhabited

/-- Operating modes (spec/10_state.md R20). `other` is every mode outside the two the spec admits (D3). -/
inductive Mode where
  | prot32
  | mode64
  | other
  deriving DecidableEq, Repr, Inhabited

/-- What `encls_permitted` can look at of a logical processor: its mode and its control state (spec/10_state.md R20,
spec/92_eei_decisions.md D14). -/
structure Standing where
  mode             : Mode
  cpl              : BitVec 2
  sgxEnabled       : Bool
  enclsExiting     : Bool
  vmxNonRoot       : Bool
  enableEpcVirtExt : Bool
  deriving DecidableEq, Repr, Inhabited

/-- The parameters of spec/00_scope.md R8 that the operation reads. -/
structure Config where
  /-- `ENCLS_OPCODE`: the bytes of the instruction, lowest address first (spec/30_encoding.md R73, D2; log 1). -/
  enclsOpcode       : List Byte
  /-- The CPUID feature flag `SGX1` (spec/30_encoding.md R80). -/
  sgx1              : Bool
  /-- `encls_permitted`: the standings in which ENCLS dispatches to its leaf (premise P1, D14; log 19). -/
  permitted         : List Standing
  linearAddressBits : Nat
  /-- The EPC: "an EPC", so there may be more than one region (spec/00_scope.md R13). -/
  epc               : List Region
  /-- Memory whose reads have side effects (spec/20_memory.md R63, premise P5). The spec does not say what it is made of: that
  it is whole 4 KByte page frames, and the same ones for the whole run, is the model's choice (DESIGN CHOICE, log 43). -/
  sideEffects       : List Region
  /-- `CPUID.(EAX=12H, ECX=0):EBX[31:0]`. -/
  cpuidEbx          : Word32
  /-- `CPUID.(EAX=12H, ECX=0):EDX[7:0]`. -/
  cpuidEdx7_0       : BitVec 8
  /-- `CPUID.(EAX=12H, ECX=0):EDX[15:8]`. -/
  cpuidEdx15_8      : BitVec 8
  /-- `CR_SGX_ATTRIBUTES_MASK` (spec/10_state.md R38). -/
  attributesMask    : Nat
  /-- The XFRM values for which `xfrm_legal` is true. -/
  xfrmLegal         : List Nat
  /-- `compute_xsave_size`, of XFRM. -/
  xsaveSize         : Table
  /-- `compute_misc_region_size`, of MISCSELECT. -/
  miscSize          : Table
  gprSize           : Nat
  ptSecs            : Nat
  /-- The second reading of the MISCSELECT line as an additional fault (D7, log 26). -/
  miscselectLiteral : Bool
  pageinfo          : PageinfoLayout
  secinfo           : SecinfoLayout
  secs              : SecsLayout
  attributes        : AttributesLayout
  /-- Byte j of the MRENCLAVE field is this byte of the eight words, most significant byte of the first word being
  byte 0 (spec/93_implementation_defined.md U22, log 25). -/
  mrenclaveOrder    : List Nat
  deriving DecidableEq, Repr, Inhabited

/-- The two kinds of access `translate` takes (spec/20_memory.md R55, R56). -/
inductive AccessKind where
  | nonEnclaveRead
  | enclaveWrite
  deriving DecidableEq, Repr, Inhabited

/-- The causes of a page fault that `pf_error_code` distinguishes (spec/40_ecreate.md R85, R93). -/
inductive PfCause where
  | notMapped
  | denied
  | notEpc
  | epcmValid
  deriving DecidableEq, Repr, Inhabited

/-- `pf_error_code`: left open, no claim may depend on its value (spec/92_eei_decisions.md D13, U9; log 16). The spec gives
the code no format either (spec/60_exceptions.md R126): that it is a word of 32 BITS is the model's choice (DESIGN CHOICE,
log 16). -/
opaque Config.pfErrorCode : AccessKind → PfCause → Word32

/-- The VMCS code `SGX_CONFLICT`: no numeric value is offered (D26, U15; log 10). -/
opaque Config.sgxConflict : Word32

/-- The VMCS code `EPC_PAGE_CONFLICT_EXCEPTION` (D26, U15; log 10). -/
opaque Config.epcPageConflictException : Word32

/-- FREE VALUE: the destination page after a fault that follows the copy (spec/40_ecreate.md R123, U8; log 15). -/
opaque Config.freePage : Nat → Block

/-- FREE VALUE: the words of MRENCLAVE after such a fault (log 15). -/
opaque Config.freeMrenclave : Nat → Nat → Word32

/-- FREE VALUE: the update counter after such a fault (log 15). -/
opaque Config.freeCounter : Nat → Nat

/-- FREE VALUE: the initialized flag after such a fault (log 15). -/
opaque Config.freeInitialized : Nat → Bool

/-- FREE VALUE: whether access number `k` of a transition takes the value that the `i`-th cell of its window names
(spec/20_memory.md R61, U21; log 14). The first argument is the counter `freeIndex`. -/
opaque Config.raceSeen : Nat → Nat → Nat → Bool

/-- FREE VALUE: how many of the oldest stores under way a transition may see before they land (R61, R64; log 14). The
argument is the counter `freeIndex`. -/
opaque Config.raceReach : Nat → Nat

end Sys2Proof
end

