-- ==== Sys2Proof/Machine/Reference.lean ====
section
/-! DEFINITION. The reference configuration REF of spec/95_test_vectors.md, the only complete configuration the spec
writes down. EVERY VALUE OF IT IS OUTSIDE THE SOURCE (PRESUMED and DESIGN CHOICE, log 4): `State.reset` and the tests
name it, no statement rests on it. -/

namespace Sys2Proof.Machine

/-- A field given by its byte offset and its number of bytes. -/
def bytesField (off n : Nat) : Field := ⟨8 * off, 8 * n⟩

/-- The bits of the bytes `off` to `off + n - 1` of a structure. -/
def byteMask (off n : Nat) : Block := BitVec.ofNat 32768 ((2 ^ (8 * n) - 1) <<< (8 * off))

/-- G2. -/
def refPageinfo : PageinfoLayout :=
  { size := 32, linaddr := bytesField 0 8, srcpge := bytesField 8 8, secinfo := bytesField 16 8
    secs := bytesField 24 8, others := [] }

/-- G3: FLAGS bits 7:6 and 63:16 and bytes 8 to 63 are reserved, bits 5:0 are R, W, X, PENDING, MODIFIED, PR. -/
def refSecinfo : SecinfoLayout :=
  { size := 64, flags := bytesField 0 8, pt := ⟨8, 8⟩, others := [⟨0, 6⟩]
    reserved := 0xC0 ||| byteMask 2 6 ||| byteMask 8 56 }

/-- G4, with EID, VIRTCHILDCNT and ENCLAVECONTEXT where REF places them. -/
def refSecs : SecsLayout :=
  { size := bytesField 0 8, baseaddr := bytesField 8 8, ssaframesize := bytesField 16 4
    miscselect := bytesField 20 4, attributes := bytesField 48 16, configid := bytesField 192 64
    configsvn := bytesField 260 2, mrenclave := bytesField 64 32, isvsvn := bytesField 258 2
    isvprodid := bytesField 256 2, eid := bytesField 4064 8, virtchildcnt := bytesField 4072 8
    enclavecontext := bytesField 4080 8
    others := [bytesField 32 16, bytesField 128 32, bytesField 176 16]
    reserved := byteMask 24 8 ||| byteMask 96 32 ||| byteMask 160 16 ||| byteMask 262 3802 ||| byteMask 4088 8 }

/-- G6: INIT 0, MODE64BIT 2, KSS 7, XFRM 127:64; the other bits are not read by name. -/
def refAttributes : AttributesLayout :=
  { xfrm := ⟨64, 64⟩, mode64bit := ⟨2, 1⟩, kss := ⟨7, 1⟩, init := some ⟨0, 1⟩
    others := [⟨1, 1⟩, ⟨3, 4⟩, ⟨8, 56⟩] }

/-- G16, D14: privilege level 0, SGX enabled, no control that makes ENCLS exit, either admitted mode, inside or outside
VMX non-root operation. -/
def refPermitted : List Standing :=
  [Mode.prot32, Mode.mode64].flatMap fun m =>
    [false, true].flatMap fun v =>
      [false, true].map fun x =>
        { mode := m, cpl := 0, sgxEnabled := true, enclsExiting := false, vmxNonRoot := v, enableEpcVirtExt := x }

/-- REF of spec/95_test_vectors.md. -/
def refConfig : Config :=
  { enclsOpcode := tableOpcode
    sgx1 := true
    permitted := refPermitted
    linearAddressBits := 48
    epc := [⟨0x80000, 16⟩]
    sideEffects := []
    cpuidEbx := 1
    cpuidEdx7_0 := 31
    cpuidEdx15_8 := 36
    attributesMask := 0x700000000000000B6
    xfrmLegal := [3, 7]
    xsaveSize := { entries := [(3, 576), (7, 832)], other := 576 }
    miscSize := { entries := [(1, 16)], other := 0 }
    gprSize := 176
    ptSecs := 0
    miscselectLiteral := false
    pageinfo := refPageinfo
    secinfo := refSecinfo
    secs := refSecs
    attributes := refAttributes
    mrenclaveOrder := List.range 32 }

end Sys2Proof.Machine
end

