-- ==== Sys2Proof/Machine/State.lean ====
section
/-! DEFINITION. The state of the machine (spec/10_state.md R15 to R47), why a step can stop, and the state after reset.
State is plain data; every field is listed in INVENTORY.md with the rule that names it. -/

namespace Sys2Proof.Machine

/-- The DS segment (spec/10_state.md R21, D33): read in `prot32` only. -/
structure Segment where
  base       : Word32
  /-- The greatest offset inside the segment. -/
  limit      : Word32
  usable     : Bool
  expandDown : Bool
  deriving DecidableEq, Repr

/-- One range of pages of a translation context: linear pages `firstPage` and on are mapped to the frames `firstFrame`
and on, and permit a non-enclave read and an enclave write as said (spec/20_memory.md R55, R56; log 23). -/
structure Mapping where
  firstPage  : Nat
  pages      : Nat
  firstFrame : Nat
  read       : Bool
  write      : Bool
  deriving DecidableEq, Repr

/-- A code in a VMCS field: the two the spec names without a number (D26), or one that something else wrote; the number
of a named code is an open constant of Config (log 10). -/
inductive VmcsCode where
  | sgxConflict
  | epcPageConflictException
  | other (n : Word32)
  deriving DecidableEq, Repr

/-- The five VMCS fields an `SGX_CONFLICT` VM exit writes (spec/10_state.md R40). -/
structure Vmcs where
  exitReason    : VmcsCode
  qualCode      : VmcsCode
  qualError     : Word32
  guestPhysical : Word64
  guestLinear   : Word64
  deriving DecidableEq, Repr

/-- How an ECREATE can end other than by completing (spec/00_scope.md R12; spec/60_exceptions.md R125, R126, R131). -/
inductive Event where
  /-- `#GP(0)`. -/
  | gp0
  /-- `#PF` with the reported linear address, and the access and the cause that make its error code
  `pf_error_code(access, cause)`. -/
  | pf (la : Word64) (access : AccessKind) (cause : PfCause)
  /-- VM exit `SGX_CONFLICT`, carrying the five values. -/
  | vmExit (info : Vmcs)
  deriving DecidableEq, Repr

/-- A recorded outcome and the instruction pointer recorded for it (spec/10_state.md R18, spec/60_exceptions.md R136). -/
structure EventRecord where
  event : Event
  pc    : Word64
  deriving DecidableEq, Repr

/-- The temporaries that live from `ECREATE.acquire` to `ECREATE.commit` (spec/10_state.md R41, spec/20_memory.md R68):
`la_secs`, the address r paging gave for it, the EPC page p, and `la_src`. -/
structure Ticket where
  laSecs : Word64
  phys   : Word64
  page   : Nat
  laSrc  : Word64
  deriving DecidableEq, Repr

/-- What a logical processor is inside of: nothing; an ECREATE, between its two transitions (spec/20_memory.md R68); or
another SGX leaf function, of which the spec says only that its processor may hold EPCM entries (spec/00_scope.md R6 b). -/
inductive Phase where
  | idle
  | ecreate (t : Ticket)
  | otherLeaf
  deriving DecidableEq, Repr

/-- One logical processor (spec/10_state.md R15, R46). -/
structure Processor where
  rax              : Word64
  rbx              : Word64
  rcx              : Word64
  pc               : Word64
  rflags           : Word64
  mode             : Mode
  cpl              : BitVec 2
  sgxEnabled       : Bool
  /-- A control that makes ENCLS exit whatever its leaf (D14). -/
  enclsExiting     : Bool
  vmxNonRoot       : Bool
  enableEpcVirtExt : Bool
  ds               : Segment
  xlat             : List Mapping
  phase            : Phase
  event            : Option EventRecord
  vmcs             : Vmcs
  deriving DecidableEq, Repr

/-- The lock of an EPCM entry and who holds it (spec/10_state.md R26). -/
inductive EntryLock where
  | free
  | held (holders : List Nat)
  deriving DecidableEq, Repr

/-- An EPCM entry (spec/10_state.md R25, R36). -/
structure EpcmEntry where
  valid          : Bool
  pt             : Nat
  enclaveAddress : Word64
  r              : Bool
  w              : Bool
  x              : Bool
  blocked        : Bool
  pending        : Bool
  modified       : Bool
  pr             : Bool
  lock           : EntryLock
  deriving DecidableEq, Repr

/-- The eight 32-bit words of a SHA-256 state (spec/10_state.md R33). -/
structure Sha256State where
  a : Word32
  b : Word32
  c : Word32
  d : Word32
  e : Word32
  f : Word32
  g : Word32
  h : Word32
  deriving DecidableEq, Repr

/-- Hidden state inside an SECS (spec/10_state.md R33). -/
structure SecsHidden where
  updateCounter : Nat
  initialized   : Bool
  mrenclave     : Sha256State
  deriving DecidableEq, Repr

/-- Bytes by physical address, in one canonical form: addresses strictly rising, no byte equal to what an unlisted
address reads as (log 7). -/
abbrev Memory := List Host.Cell

/-- The model's own: from what the reads of an instruction that has started may take a byte, beside what memory holds
(spec/20_memory.md R61, R64, U21; log 14). -/
structure Window where
  /-- What bytes of ordinary memory held that were overwritten since the instruction started, oldest first. -/
  past : List Host.Cell
  /-- How many of the oldest stores under way its reads have seen: they land before the instruction ends. -/
  owed : Nat
  deriving DecidableEq, Repr

/-- A move of an agent other than the logical processors executing ECREATE (spec/00_scope.md R6,
spec/70_reset_and_hazards.md R156; logs 13, 14). -/
inductive Move where
  /-- Processor `i` begins another SGX leaf function. -/
  | leafBegin (i : Nat)
  /-- Processor `i`, inside another leaf, asks for the lock of page `page`'s EPCM entry. -/
  | hold (page i : Nat)
  /-- Processor `i`, inside another leaf, leaves the lock of page `page`'s entry. -/
  | unhold (page i : Nat)
  /-- Processor `i` ends its other leaf, holding no entry any more. -/
  | leafEnd (i : Nat)
  /-- The next instruction of processor `i` starts: its reads may be taken from now on (spec/20_memory.md R61). -/
  | start (i : Nat)
  /-- System software runs on processor `i` between instructions and leaves its own state as given. -/
  | software (i : Nat) (p : Processor)
  /-- The handler of processor `i` has removed the cause and returns to the same ENCLS (spec/60_exceptions.md R137). -/
  | resume (i : Nat)
  /-- System software stores a byte to ordinary memory. DESIGN CHOICE (log 44): a store names no processor, so that one may
  land at any turn, also inside the ECREATE of an only processor; spec/00_scope.md R6 c has it from another one. -/
  | store (a : Word64) (b : Byte)
  /-- Such a store, of no named processor (log 44), is under way: it lands later, and no agent finds the new byte before,
  but an instruction that ends after it has landed. -/
  | storeBegin (a : Word64) (b : Byte)
  /-- The `n` oldest stores under way land, whatever the processors are doing (log 44). -/
  | storesLand (n : Nat)
  deriving DecidableEq, Repr

/-- Whose move is next (log 12). -/
inductive Turn where
  /-- Logical processor `i` takes its next transition. -/
  | processor (i : Nat)
  /-- Another agent moves. -/
  | agent (m : Move)
  deriving DecidableEq, Repr

/-- The state of the machine. -/
structure State where
  /-- The parameters of the run, constant (spec/10_state.md R15, R38, R39; log 3). -/
  cfg       : Config
  /-- The logical processors; `NUM_LP` is their number. -/
  procs     : List Processor
  /-- The model's own: the processor that moves when no turn is pending. -/
  active    : Nat
  /-- Ordinary memory (R22). -/
  mem       : Memory
  /-- The contents of the EPC pages (R23), by physical address. -/
  epc       : Memory
  /-- Hidden SECS state by page (R33). -/
  hidden    : List (Nat × SecsHidden)
  /-- The EPC pages whose contents and hidden state are a FREE VALUE (R44, spec/40_ecreate.md R123; log 15): where it was
  drawn. -/
  scrambled : List (Nat × Option Nat)
  /-- The EPCM by page (R24, R25). -/
  epcm      : List (Nat × EpcmEntry)
  /-- `CR_NEXT_EID` (R37). -/
  nextEid   : Word64
  /-- The model's own: pending moves, oldest first. -/
  turns     : List Turn
  /-- The model's own: system software's stores under way, in the order in which they land. -/
  racing    : List Host.Cell
  /-- The model's own: the windows of the instructions that have started, by processor (log 14). -/
  windows   : List (Nat × Option Window)
  /-- The model's own: where the free values are drawn. -/
  freeIndex : Nat
  deriving DecidableEq, Repr

/-- Why the machine stops with a fault. -/
inductive Fault where
  /-- Raised by `step` when the active processor's last ECREATE ended in an exception or a VM exit: what follows is not
  in the spec, the outcome is terminal for the run (spec/60_exceptions.md R136, D12, U26). Safe. -/
  | outcomeTerminal
  deriving DecidableEq, Repr

/-- Why the model gives an invocation no meaning (spec/00_scope.md R12 `Refused`). Each is safe. -/
inductive Refusal where
  /-- An instruction without a meaning yet: raised by no arm of this model. Safe. -/
  | notModelled (mnemonic : String)
  /-- Raised by `exec`, `step` and the moves `start`, `software`, `resume` and `leafBegin`: no logical processor has that
  number. Safe. -/
  | noSuchProcessor
  /-- Raised by ECREATE: the configuration is not well formed (R35, premise P3). Safe. -/
  | configNotWellFormed
  /-- Raised by ECREATE: a mode outside the two the spec admits (D3, U12). Safe. -/
  | modeNotAdmitted
  /-- Raised by ECREATE: ENCLS may not be executed here (premise P1, D14, U24). Safe. -/
  | enclsNotPermitted
  /-- Raised by ECREATE: EAX selects another leaf (spec/30_encoding.md R77, U10). Safe. -/
  | leafNotInSpec
  /-- Raised by ECREATE in protected mode: DS unusable or expand-down (D33, U29). Safe. -/
  | dsNotUsable
  /-- Raised by ECREATE: the lock of some EPCM entry is held by no agent, or by one that executes no leaf (premise P4 of
  spec/70_reset_and_hazards.md R149). Safe. -/
  | lockWithoutHolder
  /-- Raised by ECREATE: a byte of PAGEINFO, SECINFO or the source page lies in the EPC (R59, U17). Safe. -/
  | operandInEpc
  /-- Raised by ECREATE: such a byte lies in memory whose reads have side effects (R63, U17). Safe. -/
  | operandHasSideEffects
  /-- Raised by `exec` and `step`: the processor is inside another SGX leaf function, whose own steps are not in the spec
  (spec/00_scope.md R5). Safe. -/
  | insideOtherLeaf
  /-- Raised by the fetch: the bytes at the instruction pointer are not readable (fetch is outside the spec, R7). Safe. -/
  | fetchNotReadable
  /-- Raised by the fetch: the bytes are not the encoding of an instruction of the spec (R78, U11). Safe. -/
  | notEncls
  /-- Raised by the moves `hold` and `unhold`: a page outside the EPC has no EPCM entry (R24). Safe. -/
  | noEpcmEntry
  /-- Raised by the moves `start`, `software`, `resume` and `leafBegin`: a processor whose ECREATE has started can do nothing
  else (R68), and one inside another leaf ends that first. Safe. -/
  | insideInstruction
  /-- Raised by the moves `hold`, `unhold` and `leafEnd`: the processor is inside no other leaf (premise P4). Safe. -/
  | notInOtherLeaf
  /-- Raised by the move `leafEnd`: the processor still holds an EPCM entry (premise P4). Safe. -/
  | leafHoldsEntry
  /-- Raised by the moves `store` and `storeBegin`: the byte is not in ordinary memory (R22). Safe. -/
  | storeOutsideOrdinary
  deriving DecidableEq, Repr

/-- What an unlisted address of memory reads as (DESIGN CHOICE, log 7). -/
def Memory.unlisted : Byte := 0

/-- The EPCM entry of an EPC page that no list names: not valid and free (PRESUMED, G13; log 8). -/
def EpcmEntry.reset : EpcmEntry :=
  { valid := false, pt := 0, enclaveAddress := 0, r := false, w := false, x := false, blocked := false
    pending := false, modified := false, pr := false, lock := .free }

/-- Hidden SECS state of a page that no list names (DESIGN CHOICE, log 8). -/
def SecsHidden.reset : SecsHidden :=
  { updateCounter := 0, initialized := false, mrenclave := ⟨0, 0, 0, 0, 0, 0, 0, 0⟩ }

/-- A logical processor after reset: the launch premises hold, the registers are as logs 5, 6 and 10 say
(spec/10_state.md R45: the source gives no reset value). -/
def Processor.reset : Processor :=
  { rax := 0, rbx := 0, rcx := 0, pc := 0, rflags := 2, mode := .mode64, cpl := 0, sgxEnabled := true
    enclsExiting := false, vmxNonRoot := false, enableEpcVirtExt := false
    ds := { base := 0, limit := 0xFFFFFFFF, usable := true, expandDown := false }
    xlat := [{ firstPage := 0, pages := 0x100000, firstFrame := 0, read := true, write := true }]
    phase := .idle, event := none
    vmcs := { exitReason := .other 0, qualCode := .other 0, qualError := 0, guestPhysical := 0, guestLinear := 0 } }

/-- The machine after reset (spec/10_state.md R45, spec/70_reset_and_hazards.md R143, R149; logs 4 to 10). -/
def State.reset : State :=
  { cfg := refConfig, procs := [Processor.reset, Processor.reset], active := 0, mem := [], epc := [], hidden := []
    scrambled := [], epcm := [], nextEid := 0, turns := [], racing := [], windows := [], freeIndex := 0 }

end Sys2Proof.Machine
end

