-- ==== Sys2Proof/Machine/Flags.lean ====
section
/-! DEFINITION. The flags: "Flags Affected: None" (spec/10_state.md R19). -/

namespace Sys2Proof.Machine

/-- The flags after a completed ECREATE: what they were (spec/10_state.md R19, spec/40_ecreate.md R122). -/
def flagsAfter (flags : Word64) : Word64 := flags

end Sys2Proof.Machine
end

