-- ==== Sys2Proof/Machine/Layout.lean ====
section
/-! DEFINITION. Reading and writing the fields of a structure, and the well-formedness of a configuration
(spec/10_state.md R30, R31, R32, R35; spec/00_scope.md R10). -/

namespace Sys2Proof.Machine

/-- Bits `f` of a value, as a natural number. -/
def fieldOf (v : Nat) (f : Field) : Nat := (v >>> f.lo) % 2 ^ f.len

/-- `DS:v.F`: the field `f` of a structure. -/
def getField (b : Block) (f : Field) : Nat := fieldOf b.toNat f

/-- The bits of a field as a natural number with exactly those bits set. -/
def fieldMask (f : Field) : Nat := (2 ^ f.len - 1) <<< f.lo

/-- The structure with field `f` set to `v`, truncated or zero-extended to the field (D17, D31). -/
def setField (b : Block) (f : Field) (v : Nat) : Block :=
  (b &&& ~~~(BitVec.ofNat 32768 (fieldMask f))) ||| BitVec.ofNat 32768 ((v % 2 ^ f.len) <<< f.lo)

/-- A field given inside another field, numbered in the whole structure. -/
def subField (outer inner : Field) : Field := ⟨outer.lo + inner.lo, inner.len⟩

/-- Value of a table at an argument. -/
def tableAt (t : Table) (x : Nat) : Nat :=
  match t.entries.find? (fun e => e.1 == x) with
  | some e => e.2
  | none => t.other

/-- The greatest value a table takes. -/
def tableMax (t : Table) : Nat := t.entries.foldr (fun e m => max e.2 m) t.other

/-- Whether a frame number lies in one of the regions. -/
def inRegions (rs : List Region) (frame : Nat) : Bool :=
  rs.any fun r => decide (r.first ≤ frame ∧ frame < r.first + r.count)

/-- Joins bit sets that must not overlap: `none` as soon as two of them share a bit. -/
def disjointUnion (masks : List Nat) : Option Nat :=
  masks.foldr
    (fun m acc =>
      match acc with
      | none => none
      | some u => if u &&& m = 0 then some (u ||| m) else none)
    (some 0)

/-- Every one of `bits` bits is in exactly one of the fields or in the reserved set (spec/10_state.md R35). R35 does not say
whether a layout may name a field of width 0: the model accepts none (DESIGN CHOICE, log 42). -/
def partitions (bits : Nat) (fields : List Field) (reserved : Nat) : Bool :=
  fields.all (fun f => decide (0 < f.len ∧ f.lo + f.len ≤ bits)) &&
    disjointUnion (reserved :: fields.map fieldMask) == some (2 ^ bits - 1)

/-- `LAYOUT_PAGEINFO` is well formed (R27, R35). R27 leaves the total size open and R35 sets no bound: that a structure has at
most 4096 BYTES is the model's choice (DESIGN CHOICE, log 42). -/
def pageinfoWf (l : PageinfoLayout) : Bool :=
  decide (0 < l.size ∧ l.size ≤ pageBytes) &&
    partitions (8 * l.size) ([l.linaddr, l.srcpge, l.secinfo, l.secs] ++ l.others) 0

/-- Whether a field is a part of another one, or does not overlap it. -/
def insideOrApart (outer f : Field) : Bool :=
  decide ((outer.lo ≤ f.lo ∧ f.lo + f.len ≤ outer.lo + outer.len) ∨
    f.lo + f.len ≤ outer.lo ∨ outer.lo + outer.len ≤ f.lo)

/-- `LAYOUT_SECINFO` and `secinfo_reserved` are well formed (R28, R35): FLAGS.PT lies inside FLAGS. R28 leaves the total size
open: that it is at most 4096 BYTES is the model's choice (DESIGN CHOICE, log 42). A further field is a part of FLAGS, as
PT is, or does not overlap it. -/
def secinfoWf (l : SecinfoLayout) : Bool :=
  decide (0 < l.size ∧ l.size ≤ pageBytes ∧ l.pt.lo + l.pt.len ≤ l.flags.len ∧
      l.flags.lo + l.flags.len ≤ 8 * l.size) &&
    l.others.all (insideOrApart l.flags) &&
    partitions (8 * l.size) (subField l.flags l.pt :: l.others) l.reserved.toNat

/-- The named fields of an SECS that the source mentions (R29). -/
def secsFields (l : SecsLayout) : List Field :=
  [l.size, l.baseaddr, l.ssaframesize, l.miscselect, l.attributes, l.configid, l.configsvn, l.mrenclave,
   l.isvsvn, l.isvprodid, l.eid, l.virtchildcnt, l.enclavecontext]

/-- `LAYOUT_SECS` and `secs_reserved` are well formed (R30, R32, R35, D31). -/
def secsWf (l : SecsLayout) : Bool :=
  decide (l.size.len = 64 ∧ l.baseaddr.len = 64 ∧ l.ssaframesize.len = 32 ∧ 32 ≤ l.miscselect.len ∧
      l.mrenclave.len = 256) &&
    partitions (8 * pageBytes) (secsFields l ++ l.others) l.reserved.toNat

/-- `LAYOUT_ATTRIBUTES` is well formed inside an ATTRIBUTES field of `bits` bits (R30, R31, R35). -/
def attributesWf (bits : Nat) (l : AttributesLayout) : Bool :=
  decide (2 ≤ l.xfrm.len ∧ l.mode64bit.len = 1 ∧ l.kss.len = 1) &&
    (match l.init with
     | none => true
     | some f => decide (f.len = 1)) &&
    partitions bits ([l.xfrm, l.mode64bit, l.kss] ++ l.init.toList ++ l.others) 0

/-- The order of MRENCLAVE's bytes names each of the 32 bytes once (U22, log 25). -/
def orderWf (o : List Nat) : Bool :=
  decide (o.length = 32) && (List.range 32).all fun k => o.contains k

/-- `ENCLS_OPCODE` has a byte, and no more than a page holds (DESIGN CHOICE, log 42: the spec gives the string no bound). -/
def opcodeWf (o : List Byte) : Bool := decide (0 < o.length ∧ o.length ≤ pageBytes)

/-- What D14 says of `encls_permitted`, whatever else it asks: SGX is enabled, the mode is admitted, and no control makes
ENCLS exit (spec/70_reset_and_hazards.md R149 P1). -/
def permittedWf (l : List Standing) : Bool :=
  l.all fun x => x.sgxEnabled && !x.enclsExiting && decide (x.mode ≠ .other)

/-- The configuration is well formed: the layouts are (R35), a canonical address has a meaning (R49; log 42), the attribute
mask is as wide as ATTRIBUTES (R38), the size of an SSA frame stays below 2^64 (spec/40_ecreate.md R100), and the bytes of
ENCLS and the standings that permit it are what they can be (R73, D14; logs 30, 42). -/
def configWf (c : Config) : Bool :=
  opcodeWf c.enclsOpcode && permittedWf c.permitted &&
  pageinfoWf c.pageinfo && secinfoWf c.secinfo && secsWf c.secs &&
    attributesWf c.secs.attributes.len c.attributes && orderWf c.mrenclaveOrder &&
    decide (1 ≤ c.linearAddressBits ∧ c.linearAddressBits ≤ 64) &&
    decide (c.attributesMask < 2 ^ c.secs.attributes.len) &&
    decide (tableMax c.xsaveSize + c.gprSize + tableMax c.miscSize < 2 ^ 64)

end Sys2Proof.Machine
end

