-- ==== Sys2Proof/Machine/Ops.lean ====
section
/-! DEFINITION. The named operations over memory, the EPCM and the processors, translation, reading an operand, and
TAKING AN EXCEPTION (spec/20_memory.md, spec/10_state.md R22 to R26, spec/60_exceptions.md R125 to R137). -/

namespace Sys2Proof.Machine

/-! ### Results of a check -/

/-- What a step of the operation answers: a value, the event that ends the instruction, or no meaning
(spec/00_scope.md R11 `raise`, R12). -/
inductive Check (α : Type) where
  | ok (a : α)
  | raise (e : Event)
  | refuse (r : Refusal)
  deriving DecidableEq, Repr

/-- The next rule runs only if this one passed (spec/40_ecreate.md R82). -/
def Check.bind {α β : Type} (x : Check α) (f : α → Check β) : Check β :=
  match x with
  | .ok a => f a
  | .raise e => .raise e
  | .refuse r => .refuse r

/-! ### Lists of keys and values in one canonical form -/

/-- The value at a key; `d` is what an unlisted key reads as. -/
def Assoc.read {α : Type} (d : α) (l : List (Nat × α)) (k : Nat) : α :=
  match l with
  | [] => d
  | c :: t => if c.1 = k then c.2 else Assoc.read d t k

/-- Replaces everything listed at keys from `lo` up to `hi` by `mid`. -/
def Assoc.splice {α : Type} (l : List (Nat × α)) (lo hi : Nat) (mid : List (Nat × α)) : List (Nat × α) :=
  l.filter (fun c => decide (c.1 < lo)) ++ mid ++ l.filter (fun c => decide (hi ≤ c.1))

/-- Sets the value at a key; the value of an unlisted key is not listed. -/
def Assoc.write {α : Type} [DecidableEq α] (d : α) (l : List (Nat × α)) (k : Nat) (v : α) : List (Nat × α) :=
  Assoc.splice l k (k + 1) (if v = d then [] else [(k, v)])

/-- The canonical form: keys strictly rising, no value equal to that of an unlisted key. -/
abbrev Assoc.Wf {α : Type} (d : α) (l : List (Nat × α)) : Prop :=
  l.Pairwise (fun x y => x.1 < y.1) ∧ ∀ c ∈ l, c.2 ≠ d

/-! ### Memory -/

/-- One byte of memory. -/
def Memory.read (m : Memory) (a : Nat) : Byte := Assoc.read Memory.unlisted m a

/-- Writes one byte of memory. -/
def Memory.write (m : Memory) (a : Nat) (b : Byte) : Memory := Assoc.write Memory.unlisted m a b

/-- The canonical form of memory (log 7). -/
abbrev Memory.wf (m : Memory) : Prop := Assoc.Wf Memory.unlisted m

/-- Byte k of a block (spec/20_memory.md R50). -/
def blockByte (b : Block) (k : Nat) : Byte := (b >>> (8 * k)).setWidth 8

/-- The block with byte k set. -/
def setBlockByte (b : Block) (k : Nat) (v : Byte) : Block :=
  (b &&& ~~~((255#32768) <<< (8 * k))) ||| ((v.setWidth 32768) <<< (8 * k))

/-- Reads `n` bytes, at most 4096, at a physical address: the little-endian value (spec/00_scope.md R11, R50). An
unlisted byte reads as 00H, so only listed bytes are put in. -/
def Memory.load (m : Memory) (base n : Nat) : Block :=
  m.foldr (fun c acc => if base ≤ c.1 ∧ c.1 < base + n then setBlockByte acc (c.1 - base) c.2 else acc) 0

/-- The listed bytes of `n` bytes of a block placed at `base`. -/
def blockCells (base n : Nat) (b : Block) : Memory :=
  (List.range n).filterMap fun k =>
    if blockByte b k = Memory.unlisted then none else some (base + k, blockByte b k)

/-- Writes the first `n` bytes of a block at a physical address (`EpcWrite`, spec/00_scope.md R11). -/
def Memory.store (m : Memory) (base n : Nat) (b : Block) : Memory :=
  Assoc.splice m base (base + n) (blockCells base n b)

/-! ### The EPC, the EPCM and the hidden state of a page -/

/-- The 4 KByte frame of a physical address. -/
def frameOf (pa : Word64) : Nat := pa.toNat / pageBytes

/-- Whether a frame belongs to the EPC (spec/10_state.md R23). -/
def State.inEpc (s : State) (frame : Nat) : Bool := inRegions s.cfg.epc frame

/-- The EPCM entry of an EPC page (spec/10_state.md R24). -/
def State.entry (s : State) (page : Nat) : EpcmEntry := Assoc.read EpcmEntry.reset s.epcm page

/-- Writes an EPCM entry. -/
def State.setEntry (s : State) (page : Nat) (e : EpcmEntry) : State :=
  { s with epcm := Assoc.write EpcmEntry.reset s.epcm page e }

/-- Writes the lock of an EPCM entry and nothing else (spec/10_state.md R26). -/
def State.setLock (s : State) (page : Nat) (l : EntryLock) : State :=
  s.setEntry page { s.entry page with lock := l }

/-- Whether an agent holds a lock. -/
def EntryLock.heldBy (l : EntryLock) (a : Nat) : Bool :=
  match l with
  | .free => false
  | .held hs => hs.contains a

/-- Whether agent `a` holds some EPCM entry. -/
def State.holdsEntry (s : State) (a : Nat) : Bool := s.epcm.any fun c => (s.entry c.1).lock.heldBy a

/-- Where the free contents of an EPC page were drawn, if they are free (spec/40_ecreate.md R123; log 15). -/
def State.drawnAt (s : State) (page : Nat) : Option Nat := Assoc.read none s.scrambled page

/-- The 4096 bytes of an EPC page (spec/10_state.md R23). -/
def State.page (s : State) (page : Nat) : Block :=
  match s.drawnAt page with
  | none => s.epc.load (page * pageBytes) pageBytes
  | some k => Config.freePage k

/-- One byte of the EPC, by physical address. -/
def State.epcByte (s : State) (a : Nat) : Byte := blockByte (s.page (a / pageBytes)) (a % pageBytes)

/-- Writes the 4096 bytes of an EPC page. -/
def State.setPage (s : State) (page : Nat) (b : Block) : State :=
  { s with epc := s.epc.store (page * pageBytes) pageBytes b
           scrambled := Assoc.write none s.scrambled page none }

/-- The hidden state of an SECS page whose contents are free. -/
def freeHidden (k : Nat) : SecsHidden :=
  { updateCounter := Config.freeCounter k, initialized := Config.freeInitialized k
    mrenclave :=
      ⟨Config.freeMrenclave k 0, Config.freeMrenclave k 1, Config.freeMrenclave k 2, Config.freeMrenclave k 3,
       Config.freeMrenclave k 4, Config.freeMrenclave k 5, Config.freeMrenclave k 6, Config.freeMrenclave k 7⟩ }

/-- The hidden state of an SECS page (spec/10_state.md R33). -/
def State.hiddenAt (s : State) (page : Nat) : SecsHidden :=
  match s.drawnAt page with
  | none => Assoc.read SecsHidden.reset s.hidden page
  | some k => freeHidden k

/-- Writes the hidden state of an SECS page. -/
def State.setHidden (s : State) (page : Nat) (h : SecsHidden) : State :=
  { s with hidden := Assoc.write SecsHidden.reset s.hidden page h }

/-- The contents and the hidden state of an EPC page become a FREE VALUE, drawn at `freeIndex`
(spec/10_state.md R44, spec/40_ecreate.md R123, D10; log 15). -/
def State.scramble (s : State) (page : Nat) : State :=
  { s with epc := s.epc.store (page * pageBytes) pageBytes 0
           hidden := Assoc.write SecsHidden.reset s.hidden page SecsHidden.reset
           scrambled := Assoc.write none s.scrambled page (some s.freeIndex) }

/-! ### Processors and events -/

/-- The error code an event delivers: 0 with `#GP` (spec/60_exceptions.md R125), the open `pf_error_code` with `#PF`
(R126, D13; log 16), none with a VM exit. -/
def errorCode (e : Event) : Option Word32 :=
  match e with
  | .gp0 => some 0
  | .pf _ k c => some (Config.pfErrorCode k c)
  | .vmExit _ => none

/-- The number of a VMCS code; that of a code the spec only names is open (D26; log 10). -/
def vmcsCodeNumber (v : VmcsCode) : Word32 :=
  match v with
  | .sgxConflict => Config.sgxConflict
  | .epcPageConflictException => Config.epcPageConflictException
  | .other n => n

/-- The processor that executes. -/
def State.current (s : State) : Option Processor := s.procs[s.active]?

/-- Writes the processor that executes. -/
def State.setCurrent (s : State) (p : Processor) : State := { s with procs := s.procs.set s.active p }

/-- Writes processor `i`. -/
def State.setProc (s : State) (i : Nat) (p : Processor) : State := { s with procs := s.procs.set i p }

/-- A fresh place to draw free values from (log 40). -/
def State.tick (s : State) : State := { s with freeIndex := s.freeIndex + 1 }

/-- The VMCS after an event: a VM exit writes its five fields (spec/10_state.md R40), an exception none. -/
def vmcsAfter (v : Vmcs) (e : Event) : Vmcs :=
  match e with
  | .gp0 => v
  | .pf _ _ _ => v
  | .vmExit info => info

/-- TAKING AN EXCEPTION OR A VM EXIT: the event is recorded with the address of the ENCLS itself, which the instruction
pointer keeps; the processor is no longer inside an instruction; nothing else of it changes
(spec/10_state.md R18, spec/60_exceptions.md R125, R126, R131, R136; log 11). -/
def State.takeEvent (s : State) (p : Processor) (e : Event) : State :=
  s.setCurrent { p with phase := .idle, event := some { event := e, pc := p.pc }, vmcs := vmcsAfter p.vmcs e }

/-- The return: the same ENCLS is executed again (spec/60_exceptions.md R137, spec/70_reset_and_hazards.md R153). -/
def returned (p : Processor) : Processor := { p with event := none }

/-- Taking an event after the entry lock was acquired: the lock is released first (spec/40_ecreate.md R121). -/
def State.releaseAndTake (s : State) (p : Processor) (page : Nat) (e : Event) : State :=
  (s.setLock page .free).takeEvent p e

/-! ### Addresses and translation -/

/-- Truncation of an address to the width of the mode (spec/10_state.md R17; log 32). -/
def wrapAddress (m : Mode) (a : Word64) : Word64 :=
  match m with
  | .prot32 => (a.setWidth 32).setWidth 64
  | .mode64 => a
  | .other => a

/-- What paging answers for a linear address (spec/20_memory.md R55). -/
inductive Translation where
  | phys (pa : Word64)
  | fault (cause : PfCause)
  deriving DecidableEq, Repr

/-- Whether a mapping permits an access (spec/20_memory.md R56). -/
def permits (m : Mapping) (k : AccessKind) : Bool :=
  match k with
  | .nonEnclaveRead => m.read
  | .enclaveWrite => m.write

/-- Whether a mapping is about a linear page. -/
def covers (page : Nat) (m : Mapping) : Bool := decide (m.firstPage ≤ page ∧ page < m.firstPage + m.pages)

/-- `translate(lp, la, kind)` (spec/20_memory.md R55): the first mapping about the page decides (log 23). -/
def translate (p : Processor) (la : Word64) (k : AccessKind) : Translation :=
  match p.xlat.find? (covers (la.toNat / pageBytes)) with
  | none => .fault .notMapped
  | some m =>
    if permits m k then
      .phys (BitVec.ofNat 64
        ((m.firstFrame + (la.toNat / pageBytes - m.firstPage)) * pageBytes + la.toNat % pageBytes))
    else .fault .denied

/-! ### Reading an operand -/

/-- The parts of an operand of at most 4096 bytes that lie in one page each: linear address and number of bytes. -/
def operandPieces (m : Mode) (la : Word64) (n : Nat) : List (Word64 × Nat) :=
  let room := pageBytes - la.toNat % pageBytes
  if n ≤ room then [(la, n)] else [(la, room), (wrapAddress m (la + BitVec.ofNat 64 room), n - room)]

/-- The translations of the parts of a source-side operand (spec/20_memory.md R56: a non-enclave read). -/
def operandTranslations (p : Processor) (la : Word64) (n : Nat) : List (Translation × Nat) :=
  (operandPieces p.mode la n).map fun c => (translate p c.1 .nonEnclaveRead, c.2)

/-- Whether a translation lands in one of the regions. -/
def landsIn (rs : List Region) (t : Translation) : Bool :=
  match t with
  | .phys pa => inRegions rs (frameOf pa)
  | .fault _ => false

/-- Whether some part of an operand translates into the given regions. -/
def translatesInto (rs : List Region) (ts : List (Translation × Nat)) : Bool := ts.any fun t => landsIn rs t.1

/-- Why a source-side operand has no meaning where it lies (spec/20_memory.md R59, R63; log 18). -/
def placementRefusal (c : Config) (p : Processor) (la : Word64) (n : Nat) : Option Refusal :=
  if translatesInto c.epc (operandTranslations p la n) then some .operandInEpc
  else if translatesInto c.sideEffects (operandTranslations p la n) then some .operandHasSideEffects
  else none

/-- Why the first part that does not translate does not. -/
def firstPageFault (ts : List (Translation × Nat)) : Option PfCause :=
  match ts with
  | [] => none
  | (.fault cause, _) :: _ => some cause
  | (.phys _, _) :: t => firstPageFault t

/-- The bytes of the parts of an operand, the first part lowest. -/
def gather (m : Memory) (ts : List (Translation × Nat)) : Block :=
  match ts with
  | [] => 0
  | (.phys pa, n) :: t => m.load pa.toNat n ||| (gather m t <<< (8 * n))
  | (.fault _, n) :: t => gather m t <<< (8 * n)

/-- `MemRead(la, n)` (spec/00_scope.md R11): a page fault reports the first byte of the operand
(spec/60_exceptions.md R128; log 16). -/
def readOperand (c : Config) (p : Processor) (m : Memory) (la : Word64) (n : Nat) : Check Block :=
  match placementRefusal c p la n with
  | some r => .refuse r
  | none =>
    match firstPageFault (operandTranslations p la n) with
    | some cause => .raise (.pf la .nonEnclaveRead cause)
    | none => .ok (gather m (operandTranslations p la n))

/-! ### Stores of other agents: one total order, and reads at any moment of an instruction (R61, R64) -/

/-- Memory with those cells written, in order, that the choice function says. -/
def applyRacing (seen : Nat → Bool) (m : Memory) (cells : List Host.Cell) (i : Nat) : Memory :=
  match cells with
  | [] => m
  | c :: t => applyRacing seen (if seen i then m.write c.1 c.2 else m) t (i + 1)

/-- What the bytes that the first `n` cells name held, each just before it is written. -/
def overwritten (m : Memory) (cells : List Host.Cell) (n : Nat) : List Host.Cell :=
  match cells with
  | [] => []
  | c :: t =>
    match n with
    | 0 => []
    | n + 1 => (c.1, m.read c.1) :: overwritten (m.write c.1 c.2) t n

/-- The cells behind the first `n`. -/
def behind (cells : List Host.Cell) (n : Nat) : List Host.Cell :=
  match cells with
  | [] => []
  | c :: t =>
    match n with
    | 0 => c :: t
    | n + 1 => behind t n

/-- The window of processor `i`'s instruction, if it has started. -/
def State.window (s : State) (i : Nat) : Option Window := Assoc.read none s.windows i

/-- Opens, sets or closes the window of processor `i`. -/
def State.setWindow (s : State) (i : Nat) (w : Option Window) : State :=
  { s with windows := Assoc.write none s.windows i w }

/-- Every open window notes what was overwritten, and that `n` stores under way have landed. -/
def noteOverwritten (old : List Host.Cell) (n : Nat) (l : List (Nat × Option Window)) : List (Nat × Option Window) :=
  l.map fun c => (c.1, c.2.map fun w => { past := w.past ++ old, owed := w.owed - n })

/-- A byte of system software lands in ordinary memory. -/
def State.landByte (s : State) (a : Nat) (b : Byte) : State :=
  { s with mem := s.mem.write a b, windows := noteOverwritten [(a, s.mem.read a)] 0 s.windows }

/-- The `n` oldest stores under way land, one after the other. -/
def State.land (s : State) (n : Nat) : State :=
  { s with mem := applyRacing (fun i => decide (i < n)) s.mem s.racing 0, racing := behind s.racing n
           windows := noteOverwritten (overwritten s.mem s.racing n) n s.windows }

/-- What bytes held that were overwritten since the executing processor's instruction started. -/
def State.past (s : State) : List Host.Cell :=
  match s.window s.active with
  | none => []
  | some w => w.past

/-- How many of the oldest stores under way the executing processor's transition sees, or has seen, before they land: a FREE
VALUE, at least those its instruction has seen already. -/
def State.reach (s : State) : Nat :=
  min s.racing.length
    (match s.window s.active with
     | none => Config.raceReach s.freeIndex
     | some w => max w.owed (Config.raceReach s.freeIndex))

/-- Ordinary memory as access number `k` of the executing processor's transition sees it. Each byte is what it holds, what
it held at a moment since the instruction started, or what a store writes that lands before the instruction ends, freely
(spec/20_memory.md R61, U21; log 14). -/
def State.view (s : State) (k : Nat) : Memory :=
  applyRacing (fun i => decide (i < s.past.length + s.reach) && Config.raceSeen s.freeIndex k i) s.mem
    (s.past ++ s.racing) 0

/-- After a transition from `u` to `t`: inside the instruction its window is kept; where it has ended its window is closed,
and what it has seen lands before any other agent moves, so that no later instruction misses it (R64; log 14). -/
def settle (u t : State) : State :=
  match t.current with
  | none => t
  | some p =>
    match p.phase with
    | .ecreate _ => t.setWindow t.active (some { past := u.past, owed := u.reach })
    | .idle => (t.setWindow t.active none).land u.reach
    | .otherLeaf => t

end Sys2Proof.Machine
end

