-- ==== Sys2Proof/Machine/Operands.lean ====
section
/-! DEFINITION. The operand forms: `DS:off` from a register or from a PAGEINFO pointer, its segment or canonical check,
its alignment (spec/20_memory.md R48, R49, R52, R53; spec/10_state.md R17, R21). -/

namespace Sys2Proof.Machine

/-- EAX: the low 32 bits of RAX (spec/10_state.md R17). -/
def eax (p : Processor) : Word32 := p.rax.setWidth 32

/-- The effective address a register or a PAGEINFO pointer holds: 64 bits in `mode64`, the low 32 in `prot32` (R17, R48). -/
def effectiveAddress (p : Processor) (v : Word64) : Word64 := wrapAddress p.mode v

/-- `lin(lp, off) = ds_base + off` at the width of the mode; in `mode64` the base is 0 (R48, G8). -/
def linear (p : Processor) (off : Word64) : Word64 :=
  match p.mode with
  | .prot32 => wrapAddress .prot32 (p.ds.base.setWidth 64 + off)
  | .mode64 => off
  | .other => off

/-- `canonical`: bits 63 down to `LINEAR_ADDRESS_BITS - 1` are all equal (R49, D15). -/
def canonical (bits : Nat) (a : Word64) : Bool :=
  decide (a.toNat >>> (bits - 1) = 0 ∨ a.toNat >>> (bits - 1) = 2 ^ (65 - bits) - 1)

/-- The whole operand of `n` bytes is inside the DS segment limit (`prot32`) or canonical (`mode64`): its first and its
last byte are, which is the same for every byte of it (R49, D21, D33; Laws/Operands.lean proves it). -/
def insideLimits (c : Config) (p : Processor) (off : Word64) (n : Nat) : Bool :=
  match p.mode with
  | .prot32 => decide (off.toNat + n ≤ p.ds.limit.toNat + 1)
  | .mode64 => canonical c.linearAddressBits off && canonical c.linearAddressBits (off + BitVec.ofNat 64 (n - 1))
  | .other => false

/-- The linear address of an operand of `n` bytes that must be aligned on `align` bytes, or `#GP(0)`
(R49, R52, R53; spec/40_ecreate.md R83, R84, R87). No memory is read. -/
def checkedOperand (c : Config) (p : Processor) (v : Word64) (n align : Nat) : Check Word64 :=
  if insideLimits c p (effectiveAddress p v) n = false then .raise .gp0
  else if (linear p (effectiveAddress p v)).toNat % align ≠ 0 then .raise .gp0
  else .ok (linear p (effectiveAddress p v))

end Sys2Proof.Machine
end

