-- ==== Sys2Proof/Machine/Sha256.lean ====
section
/-! DEFINITION. `SHA256INITIALIZE` and `SHA256UPDATE` (spec/40_ecreate.md R112, R115): the initial hash value and one
application of the SHA-256 compression function, without padding (PRESUMED, G17, D20; log 24). -/

namespace Sys2Proof.Machine

/-- `SHA256INITIALIZE`. -/
def sha256Init : Sha256State :=
  { a := 0x6A09E667, b := 0xBB67AE85, c := 0x3C6EF372, d := 0xA54FF53A
    e := 0x510E527F, f := 0x9B05688C, g := 0x1F83D9AB, h := 0x5BE0CD19 }

/-- The 64 round constants of G17. -/
def sha256K : List Word32 :=
  [0x428A2F98, 0x71374491, 0xB5C0FBCF, 0xE9B5DBA5, 0x3956C25B, 0x59F111F1, 0x923F82A4, 0xAB1C5ED5] ++
  [0xD807AA98, 0x12835B01, 0x243185BE, 0x550C7DC3, 0x72BE5D74, 0x80DEB1FE, 0x9BDC06A7, 0xC19BF174] ++
  [0xE49B69C1, 0xEFBE4786, 0x0FC19DC6, 0x240CA1CC, 0x2DE92C6F, 0x4A7484AA, 0x5CB0A9DC, 0x76F988DA] ++
  [0x983E5152, 0xA831C66D, 0xB00327C8, 0xBF597FC7, 0xC6E00BF3, 0xD5A79147, 0x06CA6351, 0x14292967] ++
  [0x27B70A85, 0x2E1B2138, 0x4D2C6DFC, 0x53380D13, 0x650A7354, 0x766A0ABB, 0x81C2C92E, 0x92722C85] ++
  [0xA2BFE8A1, 0xA81A664B, 0xC24B8B70, 0xC76C51A3, 0xD192E819, 0xD6990624, 0xF40E3585, 0x106AA070] ++
  [0x19A4C116, 0x1E376C08, 0x2748774C, 0x34B0BCB5, 0x391C0CB3, 0x4ED8AA4A, 0x5B9CCA4F, 0x682E6FF3] ++
  [0x748F82EE, 0x78A5636F, 0x84C87814, 0x8CC70208, 0x90BEFFFA, 0xA4506CEB, 0xBEF9A3F7, 0xC67178F2]

/-- `Ch(x,y,z)`. -/
def shaCh (x y z : Word32) : Word32 := (x &&& y) ^^^ (~~~x &&& z)

/-- `Maj(x,y,z)`. -/
def shaMaj (x y z : Word32) : Word32 := (x &&& y) ^^^ (x &&& z) ^^^ (y &&& z)

/-- `S0(x)`. -/
def shaBigSigma0 (x : Word32) : Word32 := x.rotateRight 2 ^^^ x.rotateRight 13 ^^^ x.rotateRight 22

/-- `S1(x)`. -/
def shaBigSigma1 (x : Word32) : Word32 := x.rotateRight 6 ^^^ x.rotateRight 11 ^^^ x.rotateRight 25

/-- `s0(x)`. -/
def shaSigma0 (x : Word32) : Word32 := x.rotateRight 7 ^^^ x.rotateRight 18 ^^^ (x >>> 3)

/-- `s1(x)`. -/
def shaSigma1 (x : Word32) : Word32 := x.rotateRight 17 ^^^ x.rotateRight 19 ^^^ (x >>> 10)

/-- `W[t]` for t = 16 to 63, from the sixteen words before it, oldest first. -/
def shaNextWord (w : List Word32) : Word32 :=
  shaSigma1 (w.getD 14 0) + w.getD 9 0 + shaSigma0 (w.getD 1 0) + w.getD 0 0

/-- The words `W[0..n-1]` (`acc` holds those made so far). -/
def shaSchedule (n : Nat) (acc : List Word32) : List Word32 :=
  match n with
  | 0 => acc
  | k + 1 => shaSchedule k (acc ++ [shaNextWord (acc.drop (acc.length - 16))])

/-- One round with constant `k` and schedule word `w`. -/
def shaRound (s : Sha256State) (k w : Word32) : Sha256State :=
  let t1 := s.h + shaBigSigma1 s.e + shaCh s.e s.f s.g + k + w
  let t2 := shaBigSigma0 s.a + shaMaj s.a s.b s.c
  { a := t1 + t2, b := s.a, c := s.b, d := s.c, e := s.d + t1, f := s.e, g := s.f, h := s.g }

/-- Byte i of a 512-bit buffer: bits 8i+7:8i (spec/40_ecreate.md R115). -/
def bufferByte (t : BitVec 512) (i : Nat) : Byte := BitVec.ofNat 8 (t.toNat >>> (8 * i))

/-- The sixteen big-endian words of a 64-byte buffer (G17). -/
def bufferWords (t : BitVec 512) : List Word32 :=
  (List.range 16).map fun i =>
    bufferByte t (4 * i) ++ bufferByte t (4 * i + 1) ++ bufferByte t (4 * i + 2) ++ bufferByte t (4 * i + 3)

/-- `SHA256UPDATE(state, buffer)`: one compression, no padding (D20). -/
def sha256Compress (s : Sha256State) (t : BitVec 512) : Sha256State :=
  let v := (sha256K.zip (shaSchedule 48 (bufferWords t))).foldl (fun v kw => shaRound v kw.1 kw.2) s
  { a := s.a + v.a, b := s.b + v.b, c := s.c + v.c, d := s.d + v.d
    e := s.e + v.e, f := s.f + v.f, g := s.g + v.g, h := s.h + v.h }

/-- `TMPUPDATEFIELD`: the string, SSAFRAMESIZE, SIZE, zeros (spec/40_ecreate.md R115). -/
def updateField (ssaframesize : Word32) (size : Word64) : BitVec 512 :=
  (0 : BitVec 352) ++ size ++ ssaframesize ++ (0x0045544145524345 : Word64)

/-- MRENCLAVE as ECREATE leaves it: initialised, then updated once (R112, R115). -/
def ecreateMeasurement (ssaframesize : Word32) (size : Word64) : Sha256State :=
  sha256Compress sha256Init (updateField ssaframesize size)

/-- The 32 bytes of a SHA-256 state as one number, the first word most significant. -/
def shaBytes (s : Sha256State) : BitVec 256 := s.a ++ s.b ++ s.c ++ s.d ++ s.e ++ s.f ++ s.g ++ s.h

/-- The value of the MRENCLAVE field for a state, byte j of it being the byte the configuration names (U22, log 25). -/
def mrenclaveImage (order : List Nat) (s : Sha256State) : Nat :=
  order.foldr (fun i acc => acc * 256 + ((shaBytes s).toNat >>> (8 * (31 - i))) % 256) 0

end Sys2Proof.Machine
end

