-- ==== Sys2Proof/Machine/Secs.lean ====
section
/-! DEFINITION. What ECREATE checks of the copied SECS, and what it writes into it (spec/40_ecreate.md R96 to R118). -/

namespace Sys2Proof.Machine

/-! ### Fields -/

/-- `S.SIZE`. -/
def secsSize (c : Config) (s : Block) : Nat := getField s c.secs.size

/-- `S.BASEADDR`. -/
def secsBase (c : Config) (s : Block) : Word64 := BitVec.ofNat 64 (getField s c.secs.baseaddr)

/-- `S.SSAFRAMESIZE`. -/
def secsSsaframesize (c : Config) (s : Block) : Nat := getField s c.secs.ssaframesize

/-- `S.MISCSELECT`. -/
def secsMiscselect (c : Config) (s : Block) : Nat := getField s c.secs.miscselect

/-- `S.ATTRIBUTES`. -/
def secsAttributes (c : Config) (s : Block) : Nat := getField s c.secs.attributes

/-- `S.ATTRIBUTES.XFRM`. -/
def secsXfrm (c : Config) (s : Block) : Nat := fieldOf (secsAttributes c s) c.attributes.xfrm

/-- `S.ATTRIBUTES.MODE64BIT`. -/
def secsMode64bit (c : Config) (s : Block) : Nat := fieldOf (secsAttributes c s) c.attributes.mode64bit

/-- `S.ATTRIBUTES.KSS`. -/
def secsKss (c : Config) (s : Block) : Nat := fieldOf (secsAttributes c s) c.attributes.kss

/-- `popcnt` of a 64-bit value (spec/00_scope.md R9). -/
def popcnt (v : Nat) : Nat := (List.range 64).countP fun i => v.testBit i

/-- `TMP_XSIZE` (spec/40_ecreate.md R99, R100). -/
def ssaFrameNeeded (c : Config) (s : Block) : Nat :=
  tableAt c.xsaveSize (secsXfrm c s) + c.gprSize + tableAt c.miscSize (secsMiscselect c s)

/-! ### The checks -/

/-- The content checks, named after the rule each transcribes. -/
inductive SecsCheck where
  | xfrmLowBits | xfrmLegal | miscselect | ssaframesize | baseCanonical | base32 | size32 | size64 | sizeShape
  | baseAligned | attributesMask | reserved | configNeedsKss
  deriving DecidableEq, Repr

/-- Whether a check ends the instruction with `#GP(0)`. -/
def secsCheckFails (c : Config) (s : Block) (k : SecsCheck) : Bool :=
  match k with
  -- R96
  | .xfrmLowBits => decide (secsXfrm c s &&& 3 ≠ 3)
  -- R97
  | .xfrmLegal => !(c.xfrmLegal.contains (secsXfrm c s))
  -- R98: the comment's reading, and the listing's own line where the configuration asks for it too (D7, log 26)
  | .miscselect =>
    decide ((BitVec.ofNat 32 (secsMiscselect c s) &&& ~~~c.cpuidEbx) ≠ 0) ||
      (c.miscselectLiteral && decide ((c.cpuidEbx &&& BitVec.ofNat 32 (secsMiscselect c s)) = 0))
  -- R101
  | .ssaframesize => decide (secsSsaframesize c s * 4096 < ssaFrameNeeded c s)
  -- R102
  | .baseCanonical => decide (secsMode64bit c s = 1) && !canonical c.linearAddressBits (secsBase c s)
  -- R103
  | .base32 => decide (secsMode64bit c s = 0 ∧ (secsBase c s &&& 0xFFFFFFFF00000000) ≠ 0)
  -- R104
  | .size32 => decide (secsMode64bit c s = 0 ∧ 2 ^ c.cpuidEdx7_0.toNat ≤ secsSize c s)
  -- R105
  | .size64 => decide (secsMode64bit c s = 1 ∧ 2 ^ c.cpuidEdx15_8.toNat ≤ secsSize c s)
  -- R106
  | .sizeShape => decide (secsSize c s < 8192 ∨ 1 < popcnt (secsSize c s))
  -- R107
  | .baseAligned => decide ((secsBase c s &&& BitVec.ofNat 64 (secsSize c s - 1)) ≠ 0)
  -- R108
  | .attributesMask =>
    decide ((BitVec.ofNat c.secs.attributes.len (secsAttributes c s) &&&
      ~~~(BitVec.ofNat c.secs.attributes.len c.attributesMask)) ≠ 0)
  -- R109
  | .reserved => decide ((s &&& c.secs.reserved) ≠ 0)
  -- R110
  | .configNeedsKss =>
    decide ((getField s c.secs.configid ≠ 0 ∨ getField s c.secs.configsvn ≠ 0) ∧ secsKss c s = 0)

/-- The checks in the order of the operation (spec/40_ecreate.md R82). -/
def secsChecks : List SecsCheck :=
  [.xfrmLowBits, .xfrmLegal, .miscselect, .ssaframesize, .baseCanonical, .base32, .size32, .size64, .sizeShape,
   .baseAligned, .attributesMask, .reserved, .configNeedsKss]

/-- The first check that fails. -/
def firstFailure (c : Config) (s : Block) : Option SecsCheck := secsChecks.find? (secsCheckFails c s)

/-! ### The initialisation -/

/-- R111: the bit of ATTRIBUTES that records initialisation, where the layout has one, is written 0; no copied field is
cleared (D9, log 27). -/
def clearInitialized (c : Config) (s : Block) : Block :=
  match c.attributes.init with
  | none => s
  | some f => setField s (subField c.secs.attributes f) 0

/-- MRENCLAVE of a created SECS (R112, R115): SSAFRAMESIZE and SIZE of the copy enter it. -/
def secsMeasurement (c : Config) (s : Block) : Sha256State :=
  ecreateMeasurement (BitVec.ofNat 32 (secsSsaframesize c s)) (BitVec.ofNat 64 (secsSize c s))

/-- The bytes of the page after R111 to R118: `eid` is the identifier, `ctx` the address paging gave. -/
def initializedSecs (c : Config) (s : Block) (eid ctx : Word64) : Block :=
  let s1 := clearInitialized c s
  let s2 := setField s1 c.secs.mrenclave (mrenclaveImage c.mrenclaveOrder (secsMeasurement c s))
  let s3 := setField s2 c.secs.isvsvn 0
  let s4 := setField s3 c.secs.isvprodid 0
  let s5 := setField s4 c.secs.eid eid.toNat
  let s6 := setField s5 c.secs.virtchildcnt 0
  setField s6 c.secs.enclavecontext ctx.toNat

/-- The hidden state of the page after R111, R112, R114, R115: not initialized, the running hash, the counter
initialised to 0 and incremented once (D34, log 35). -/
def initializedHidden (c : Config) (s : Block) : SecsHidden :=
  { updateCounter := 0 + 1, initialized := false, mrenclave := secsMeasurement c s }

end Sys2Proof.Machine
end

