-- ==== Sys2Proof/Machine/Ecreate.lean ====
section
/-! DEFINITION. `ENCLS[ECREATE]` (spec/40_ecreate.md R81 to R123), in its two transitions `ECREATE.acquire` and
`ECREATE.commit` (spec/20_memory.md R68; log 12). -/

namespace Sys2Proof.Machine

/-! ### Launch premises (spec/70_reset_and_hazards.md R149) -/

/-- What `encls_permitted` looks at. -/
def standing (p : Processor) : Standing :=
  { mode := p.mode, cpl := p.cpl, sgxEnabled := p.sgxEnabled, enclsExiting := p.enclsExiting
    vmxNonRoot := p.vmxNonRoot, enableEpcVirtExt := p.enableEpcVirtExt }

/-- P1: `encls_permitted(lp)`, the configuration's, on a processor with SGX1 (D14; log 19). -/
def enclsPermitted (c : Config) (p : Processor) : Bool := c.sgx1 && c.permitted.contains (standing p)

/-- P1 to P3, and the modes and the DS segment the spec admits (D3, D33; log 20). -/
def processorRefusal (c : Config) (p : Processor) : Option Refusal :=
  if configWf c = false then some .configNotWellFormed
  else if p.mode = .other then some .modeNotAdmitted
  else if enclsPermitted c p = false then some .enclsNotPermitted
  else if eax p ≠ 0 then some .leafNotInSpec
  else if p.mode = .prot32 ∧ (p.ds.usable = false ∨ p.ds.expandDown = true) then some .dsNotUsable
  else none

/-- Whether agent `a` is executing a leaf that may hold the entry of a page: another SGX leaf, or an ECREATE on that very
page, which locks no other entry (spec/20_memory.md R66; log 41). -/
def State.leafOn (s : State) (page a : Nat) : Bool :=
  match s.procs[a]? with
  | none => false
  | some p =>
    match p.phase with
    | .idle => false
    | .ecreate t => decide (t.page = page)
    | .otherLeaf => true

/-- Whether the lock of a page's entry is free, or held, and only by agents that execute a leaf. -/
def State.lockHonest (s : State) (page : Nat) : Bool :=
  match (s.entry page).lock with
  | .free => true
  | .held hs => !hs.isEmpty && hs.all (s.leafOn page)

/-- P4: every EPCM lock is. An entry no list names is free. -/
def State.locksHonest (s : State) : Bool := s.epcm.all fun c => !s.inEpc c.1 || s.lockHonest c.1

/-- The effective address a pointer field of PAGEINFO holds. -/
def pointerOf (pageinfo : Block) (f : Field) : Word64 := BitVec.ofNat 64 (getField pageinfo f)

/-- P5: PAGEINFO, and where it can be read the source page and SECINFO it points to, lie where they have a meaning,
whatever else holds of them (spec/20_memory.md R59, R63; log 18). -/
def placementPremise (s : State) (p : Processor) : Option Refusal :=
  match readOperand s.cfg p (s.view 0) (linear p (effectiveAddress p p.rbx)) s.cfg.pageinfo.size with
  | .refuse r => some r
  | .raise _ => none
  | .ok pageinfo =>
    (placementRefusal s.cfg p (linear p (effectiveAddress p (pointerOf pageinfo s.cfg.pageinfo.srcpge))) pageBytes).or
      (placementRefusal s.cfg p (linear p (effectiveAddress p (pointerOf pageinfo s.cfg.pageinfo.secinfo)))
        s.cfg.secinfo.size)

/-- Why an invocation is outside the admitted subset (spec/00_scope.md R12), before any check of the operation. -/
def launchRefusal (s : State) (p : Processor) : Option Refusal :=
  match processorRefusal s.cfg p with
  | some r => some r
  | none => if s.locksHonest = false then some .lockWithoutHolder else placementPremise s p

/-! ### ECREATE.acquire -/

/-- R85: the destination resolves within an EPC; answers what paging gives for it. -/
def resolveDestination (c : Config) (p : Processor) (laSecs : Word64) : Check Word64 :=
  match translate p laSecs .enclaveWrite with
  | .fault cause => .raise (.pf laSecs .enclaveWrite cause)
  | .phys pa =>
    if inRegions c.epc (frameOf pa) = false then .raise (.pf laSecs .enclaveWrite .notEpc)
    else .ok pa

/-- R86, R87: the two pointers of PAGEINFO, checked; answers `la_src` and `la_si`. -/
def pageinfoPointers (c : Config) (p : Processor) (pageinfo : Block) : Check (Word64 × Word64) :=
  (checkedOperand c p (pointerOf pageinfo c.pageinfo.srcpge) pageBytes pageBytes).bind fun laSrc =>
  (checkedOperand c p (pointerOf pageinfo c.pageinfo.secinfo) c.secinfo.size 64).bind fun laSi =>
  .ok (laSrc, laSi)

/-- R88: the unused fields of PAGEINFO are zero, over their whole width (D3). -/
def checkUnusedPageinfo (c : Config) (pageinfo : Block) : Check Unit :=
  if getField pageinfo c.pageinfo.linaddr ≠ 0 ∨ getField pageinfo c.pageinfo.secs ≠ 0 then .raise .gp0 else .ok ()

/-- R89: the reserved bits of SECINFO are zero and FLAGS.PT is PT_SECS. -/
def checkSecinfo (c : Config) (secinfo : Block) : Check Unit :=
  if (secinfo &&& c.secinfo.reserved) ≠ 0 ∨ getField secinfo (subField c.secinfo.flags c.secinfo.pt) ≠ c.ptSecs then
    .raise .gp0
  else .ok ()

/-- R83 to R90 in order, on the processor `p`; answers the temporaries. PAGEINFO is one read of its whole size, at R86 (R60
allows one access or four; log 17). -/
def acquireChecks (s : State) (p : Processor) : Check Ticket :=
  (checkedOperand s.cfg p p.rbx s.cfg.pageinfo.size 32).bind fun laPi =>
  (checkedOperand s.cfg p p.rcx pageBytes pageBytes).bind fun laSecs =>
  (resolveDestination s.cfg p laSecs).bind fun pa =>
  (readOperand s.cfg p (s.view 0) laPi s.cfg.pageinfo.size).bind fun pageinfo =>
  (pageinfoPointers s.cfg p pageinfo).bind fun ptrs =>
  (checkUnusedPageinfo s.cfg pageinfo).bind fun _ =>
  (readOperand s.cfg p (s.view 1) ptrs.2 s.cfg.secinfo.size).bind fun secinfo =>
  (checkSecinfo s.cfg secinfo).bind fun _ =>
  .ok { laSecs := laSecs, phys := pa, page := frameOf pa, laSrc := ptrs.1 }

/-- R91, the conflict: a VM exit under both virtualisation conditions, else `#GP(0)` (spec/60_exceptions.md R131). -/
def conflictEvent (p : Processor) (t : Ticket) : Event :=
  if p.vmxNonRoot && p.enableEpcVirtExt then
    .vmExit { exitReason := .sgxConflict, qualCode := .epcPageConflictException, qualError := 0
              guestPhysical := t.phys, guestLinear := t.laSecs }
  else .gp0

/-- R91: the entry is taken exclusively, or it is in use. -/
def acquireEntry (s : State) (p : Processor) (t : Ticket) : State :=
  match (s.entry t.page).lock with
  | .free => (s.setLock t.page (.held [s.active])).setCurrent { p with phase := .ecreate t }
  | .held _ => s.takeEvent p (conflictEvent p t)

/-- `ECREATE.acquire`: R83 to R91. -/
def ecreateAcquire (s : State) (p : Processor) : Host.Outcome State Fault Refusal :=
  match launchRefusal s p with
  | some r => .refused r
  | none =>
    match acquireChecks s p with
    | .refuse r => .refused r
    | .raise e => .next (s.tick.takeEvent p e)
    | .ok t => .next (acquireEntry s.tick p t)

/-! ### ECREATE.commit -/

/-- R119, R120, R121: the entry of a created SECS page, its lock released. -/
def createdEntry (c : Config) : EpcmEntry :=
  { valid := true, pt := c.ptSecs, enclaveAddress := 0, r := false, w := false, x := false, blocked := false
    pending := false, modified := false, pr := false, lock := .free }

/-- R122: the instruction pointer moves past the ENCLS, by the length of `ENCLS_OPCODE` (spec/10_state.md R18); registers and
flags are what they were. -/
def completedProcessor (c : Config) (p : Processor) : Processor :=
  { p with pc := wrapAddress p.mode (p.pc + BitVec.ofNat 64 c.enclsOpcode.length), rflags := flagsAfter p.rflags
           phase := .idle, event := none }

/-- R111 to R122, on the copy `b` the EPC page holds: the SECS is initialised, the identifier is the old value of
`CR_NEXT_EID`, the entry is marked valid and free, the instruction completes. -/
def completeEcreate (s : State) (p : Processor) (t : Ticket) (b : Block) : State :=
  ({ ((s.setPage t.page (initializedSecs s.cfg b s.nextEid t.phys)).setHidden t.page (initializedHidden s.cfg b)) with
      nextEid := s.nextEid + 1 }.setEntry t.page (createdEntry s.cfg)).setCurrent (completedProcessor s.cfg p)

/-- R96 to R123, after the copy: the first failing check ends the instruction, else it completes. -/
def validateAndComplete (s : State) (p : Processor) (t : Ticket) : State :=
  match firstFailure s.cfg (s.page t.page) with
  | some _ => (s.scramble t.page).releaseAndTake p t.page .gp0
  | none => completeEcreate s p t (s.page t.page)

/-- `ECREATE.commit`: R93 to R122 (R92 can never hold and is left out, D27). -/
def ecreateCommit (s : State) (p : Processor) (t : Ticket) : Host.Outcome State Fault Refusal :=
  if (s.entry t.page).valid then
    .next (s.tick.releaseAndTake p t.page (.pf t.laSecs .enclaveWrite .epcmValid))
  else
    match readOperand s.cfg p (s.view 2) t.laSrc pageBytes with
    | .refuse r => .refused r
    | .raise e => .next (s.tick.releaseAndTake p t.page e)
    | .ok b => .next (validateAndComplete (s.tick.setPage t.page b) p t)

/-- `ENCLS[ECREATE]`: the executing processor takes its next transition of it (spec/20_memory.md R68). -/
def execEnclsEcreate (s : State) : Host.Outcome State Fault Refusal :=
  match s.current with
  | none => .refused .noSuchProcessor
  | some p =>
    match p.phase with
    | .idle => ecreateAcquire s p
    | .ecreate t => ecreateCommit s p t
    | .otherLeaf => .refused .insideOtherLeaf

end Sys2Proof.Machine
end

