-- ==== Sys2Proof/Machine/Environment.lean ====
section
/-! DEFINITION. The agents other than a processor executing ECREATE: holders of EPCM entries and system software
(spec/00_scope.md R6, spec/20_memory.md R61, R64, R68, spec/70_reset_and_hazards.md R150, R151, R156; logs 13, 14, 44). -/

namespace Sys2Proof.Machine

/-- Whether some processor is between the two transitions of an ECREATE on this page, which then has the entry for
itself (spec/20_memory.md R66, R68). -/
def State.ecreateOn (s : State) (page : Nat) : Bool :=
  s.procs.any fun p =>
    match p.phase with
    | .idle => false
    | .ecreate t => decide (t.page = page)
    | .otherLeaf => false

/-- The lock after agent `a` joins its holders. -/
def joinHolders (l : EntryLock) (a : Nat) : EntryLock :=
  match l with
  | .free => .held [a]
  | .held hs => .held (if a ∈ hs then hs else hs ++ [a])

/-- The lock after agent `a` leaves its holders. -/
def leaveHolders (l : EntryLock) (a : Nat) : EntryLock :=
  match l with
  | .free => .free
  | .held hs => if hs.filter (fun h => decide (h ≠ a)) = [] then .free else .held (hs.filter fun h => decide (h ≠ a))

/-- Whether processor `i` is inside another SGX leaf function. -/
def State.inOtherLeaf (s : State) (i : Nat) : Bool :=
  match s.procs[i]? with
  | none => false
  | some p => decide (p.phase = .otherLeaf)

/-- Processor `i`, inside another leaf, acts on an entry's lock; an entry an ECREATE has is found in use, and nothing
changes (spec/20_memory.md R66, R68). -/
def entryMove (s : State) (page i : Nat) (f : EntryLock → EntryLock) : Host.Outcome State Fault Refusal :=
  if s.inEpc page = false then .refused .noEpcmEntry
  else if s.inOtherLeaf i = false then .refused .notInOtherLeaf
  else if s.ecreateOn page then .next s
  else .next (s.setLock page (f (s.entry page).lock))

/-- A processor that is between instructions, its next one not started, makes the move `f`. -/
def betweenInstructions (s : State) (i : Nat) (f : Processor → State) : Host.Outcome State Fault Refusal :=
  match s.procs[i]? with
  | none => .refused .noSuchProcessor
  | some p =>
    match p.phase with
    | .idle => if s.window i = none then .next (f p) else .refused .insideInstruction
    | .ecreate _ => .refused .insideInstruction
    | .otherLeaf => .refused .insideInstruction

/-- The next instruction of processor `i` starts; one whose last ECREATE ended in an event starts none (R136). -/
def startOn (s : State) (i : Nat) (p : Processor) : State :=
  match p.event with
  | none => s.setWindow i (some { past := [], owed := 0 })
  | some _ => s

/-- Processor `i` ends its other leaf. -/
def leafEnd (s : State) (i : Nat) : Host.Outcome State Fault Refusal :=
  match s.procs[i]? with
  | none => .refused .notInOtherLeaf
  | some p =>
    if p.phase ≠ .otherLeaf then .refused .notInOtherLeaf
    else if s.holdsEntry i then .refused .leafHoldsEntry
    else .next (s.setProc i { p with phase := .idle })

/-- Whether a byte is in ordinary memory: not in the EPC, not in memory with side effects (spec/10_state.md R22, R63). -/
def State.ordinary (s : State) (a : Word64) : Bool :=
  !(inRegions s.cfg.epc (frameOf a)) && !(inRegions s.cfg.sideEffects (frameOf a))

/-- A store of system software lands. From which processor it comes is not looked at: DESIGN CHOICE, the spec leaves open
which ones may store and when (spec/00_scope.md R6 c, spec/70_reset_and_hazards.md R151; log 44). -/
def softwareStore (s : State) (a : Word64) (b : Byte) : Host.Outcome State Fault Refusal :=
  if s.ordinary a then .next (s.landByte a.toNat b) else .refused .storeOutsideOrdinary

/-- A store of system software is under way (spec/20_memory.md R61); it too comes from no named processor (log 44). -/
def softwareStoreBegin (s : State) (a : Word64) (b : Byte) : Host.Outcome State Fault Refusal :=
  if s.ordinary a then .next { s with racing := s.racing ++ [(a.toNat, b)] } else .refused .storeOutsideOrdinary

/-- The move of another agent. The moves of a leaf and of software on a processor name it and look at its phase; the three
of stores name none and are open at every turn (DESIGN CHOICE, log 44). -/
def agentMove (s : State) (m : Move) : Host.Outcome State Fault Refusal :=
  match m with
  | .leafBegin i => betweenInstructions s i fun p => s.setProc i { p with phase := .otherLeaf }
  | .hold page i => entryMove s page i fun l => joinHolders l i
  | .unhold page i => entryMove s page i fun l => leaveHolders l i
  | .leafEnd i => leafEnd s i
  | .start i => betweenInstructions s i (startOn s i)
  | .software i q => betweenInstructions s i fun _ => s.setProc i { q with phase := .idle }
  | .resume i => betweenInstructions s i fun p => s.setProc i (returned p)
  | .store a b => softwareStore s a b
  | .storeBegin a b => softwareStoreBegin s a b
  | .storesLand n => .next (s.land n)

end Sys2Proof.Machine
end

