-- ==== Sys2Proof/Machine/Fetch.lean ====
section
/-! DEFINITION. Where an instruction comes from. Fetch and decode of bytes is a PARAMETER of the model (spec/00_scope.md R7,
spec/30_encoding.md R73): a `Fetch`, which Schedule.lean takes as an argument. `fetchInstr` is the one that `step` uses: it
reads the bytes at the instruction pointer, a linear address, as a non-enclave read (DESIGN CHOICE, log 2). -/

namespace Sys2Proof.Machine

/-- Fetch and decode: the invocation a processor executes next, or why it has none (spec/00_scope.md R7). -/
abbrev Fetch := State → Processor → Except Refusal Instr

/-- The linear address of the byte `k` bytes behind the instruction pointer. -/
def fetchAddress (p : Processor) (k : Nat) : Word64 := wrapAddress p.mode (p.pc + BitVec.ofNat 64 k)

/-- The bytes at the instruction pointer, as many as ENCLS has. -/
def fetchBytes (s : State) (p : Processor) : Check (List Byte) :=
  (readOperand s.cfg p s.mem (fetchAddress p 0) s.cfg.enclsOpcode.length).bind fun b =>
    .ok ((List.range s.cfg.enclsOpcode.length).map (blockByte b))

/-- The instruction at the instruction pointer, or why there is none. -/
def fetchInstr (s : State) (p : Processor) : Except Refusal Instr :=
  match fetchBytes s p with
  | .raise _ => .error .fetchNotReadable
  | .refuse _ => .error .fetchNotReadable
  | .ok bytes =>
    match decode s.cfg.enclsOpcode bytes with
    | .ok (i, _) => .ok i
    | .error _ => .error .notEncls

/-- Stores bytes where the fetch will read them, one after the other; a byte the fetch could not read is not stored. -/
def placeBytes (p : Processor) (m : Memory) (k : Nat) (bytes : List Byte) : Memory :=
  match bytes with
  | [] => m
  | b :: t =>
    match translate p (fetchAddress p k) .nonEnclaveRead with
    | .phys pa => placeBytes p (m.write pa.toNat b) (k + 1) t
    | .fault _ => placeBytes p m (k + 1) t

/-- The state with the bytes at the instruction pointer of the active processor, that processor ready to fetch, and no
turn of another agent before it (log 36). -/
def State.withFetchBytes (s : State) (bytes : List Byte) : State :=
  match s.current with
  | none => s
  | some p =>
    { s.setCurrent { p with phase := .idle, event := none } with
        mem := placeBytes p s.mem 0 bytes, turns := [], windows := Assoc.write none s.windows s.active none }

end Sys2Proof.Machine
end

