-- ==== Sys2Proof/Machine/Schedule.lean ====
section
/-! DEFINITION. Whose move is next, over the DECODED invocation: fetch and decode of bytes is the parameter `fetch`
(spec/00_scope.md R7, D2). -/

namespace Sys2Proof.Machine

/-- What `exec` answered from `u`, with the instruction's window kept or closed (spec/20_memory.md R61, R64; log 14). -/
def settled (u : State) (o : Host.Outcome State Fault Refusal) : Host.Outcome State Fault Refusal :=
  match o with
  | .next t => .next (settle u t)
  | .fault f => .fault f
  | .refused r => .refused r

/-- The active processor moves: it goes on with the ECREATE it is inside, or executes the invocation `fetch` gives it; after
an exception or a VM exit it has no further step (spec/60_exceptions.md R136, D12), and inside another leaf none that the
spec gives (spec/00_scope.md R5). -/
def processorMove (fetch : Fetch) (s : State) : Host.Outcome State Fault Refusal :=
  match s.current with
  | none => .refused .noSuchProcessor
  | some p =>
    match p.event with
    | some _ => .fault .outcomeTerminal
    | none =>
      match p.phase with
      | .ecreate _ => settled s (exec .enclsEcreate s)
      | .otherLeaf => .refused .insideOtherLeaf
      | .idle =>
        match fetch s p with
        | .error r => .refused r
        | .ok i => settled s (exec i s)

/-- One step: the oldest pending turn, or the active processor when none is pending (spec/20_memory.md R64, R68; log 12). -/
def stepWith (fetch : Fetch) (s : State) : Host.Outcome State Fault Refusal :=
  match s.turns with
  | [] => processorMove fetch s
  | .processor i :: rest => processorMove fetch { s with active := i, turns := rest }
  | .agent m :: rest => agentMove { s with turns := rest } m

end Sys2Proof.Machine
end

