-- ==== Sys2Proof/Machine/Step.lean ====
section
/-! DEFINITION. One step of the machine: the agent whose turn it is moves, with the model's own fetch (logs 2, 12). -/

namespace Sys2Proof.Machine

/-- One step (spec/00_scope.md R7: the relation over the decoded invocation is `stepWith`). -/
def step (s : State) : Host.Outcome State Fault Refusal := stepWith fetchInstr s

/-- The state with an instruction word stored where the next step fetches it (log 36). -/
def State.withFetchWord (s : State) (nbits w : Nat) : State := s.withFetchBytes (tableBytes nbits w)

end Sys2Proof.Machine
end

