-- ==== Sys2Proof/Safety.lean ====
section
/-! DEFINITION. The terms the claims use: when an ECREATE is admitted, when its operands are well placed, which SECS
passes, what a transition leaves alone, and what a well-kept machine is. Conditions are written out from the rules, not by
the functions the meaning calls. -/

namespace Sys2Proof.Machine

/-! ### When ECREATE runs -/

/-- An operand of `n` bytes whose effective address the 64-bit value `v` holds is inside the limits and aligned
(spec/20_memory.md R49, R52, R53). -/
def OperandOk (c : Config) (p : Processor) (v : Word64) (n align : Nat) : Prop :=
  insideLimits c p (effectiveAddress p v) n = true ∧ (linear p (effectiveAddress p v)).toNat % align = 0

/-- `DS:RBX`. -/
def laPageinfo (p : Processor) : Word64 := linear p (effectiveAddress p p.rbx)

/-- `DS:RCX`. -/
def laDestination (p : Processor) : Word64 := linear p (effectiveAddress p p.rcx)

/-- The SRCPGE field of a PAGEINFO. -/
def srcpgeOf (c : Config) (pageinfo : Block) : Word64 := BitVec.ofNat 64 (getField pageinfo c.pageinfo.srcpge)

/-- The SECINFO field of a PAGEINFO. -/
def secinfoOf (c : Config) (pageinfo : Block) : Word64 := BitVec.ofNat 64 (getField pageinfo c.pageinfo.secinfo)

/-- Some byte of an operand of `n` bytes at `la` translates, for a non-enclave read, into one of the regions
(spec/20_memory.md R59, R63). -/
def TouchesRegion (rs : List Region) (p : Processor) (la : Word64) (n : Nat) : Prop :=
  ∃ k pa, k < n ∧ translate p (wrapAddress p.mode (la + BitVec.ofNat 64 k)) .nonEnclaveRead = .phys pa ∧
    inRegions rs (frameOf pa) = true

/-- No byte of an operand of `n` bytes at `la` translates into the EPC or into memory with read side effects. -/
def Placed (c : Config) (p : Processor) (la : Word64) (n : Nat) : Prop :=
  ¬ TouchesRegion c.epc p la n ∧ ¬ TouchesRegion c.sideEffects p la n

/-- P1, P2, P3 (spec/70_reset_and_hazards.md R149), with the mode and the DS segment the spec admits (D3, D33): the
executing processor is between instructions, the configuration is well formed, `encls_permitted` holds, and EAX is 0. -/
def Launchable (s : State) (p : Processor) : Prop :=
  s.current = some p ∧ p.phase = .idle ∧ configWf s.cfg = true ∧ (p.mode = .prot32 ∨ p.mode = .mode64) ∧
    (s.cfg.sgx1 = true ∧ standing p ∈ s.cfg.permitted) ∧ p.rax.setWidth 32 = (0 : Word32) ∧
    (p.mode = .prot32 → p.ds.usable = true ∧ p.ds.expandDown = false)

/-- P4 (spec/70_reset_and_hazards.md R149): every EPCM lock is free, or held by agents that are executing a leaf. An agent
inside an ECREATE is executing one on its own page, and on no other (log 41). -/
def State.LocksHeld (s : State) : Prop :=
  ∀ n, s.inEpc n = true →
    (s.entry n).lock = .free ∨
      ∃ hs, (s.entry n).lock = .held hs ∧ hs ≠ [] ∧
        ∀ a ∈ hs, ∃ q, s.procs[a]? = some q ∧ (q.phase = .otherLeaf ∨ ∃ k, q.phase = .ecreate k ∧ k.page = n)

/-- P5 (spec/70_reset_and_hazards.md R149): no byte of PAGEINFO, of the source page or of SECINFO translates into the EPC or
into memory with read side effects. The source page and SECINFO are what a readable PAGEINFO points to (log 18). -/
def OperandsPlaced (s : State) (p : Processor) : Prop :=
  Placed s.cfg p (laPageinfo p) s.cfg.pageinfo.size ∧
    ∀ pageinfo, readOperand s.cfg p (s.view 0) (laPageinfo p) s.cfg.pageinfo.size = .ok pageinfo →
      Placed s.cfg p (linear p (effectiveAddress p (srcpgeOf s.cfg pageinfo))) pageBytes ∧
        Placed s.cfg p (linear p (effectiveAddress p (secinfoOf s.cfg pageinfo))) s.cfg.secinfo.size

/-- The launch premises (spec/70_reset_and_hazards.md R149); P6 holds of every state, since nothing changes the translation
context of a processor inside an ECREATE (log 23). -/
def Admitted (s : State) (p : Processor) : Prop := Launchable s p ∧ s.LocksHeld ∧ OperandsPlaced s p

/-- R83 and R84 pass: both register operands are inside the limits and aligned. -/
def RegistersOk (s : State) (p : Processor) : Prop :=
  OperandOk s.cfg p p.rbx s.cfg.pageinfo.size 32 ∧ OperandOk s.cfg p p.rcx pageBytes pageBytes

/-- R83 to R85 pass: `DS:RCX` resolves within an EPC, at the physical address `pa`. -/
def DestinationOk (s : State) (p : Processor) (pa : Word64) : Prop :=
  RegistersOk s p ∧ translate p (laDestination p) .enclaveWrite = .phys pa ∧ s.inEpc (frameOf pa) = true

/-- R83 to R87 pass: PAGEINFO reads as `pageinfo`, its two pointers are inside the limits and aligned. -/
def PointersOk (s : State) (p : Processor) (pa : Word64) (pageinfo : Block) : Prop :=
  DestinationOk s p pa ∧
    readOperand s.cfg p (s.view 0) (laPageinfo p) s.cfg.pageinfo.size = .ok pageinfo ∧
    OperandOk s.cfg p (srcpgeOf s.cfg pageinfo) pageBytes pageBytes ∧
    OperandOk s.cfg p (secinfoOf s.cfg pageinfo) s.cfg.secinfo.size 64

/-- R83 to R88 pass: the unused fields of PAGEINFO are zero as well. -/
def PageinfoOk (s : State) (p : Processor) (pa : Word64) (pageinfo : Block) : Prop :=
  PointersOk s p pa pageinfo ∧
    getField pageinfo s.cfg.pageinfo.linaddr = 0 ∧ getField pageinfo s.cfg.pageinfo.secs = 0

/-- R83 to R90 pass; the ticket holds the temporaries (spec/70_reset_and_hazards.md R146). -/
def OperandsOk (s : State) (p : Processor) (k : Ticket) : Prop :=
  ∃ pageinfo secinfo,
    PageinfoOk s p k.phys pageinfo ∧
    readOperand s.cfg p (s.view 1) (linear p (effectiveAddress p (secinfoOf s.cfg pageinfo))) s.cfg.secinfo.size =
      .ok secinfo ∧
    (secinfo &&& s.cfg.secinfo.reserved) = 0 ∧
    getField secinfo (subField s.cfg.secinfo.flags s.cfg.secinfo.pt) = s.cfg.ptSecs ∧
    k.laSecs = laDestination p ∧ k.page = frameOf k.phys ∧
    k.laSrc = linear p (effectiveAddress p (srcpgeOf s.cfg pageinfo))

/-- The executing processor is between the two transitions of an ECREATE. -/
def InCommit (s : State) (p : Processor) (k : Ticket) : Prop := s.current = some p ∧ p.phase = .ecreate k

/-- `secs_ok(S)`: what a copied SECS must satisfy (spec/40_ecreate.md R82, R96 to R110; spec/70_reset_and_hazards.md
R147). The MISCSELECT clause is the comment's reading, with the listing's own line added where the configuration says so
(log 26). -/
def SecsOk (c : Config) (b : Block) : Prop :=
  secsXfrm c b &&& 3 = 3 ∧
  secsXfrm c b ∈ c.xfrmLegal ∧
  (BitVec.ofNat 32 (secsMiscselect c b) &&& ~~~c.cpuidEbx) = 0 ∧
  (c.miscselectLiteral = true → (c.cpuidEbx &&& BitVec.ofNat 32 (secsMiscselect c b)) ≠ 0) ∧
  tableAt c.xsaveSize (secsXfrm c b) + c.gprSize + tableAt c.miscSize (secsMiscselect c b) ≤
    secsSsaframesize c b * 4096 ∧
  (secsMode64bit c b = 1 → canonical c.linearAddressBits (secsBase c b) = true ∧
    secsSize c b < 2 ^ c.cpuidEdx15_8.toNat) ∧
  (secsMode64bit c b = 0 → (secsBase c b).toNat < 2 ^ 32 ∧ secsSize c b < 2 ^ c.cpuidEdx7_0.toNat) ∧
  (∃ n, 13 ≤ n ∧ secsSize c b = 2 ^ n) ∧
  (secsBase c b).toNat % secsSize c b = 0 ∧
  (∀ i, i < c.secs.attributes.len → (secsAttributes c b).testBit i = true → c.attributesMask.testBit i = true) ∧
  (∀ i, i < 32768 → c.secs.reserved.getLsbD i = true → b.getLsbD i = false) ∧
  (secsKss c b = 0 → getField b c.secs.configid = 0 ∧ getField b c.secs.configsvn = 0)

/-- A fault condition of R96 or of R101 to R110 holds of a copied SECS, each written as its rule writes it. -/
def SecsFault (c : Config) (b : Block) : Prop :=
  secsXfrm c b &&& 3 ≠ 3 ∨
  secsSsaframesize c b * 4096 <
    tableAt c.xsaveSize (secsXfrm c b) + c.gprSize + tableAt c.miscSize (secsMiscselect c b) ∨
  (secsMode64bit c b = 1 ∧ canonical c.linearAddressBits (secsBase c b) = false) ∨
  (secsMode64bit c b = 0 ∧ (secsBase c b &&& 0xFFFFFFFF00000000) ≠ 0) ∨
  (secsMode64bit c b = 0 ∧ 2 ^ c.cpuidEdx7_0.toNat ≤ secsSize c b) ∨
  (secsMode64bit c b = 1 ∧ 2 ^ c.cpuidEdx15_8.toNat ≤ secsSize c b) ∨
  secsSize c b < 8192 ∨ 1 < popcnt (secsSize c b) ∨
  (secsBase c b &&& BitVec.ofNat 64 (secsSize c b - 1)) ≠ 0 ∨
  (∃ i, i < c.secs.attributes.len ∧ (secsAttributes c b).testBit i = true ∧ c.attributesMask.testBit i = false) ∨
  (b &&& c.secs.reserved) ≠ 0 ∨
  ((getField b c.secs.configid ≠ 0 ∨ getField b c.secs.configsvn ≠ 0) ∧ secsKss c b = 0)

/-! ### What a transition leaves alone -/

/-- A processor's registers, flags, mode, segment and translation context are what they were. -/
def SameRegisters (p q : Processor) : Prop :=
  q.rax = p.rax ∧ q.rbx = p.rbx ∧ q.rcx = p.rcx ∧ q.rflags = p.rflags ∧ q.mode = p.mode ∧ q.cpl = p.cpl ∧
    q.sgxEnabled = p.sgxEnabled ∧ q.enclsExiting = p.enclsExiting ∧ q.vmxNonRoot = p.vmxNonRoot ∧
    q.enableEpcVirtExt = p.enableEpcVirtExt ∧ q.ds = p.ds ∧ q.xlat = p.xlat

/-- Everything no ECREATE writes, whatever its outcome: configuration, ordinary memory, the other processors, and the
model's own scheduling fields. -/
def OutsideUntouched (s t : State) : Prop :=
  t.cfg = s.cfg ∧ t.mem = s.mem ∧ t.racing = s.racing ∧ t.windows = s.windows ∧ t.active = s.active ∧ t.turns = s.turns ∧
    t.procs.length = s.procs.length ∧ ∀ i, i ≠ s.active → t.procs[i]? = s.procs[i]?

/-- No EPC page, no hidden SECS state and no `CR_NEXT_EID` is changed. -/
def EpcUntouched (s t : State) : Prop :=
  t.epc = s.epc ∧ t.hidden = s.hidden ∧ t.scrambled = s.scrambled ∧ t.nextEid = s.nextEid

/-- Two EPCM entries differ at most in the lock. -/
def SameButLock (e f : EpcmEntry) : Prop := f = { e with lock := f.lock }

/-! ### Well-kept machines -/

/-- Every list of the state has its canonical form (logs 7, 8, 14, 15). -/
def State.Canonical (s : State) : Prop :=
  Memory.wf s.mem ∧ Memory.wf s.epc ∧ Assoc.Wf EpcmEntry.reset s.epcm ∧ Assoc.Wf SecsHidden.reset s.hidden ∧
    Assoc.Wf none s.scrambled ∧ Assoc.Wf none s.windows

/-- A processor between the two transitions of an ECREATE holds its page's EPCM entry, and holds it alone
(spec/10_state.md R26, spec/20_memory.md R66, spec/60_exceptions.md R141). -/
def State.Exclusive (s : State) : Prop :=
  ∀ (i : Nat) (p : Processor) (t : Ticket),
    s.procs[i]? = some p → p.phase = .ecreate t → (s.entry t.page).lock = .held [i]

/-- Such a processor works on an EPC page, through the address paging gave for it (spec/40_ecreate.md R85). -/
def State.TicketsInEpc (s : State) : Prop :=
  ∀ (i : Nat) (p : Processor) (t : Ticket),
    s.procs[i]? = some p → p.phase = .ecreate t → s.inEpc t.page = true ∧ t.page = frameOf t.phys

/-- The source page that such a processor will copy is well placed, at an address of the mode's width: premise P5, which P6
keeps for the length of the instruction (spec/70_reset_and_hazards.md R149). -/
def State.TicketsPlaced (s : State) : Prop :=
  ∀ (i : Nat) (p : Processor) (t : Ticket),
    s.procs[i]? = some p → p.phase = .ecreate t →
      wrapAddress p.mode t.laSrc = t.laSrc ∧ Placed s.cfg p t.laSrc pageBytes

end Sys2Proof.Machine
end

