-- ==== Sys2Proof/WellFormed.lean ====
section
/-! DEFINITION. Well-formedness. The one instruction has no operand field (spec/30_encoding.md R74, R76), so nothing in
it can be ill formed; what the spec asks a model to check is its CONFIGURATION (spec/10_state.md R35, premise P3 of
spec/70_reset_and_hazards.md R149), and that check is `Machine.configWf`, named here beside the instruction's. -/

namespace Sys2Proof

/-- An instruction is well formed: format IR holds no field to check (spec/30_encoding.md R74). -/
def WellFormed (i : Instr) : Bool :=
  match i with
  | .enclsEcreate => true

/-- A configuration the model accepts (spec/10_state.md R30, R35; premise P3). -/
abbrev ConfigWellFormed (c : Config) : Prop := Machine.configWf c = true

end Sys2Proof
end

