-- ==== Sys2Proof/Certificates/Slice0/Obligations.lean ====
section
/-! DEFINITION. The statements for the provers. In each, the outcome `GP(0)`, `PF(la, ec)` or `VMExit SGX_CONFLICT` of
spec/00_scope.md R12 is written the model's way: a next state in which the executing processor has the event recorded
(`State.takeEvent`, log 11), and `s.tick` is `s` but for the model's own counter `freeIndex` (log 40). -/

open Sys2Proof Sys2Proof.Machine

/-! ### Encoding, fetching, choosing the leaf -/

/-- With the bytes 0F 01 CF for ENCLS: they are the instruction; a byte in front, another last byte and two bytes alone are
refused by name (R73 as filled by G1, R78; the bytes are the model's, log 1). -/
def Obligations.DecodeReadsEnclsBytesOnly : Prop :=
  decode [0x0F, 0x01, 0xCF] [0x0F, 0x01, 0xCF] = .ok (.enclsEcreate, []) ∧
    decode [0x0F, 0x01, 0xCF] [0x66, 0x0F, 0x01, 0xCF] = .error .notEncls ∧
    decode [0x0F, 0x01, 0xCF] [0x0F, 0x01, 0xD7] = .error .notEncls ∧
    decode [0x0F, 0x01, 0xCF] [0x0F, 0x01] = .error .truncated ∧
    decodeTableWord 24 0xCF010F = some .enclsEcreate ∧ decodeTableWord 24 0xCE010F = none

/-- Whatever bytes the parameter `ENCLS_OPCODE` names, decoding accepts exactly the encodings, and leaves what stands behind
them (R8, R73, R78). -/
def Obligations.DecodeAgreesWithEncode : Prop :=
  ∀ (opcode bytes : List Byte) (i : Instr) (rest : List Byte),
    decode opcode bytes = .ok (i, rest) ↔ bytes = encode opcode i ++ rest ∧ WellFormed i = true

/-- When no other agent's turn is pending, or a processor's is, a step of a processor without a recorded event fetches
the bytes at the instruction pointer: it is `exec` of the instruction they decode to, settled, and it is refused by name
where they cannot be read or are not the encoding; inside an ECREATE it goes on with it, settled (R7, R68, R78; logs 2, 12).
What settling adds is log 14's: the window of the reads is kept or closed, and stores an ended ECREATE has seen land; with no
store under way and no window open it adds nothing to an ended instruction. -/
def Obligations.StepRunsDecodedInstruction : Prop :=
  ∀ (s u : State) (p : Processor) (j : Nat) (more : List Turn),
    ((s.turns = [] ∧ u = s) ∨
      (s.turns = .processor j :: more ∧ u = { s with active := j, turns := more })) →
    u.current = some p → p.event = none →
    (p.phase = .idle →
      (∀ bytes i rest, fetchBytes u p = .ok bytes → decode u.cfg.enclsOpcode bytes = .ok (i, rest) →
        step s = settled u (exec i u)) ∧
      (∀ bytes, fetchBytes u p = .ok bytes → bytes ≠ u.cfg.enclsOpcode → step s = .refused .notEncls) ∧
      ((∀ bytes, fetchBytes u p ≠ .ok bytes) → step s = .refused .fetchNotReadable)) ∧
    (∀ k, p.phase = .ecreate k → step s = settled u (exec .enclsEcreate u)) ∧
    (∀ t q, exec .enclsEcreate u = .next t → t.current = some q → q.phase = .idle → u.racing = [] → u.windows = [] →
      settle u t = t)

/-- Fetch and decode is a parameter (R7, R73): whatever invocation `fetch` gives the processor whose turn it is, the step
relation over the decoded invocation is `exec` of it, settled (log 14), and a fetch that gives none refuses the step under its own name. `step`
is the instance with the model's fetch (log 2). -/
def Obligations.StepRelationOverDecodedInvocation : Prop :=
  ∀ (fetch : Fetch) (s u : State) (p : Processor) (j : Nat) (more : List Turn),
    ((s.turns = [] ∧ u = s) ∨
      (s.turns = .processor j :: more ∧ u = { s with active := j, turns := more })) →
    u.current = some p → p.event = none →
    (p.phase = .idle →
      (∀ i, fetch u p = .ok i → stepWith fetch s = settled u (exec i u)) ∧
      (∀ r, fetch u p = .error r → stepWith fetch s = .refused r)) ∧
    (∀ k, p.phase = .ecreate k → stepWith fetch s = settled u (exec .enclsEcreate u)) ∧
    step s = stepWith fetchInstr s

/-- After an exception or a VM exit the processor has no further step of its own, whether its turn is pending or no turn is,
and whatever it would fetch (R136, D12; log 11). -/
def Obligations.RecordedOutcomeIsTerminal : Prop :=
  ∀ (fetch : Fetch) (s u : State) (p : Processor) (r : EventRecord) (j : Nat) (more : List Turn),
    ((s.turns = [] ∧ u = s) ∨
      (s.turns = .processor j :: more ∧ u = { s with active := j, turns := more })) →
    u.current = some p → p.event = some r →
    step s = .fault .outcomeTerminal ∧ stepWith fetch s = .fault .outcomeTerminal

/-- Where the configuration gives ENCLS the bytes of spec/opcode_table.json, the instruction word stored by `withFetchWord`
is what the next step executes (settled, log 14), wherever the instruction pointer's three bytes lie in one page of ordinary memory (the
model's own, logs 1, 2, 36). -/
def Obligations.PlacedWordIsExecuted : Prop :=
  ∀ (s : State) (p : Processor) (pa : Word64),
    s.cfg.enclsOpcode = tableOpcode →
    s.current = some p → (fetchAddress p 0).toNat % pageBytes + 3 ≤ pageBytes →
    translate p (fetchAddress p 0) .nonEnclaveRead = .phys pa → s.ordinary pa = true →
    step (s.withFetchWord 24 0xCF010F) =
      settled (s.withFetchWord 24 0xCF010F) (exec .enclsEcreate (s.withFetchWord 24 0xCF010F))

/-- With the other launch premises met, ECREATE is refused for its leaf exactly if the low 32 bits of RAX are not 0; bits
63:32 play no part (R75, R77). -/
def Obligations.LeafSelectedByEaxAlone : Prop :=
  ∀ (s : State) (p : Processor) (rax : Word64),
    Admitted s p →
    (exec .enclsEcreate (s.setCurrent { p with rax := rax }) = .refused .leafNotInSpec ↔ rax.setWidth 32 ≠ (0 : Word32))

/-- Outside the launch premises P1 to P5 the invocation is refused, and inside them the premises refuse nothing; a lock that
no agent executing a leaf holds is refused under its own name (R149; P1 is open but for what D14 says, log 19; how P3 is
read: logs 30 and 42, P4: log 41, P5: logs 18 and 43). -/
def Obligations.OutsidePremisesRefused : Prop :=
  ∀ (s : State) (p : Processor),
    s.current = some p → p.phase = .idle →
    (¬ Admitted s p → ∃ r, exec .enclsEcreate s = .refused r) ∧
    (Launchable s p → ¬ s.LocksHeld → exec .enclsEcreate s = .refused .lockWithoutHolder) ∧
    (Admitted s p → launchRefusal s p = none)

/-- A layout the model accepts puts every bit of the structure in exactly one of a named field or the reserved set, its
fields inside the structure and apart from each other (R35); in an accepted SECINFO no further field overlaps FLAGS in part:
each is a part of FLAGS or apart from it. -/
def Obligations.AcceptedLayoutPartitionsBits : Prop :=
  (∀ (l : SecinfoLayout), secinfoWf l = true →
    ∀ f ∈ l.others, (l.flags.lo ≤ f.lo ∧ f.lo + f.len ≤ l.flags.lo + l.flags.len) ∨
      f.lo + f.len ≤ l.flags.lo ∨ l.flags.lo + l.flags.len ≤ f.lo) ∧
  ∀ (bits : Nat) (fields : List Field) (reserved : Nat),
    partitions bits fields reserved = true →
    (∀ f ∈ fields, f.lo + f.len ≤ bits) ∧
    fields.Pairwise (fun f g => f.lo + f.len ≤ g.lo ∨ g.lo + g.len ≤ f.lo) ∧
    ∀ i, i < bits →
      ((∃ f ∈ fields, f.lo ≤ i ∧ i < f.lo + f.len) ↔ reserved.testBit i = false)

/-- A configuration that is not well formed is rejected (R35; what `configWf` asks beyond R35 is named in logs 30 and 42). -/
def Obligations.IllFormedConfigurationRefused : Prop :=
  ∀ (s : State) (p : Processor), s.current = some p → p.phase = .idle → configWf s.cfg = false →
    exec .enclsEcreate s = .refused .configNotWellFormed

/-! ### The checks before the lock -/

/-- R83: PAGEINFO outside the limits or not 32-byte aligned ends in `GP(0)`. -/
def Obligations.MisplacedPageinfoRaisesGp : Prop :=
  ∀ (s : State) (p : Processor), Admitted s p → ¬ OperandOk s.cfg p p.rbx s.cfg.pageinfo.size 32 →
    exec .enclsEcreate s = .next (s.tick.takeEvent p .gp0)

/-- R84: a destination outside the limits or not 4096-byte aligned ends in `GP(0)`, wherever it maps (R133 a). -/
def Obligations.MisplacedDestinationRaisesGp : Prop :=
  ∀ (s : State) (p : Processor), Admitted s p → ¬ OperandOk s.cfg p p.rcx pageBytes pageBytes →
    exec .enclsEcreate s = .next (s.tick.takeEvent p .gp0)

/-- R49: in `Mode64` one byte of the destination page that is not canonical, and in `Prot32` one that is beyond the DS
limit, is enough for `GP(0)`. -/
def Obligations.OneByteOutsideLimitsRaisesGp : Prop :=
  ∀ (s : State) (p : Processor) (j : Nat), Admitted s p → j < pageBytes →
    ((p.mode = .mode64 ∧ canonical s.cfg.linearAddressBits (p.rcx + BitVec.ofNat 64 j) = false) ∨
      (p.mode = .prot32 ∧ p.ds.limit.toNat < (p.rcx.setWidth 32 : Word32).toNat + j)) →
    exec .enclsEcreate s = .next (s.tick.takeEvent p .gp0)

/-- R85: a destination that does not translate for an enclave write, or translates outside the EPC, ends in a page fault
that reports `DS:RCX`; PAGEINFO is not looked at (R133 b). -/
def Obligations.DestinationNotInEpcRaisesPf : Prop :=
  ∀ (s : State) (p : Processor), Admitted s p → RegistersOk s p →
    (∀ cause, translate p (laDestination p) .enclaveWrite = .fault cause →
      exec .enclsEcreate s = .next (s.tick.takeEvent p (.pf (laDestination p) .enclaveWrite cause))) ∧
    (∀ pa, translate p (laDestination p) .enclaveWrite = .phys pa → s.inEpc (frameOf pa) = false →
      exec .enclsEcreate s = .next (s.tick.takeEvent p (.pf (laDestination p) .enclaveWrite .notEpc)))

/-- A page fault reading PAGEINFO or SECINFO ends in that page fault, reporting the operand's first byte (R128 causes 3
and 4; the reported address follows D13, log 16). That the whole of PAGEINFO is one read at R86 is the model's choice (log 17;
R60 allows one access or four): so a byte of LINADDR, SECS (R88) or a further field that cannot be read gives its page fault
ahead of R87's `GP(0)`, which only a PAGEINFO of more than 32 bytes that crosses a page can show. -/
def Obligations.UnreadableStructureRaisesPf : Prop :=
  ∀ (s : State) (p : Processor) (pa : Word64), Admitted s p → DestinationOk s p pa →
    (∀ e, readOperand s.cfg p (s.view 0) (laPageinfo p) s.cfg.pageinfo.size = .raise e →
      (∃ cause, e = .pf (laPageinfo p) .nonEnclaveRead cause) ∧
        exec .enclsEcreate s = .next (s.tick.takeEvent p e)) ∧
    (∀ pageinfo e, PageinfoOk s p pa pageinfo →
      readOperand s.cfg p (s.view 1) (linear p (effectiveAddress p (secinfoOf s.cfg pageinfo))) s.cfg.secinfo.size =
        .raise e →
      (∃ cause, e = .pf (linear p (effectiveAddress p (secinfoOf s.cfg pageinfo))) .nonEnclaveRead cause) ∧
        exec .enclsEcreate s = .next (s.tick.takeEvent p e))

/-- R87: a source-page pointer outside the limits or not 4096-byte aligned, or a SECINFO pointer outside them or not
64-byte aligned, ends in `GP(0)`. -/
def Obligations.MisplacedPointersRaiseGp : Prop :=
  ∀ (s : State) (p : Processor) (pa : Word64) (pageinfo : Block), Admitted s p → DestinationOk s p pa →
    readOperand s.cfg p (s.view 0) (laPageinfo p) s.cfg.pageinfo.size = .ok pageinfo →
    (¬ OperandOk s.cfg p (srcpgeOf s.cfg pageinfo) pageBytes pageBytes ∨
      ¬ OperandOk s.cfg p (secinfoOf s.cfg pageinfo) s.cfg.secinfo.size 64) →
    exec .enclsEcreate s = .next (s.tick.takeEvent p .gp0)

/-- R88: LINADDR or SECS not zero, over their whole width in both modes, ends in `GP(0)`. -/
def Obligations.UnusedPageinfoFieldsRaiseGp : Prop :=
  ∀ (s : State) (p : Processor) (pa : Word64) (pageinfo : Block), Admitted s p → PointersOk s p pa pageinfo →
    (getField pageinfo s.cfg.pageinfo.linaddr ≠ 0 ∨ getField pageinfo s.cfg.pageinfo.secs ≠ 0) →
    exec .enclsEcreate s = .next (s.tick.takeEvent p .gp0)

/-- R89: SECINFO that cannot be read ends in the page fault of that read; a reserved bit of it set, or a page type other
than PT_SECS, in `GP(0)`; no other bit of it is tested. -/
def Obligations.MisconfiguredSecinfoRaisesGp : Prop :=
  ∀ (s : State) (p : Processor) (pa : Word64) (pageinfo : Block), Admitted s p → PageinfoOk s p pa pageinfo →
    (∀ e, readOperand s.cfg p (s.view 1) (linear p (effectiveAddress p (secinfoOf s.cfg pageinfo))) s.cfg.secinfo.size =
        .raise e →
      (∃ la cause, e = .pf la .nonEnclaveRead cause) ∧ exec .enclsEcreate s = .next (s.tick.takeEvent p e)) ∧
    (∀ secinfo,
      readOperand s.cfg p (s.view 1) (linear p (effectiveAddress p (secinfoOf s.cfg pageinfo))) s.cfg.secinfo.size =
        .ok secinfo →
      ((secinfo &&& s.cfg.secinfo.reserved) ≠ 0 ∨
        getField secinfo (subField s.cfg.secinfo.flags s.cfg.secinfo.pt) ≠ s.cfg.ptSecs) →
      exec .enclsEcreate s = .next (s.tick.takeEvent p .gp0)) ∧
    (∀ secinfo,
      readOperand s.cfg p (s.view 1) (linear p (effectiveAddress p (secinfoOf s.cfg pageinfo))) s.cfg.secinfo.size =
        .ok secinfo →
      (secinfo &&& s.cfg.secinfo.reserved) = 0 →
      getField secinfo (subField s.cfg.secinfo.flags s.cfg.secinfo.pt) = s.cfg.ptSecs →
      ∃ k, acquireChecks s p = .ok k)

/-- R59 and R63: with the other launch premises met, an ECREATE is refused if any byte of PAGEINFO, or of the source page or
SECINFO that a readable PAGEINFO points to, lies in the EPC or in memory with read side effects, whatever a later check would
find; the three are looked at in that order, the EPC first. One that took its entry has no byte of the source page in the
EPC. (D25; that all of this comes before R83 is log 18, what memory with side
effects is made of log 43.) -/
def Obligations.SourceOperandsOutsideEpc : Prop :=
  (∀ (s : State) (p : Processor), Launchable s p → s.LocksHeld →
    (TouchesRegion s.cfg.epc p (laPageinfo p) s.cfg.pageinfo.size → exec .enclsEcreate s = .refused .operandInEpc) ∧
    (¬ TouchesRegion s.cfg.epc p (laPageinfo p) s.cfg.pageinfo.size →
      TouchesRegion s.cfg.sideEffects p (laPageinfo p) s.cfg.pageinfo.size →
      exec .enclsEcreate s = .refused .operandHasSideEffects) ∧
    ∀ pageinfo laSrc laSi, readOperand s.cfg p (s.view 0) (laPageinfo p) s.cfg.pageinfo.size = .ok pageinfo →
      laSrc = linear p (effectiveAddress p (srcpgeOf s.cfg pageinfo)) →
      laSi = linear p (effectiveAddress p (secinfoOf s.cfg pageinfo)) →
      (TouchesRegion s.cfg.epc p laSrc pageBytes → exec .enclsEcreate s = .refused .operandInEpc) ∧
      (¬ TouchesRegion s.cfg.epc p laSrc pageBytes → TouchesRegion s.cfg.sideEffects p laSrc pageBytes →
        exec .enclsEcreate s = .refused .operandHasSideEffects) ∧
      (Placed s.cfg p laSrc pageBytes → TouchesRegion s.cfg.epc p laSi s.cfg.secinfo.size →
        exec .enclsEcreate s = .refused .operandInEpc) ∧
      (Placed s.cfg p laSrc pageBytes → ¬ TouchesRegion s.cfg.epc p laSi s.cfg.secinfo.size →
        TouchesRegion s.cfg.sideEffects p laSi s.cfg.secinfo.size →
        exec .enclsEcreate s = .refused .operandHasSideEffects)) ∧
  (∀ (s : State) (p : Processor) (k : Ticket) (j : Nat) (pa : Word64), Admitted s p → OperandsOk s p k →
    j < pageBytes → translate p (k.laSrc + BitVec.ofNat 64 j) .nonEnclaveRead = .phys pa →
    s.inEpc (frameOf pa) = false)

/-- R91, with R131 for the VM exit: an entry in use ends in `SGX_CONFLICT` under both virtualisation conditions, the five
VMCS fields written, and in `GP(0)` otherwise; a free one is taken for the executing processor alone. Nothing else of the
state changes. -/
def Obligations.EntryInUseOrTaken : Prop :=
  ∀ (s : State) (p : Processor) (k : Ticket), Admitted s p → OperandsOk s p k →
    ((s.entry k.page).lock ≠ .free →
      (p.vmxNonRoot = true ∧ p.enableEpcVirtExt = true →
        exec .enclsEcreate s = .next (s.tick.setCurrent
          { p with
            event := some { event := .vmExit { exitReason := .sgxConflict, qualCode := .epcPageConflictException, qualError := 0, guestPhysical := k.phys, guestLinear := k.laSecs }, pc := p.pc }
            vmcs := { exitReason := .sgxConflict, qualCode := .epcPageConflictException, qualError := 0, guestPhysical := k.phys, guestLinear := k.laSecs } })) ∧
      (p.vmxNonRoot = false ∨ p.enableEpcVirtExt = false →
        exec .enclsEcreate s = .next (s.tick.setCurrent { p with event := some { event := .gp0, pc := p.pc } }))) ∧
    ((s.entry k.page).lock = .free →
      exec .enclsEcreate s =
        .next ((s.tick.setLock k.page (.held [s.active])).setCurrent { p with phase := .ecreate k }))

/-- R17 and R48: in `Prot32` the acquire looks at the low 32 bits of RBX and RCX only, and of the SRCPGE and SECINFO fields
of PAGEINFO only the low 32 bits are pointers: PAGEINFOs that agree in them have the same pointers, checked alike. -/
def Obligations.Prot32UsesLowHalves : Prop :=
  ∀ (s : State) (p : Processor), p.mode = .prot32 →
    (∀ rbx rcx : Word64, (rbx.setWidth 32 : Word32) = p.rbx.setWidth 32 → (rcx.setWidth 32 : Word32) = p.rcx.setWidth 32 →
      acquireChecks s { p with rbx := rbx, rcx := rcx } = acquireChecks s p ∧
        placementPremise s { p with rbx := rbx, rcx := rcx } = placementPremise s p) ∧
    (∀ b b' : Block, getField b s.cfg.pageinfo.srcpge % 2 ^ 32 = getField b' s.cfg.pageinfo.srcpge % 2 ^ 32 →
      getField b s.cfg.pageinfo.secinfo % 2 ^ 32 = getField b' s.cfg.pageinfo.secinfo % 2 ^ 32 →
      pageinfoPointers s.cfg p b = pageinfoPointers s.cfg p b')

/-- R48: the linear address of each operand, in numbers. In `Prot32` it is the DS base plus the low 32 bits of the register or
of the PAGEINFO field, modulo 2^32; in `Mode64` it is the register or the field itself. So the destination's address that a
fault, the VM exit or the ticket carries, PAGEINFO's, the source page's and SECINFO's. -/
def Obligations.LinearAddressOfOperands : Prop :=
  ∀ (s : State) (p : Processor) (v : Word64),
    (p.mode = .prot32 →
      (linear p (effectiveAddress p v)).toNat = (p.ds.base.toNat + v.toNat % 2 ^ 32) % 2 ^ 32) ∧
    (p.mode = .mode64 → linear p (effectiveAddress p v) = v) ∧
    (∀ k, acquireChecks s p = .ok k → p.mode = .prot32 →
      k.laSecs.toNat = (p.ds.base.toNat + p.rcx.toNat % 2 ^ 32) % 2 ^ 32 ∧
      ∃ pageinfo la, la.toNat = (p.ds.base.toNat + p.rbx.toNat % 2 ^ 32) % 2 ^ 32 ∧
        readOperand s.cfg p (s.view 0) la s.cfg.pageinfo.size = .ok pageinfo ∧
        k.laSrc.toNat = (p.ds.base.toNat + getField pageinfo s.cfg.pageinfo.srcpge % 2 ^ 32) % 2 ^ 32) ∧
    (∀ k, acquireChecks s p = .ok k → p.mode = .mode64 →
      k.laSecs = p.rcx ∧
      ∃ pageinfo, readOperand s.cfg p (s.view 0) p.rbx s.cfg.pageinfo.size = .ok pageinfo ∧
        k.laSrc = BitVec.ofNat 64 (getField pageinfo s.cfg.pageinfo.srcpge))

/-! ### The commit -/

/-- R93: a page that is already valid ends in a page fault that reports `DS:RCX`; the lock is free again and nothing else
changes. -/
def Obligations.AlreadyValidRaisesPf : Prop :=
  ∀ (s : State) (p : Processor) (k : Ticket), InCommit s p k → (s.entry k.page).valid = true →
    exec .enclsEcreate s =
      .next ((s.tick.setLock k.page .free).setCurrent
        { p with phase := .idle, event := some { event := .pf k.laSecs .enclaveWrite .epcmValid, pc := p.pc } })

/-- A page fault on the source page is taken before anything is written and before any content check, with the lock free
again (R94, R128 cause 6, R133 f, R142; the reported address follows D13, log 16). -/
def Obligations.UnreadableSourcePageRaisesPf : Prop :=
  ∀ (s : State) (p : Processor) (k : Ticket) (e : Event), InCommit s p k → (s.entry k.page).valid = false →
    readOperand s.cfg p (s.view 2) k.laSrc pageBytes = .raise e →
    (∃ cause, e = .pf k.laSrc .nonEnclaveRead cause) ∧
      exec .enclsEcreate s =
        .next ((s.tick.setLock k.page .free).setCurrent
          { p with phase := .idle, event := some { event := e, pc := p.pc } })

/-- No check of R96 to R110 fails exactly if the copy satisfies `secs_ok`, written out (R82; the MISCSELECT clause is the
spec's decision D7, log 26). -/
def Obligations.NoCheckFailsIffSecsOk : Prop :=
  ∀ (c : Config) (b : Block), configWf c = true → (firstFailure c b = none ↔ SecsOk c b)

/-- R96 and R101 to R110, each condition as its rule writes it (`SecsFault`; the size R101 asks for is R100's, its two functions
tables of the configuration, D16, log 31): where one of them holds of the copied SECS, the commit ends in `GP(0)`. The lock is
released, which is decision D8 (R121, log 29), and no other field of that page's EPCM entry and no `CR_NEXT_EID` is written
(R123). (R97 and R98, and what else is not written: NoCheckFailsIffSecsOk, BadSecsRaisesGpAfterCopy, CommitWritesOnlyItsPage and
OrdinaryMemoryKept.) -/
def Obligations.FailedSecsCheckRaisesGp : Prop :=
  ∀ (s : State) (p : Processor) (k : Ticket) (b : Block), InCommit s p k → (s.entry k.page).valid = false →
    readOperand s.cfg p (s.view 2) k.laSrc pageBytes = .ok b → SecsFault s.cfg b →
    ∃ t, exec .enclsEcreate s = .next t ∧
      t.current = some { p with phase := .idle, event := some { event := .gp0, pc := p.pc } } ∧
      t.entry k.page = { s.entry k.page with lock := .free } ∧ t.nextEid = s.nextEid

/-- Where no condition of R96 or of R101 to R110 holds of the copied SECS, XFRM is legal (R97) and the MISCSELECT check passes
(R98), there is no fault: the entry is that of a created SECS page, free (R119 to R121), `CR_NEXT_EID` is one more (R116, D17)
and the processor is out of the instruction (R122). What the last two premises say is the model's choice: `xfrm_legal` is a list
of values (D16, log 31), and of the two readings of R98 the comment's is the check, with the literal one where the
configuration asks for it (D7, log 26). -/
def Obligations.PassingSecsChecksCompletes : Prop :=
  ∀ (s : State) (p : Processor) (k : Ticket) (b : Block), InCommit s p k → (s.entry k.page).valid = false →
    readOperand s.cfg p (s.view 2) k.laSrc pageBytes = .ok b →
    ¬ SecsFault s.cfg b → secsXfrm s.cfg b ∈ s.cfg.xfrmLegal → secsCheckFails s.cfg b .miscselect = false →
    ∃ t q, exec .enclsEcreate s = .next t ∧ t.current = some q ∧ q.event = none ∧ q.phase = .idle ∧
      t.entry k.page = createdEntry s.cfg ∧ t.nextEid = s.nextEid + 1

/-- A copy that does not satisfy `secs_ok` ends in `GP(0)`: the entry is as before but free, `CR_NEXT_EID` is as before,
the page holds any value (R123; the free value is log 15). -/
def Obligations.BadSecsRaisesGpAfterCopy : Prop :=
  ∀ (s : State) (p : Processor) (k : Ticket) (b : Block), InCommit s p k → configWf s.cfg = true →
    (s.entry k.page).valid = false → readOperand s.cfg p (s.view 2) k.laSrc pageBytes = .ok b → ¬ SecsOk s.cfg b →
    ∃ t, exec .enclsEcreate s = .next t ∧
      t.current = some { p with phase := .idle, event := some { event := .gp0, pc := p.pc } } ∧
      t.entry k.page = { s.entry k.page with lock := .free } ∧ t.nextEid = s.nextEid ∧
      t.page k.page = Config.freePage (s.freeIndex + 1) ∧
      (∀ q, q ≠ k.page → t.page q = s.page q ∧ t.hiddenAt q = s.hiddenAt q ∧ t.entry q = s.entry q)

/-- THE COMPLETION OF THE COMMIT (R122): on a page that is not valid, a readable source page that satisfies `secs_ok`
completes. The page holds the initialised copy, the hidden state is as R111 to R115 say, the entry is as R119 and R120
say and free, `CR_NEXT_EID` is one more, the instruction pointer is behind the ENCLS: by the length of `ENCLS_OPCODE`, with the
model's own width and wrap (logs 1, 28; R18 leaves them out). -/
def Obligations.CommitCompletes : Prop :=
  ∀ (s : State) (p : Processor) (k : Ticket) (b : Block), InCommit s p k → configWf s.cfg = true →
    (s.entry k.page).valid = false → readOperand s.cfg p (s.view 2) k.laSrc pageBytes = .ok b → SecsOk s.cfg b →
    ∃ t q, exec .enclsEcreate s = .next t ∧ t.current = some q ∧
      q.phase = .idle ∧ q.event = none ∧ q.pc = wrapAddress p.mode (p.pc + BitVec.ofNat 64 s.cfg.enclsOpcode.length) ∧ SameRegisters p q ∧ q.vmcs = p.vmcs ∧
      t.page k.page = initializedSecs s.cfg b s.nextEid k.phys ∧
      t.hiddenAt k.page =
        { updateCounter := 1, initialized := false
          mrenclave := ecreateMeasurement (BitVec.ofNat 32 (secsSsaframesize s.cfg b)) (BitVec.ofNat 64 (secsSize s.cfg b)) } ∧
      t.entry k.page =
        { valid := true, pt := s.cfg.ptSecs, enclaveAddress := 0, r := false, w := false, x := false
          blocked := false, pending := false, modified := false, pr := false, lock := .free } ∧
      t.nextEid = s.nextEid + 1 ∧ OutsideUntouched s t ∧
      (∀ a, a / pageBytes ≠ k.page → t.epcByte a = s.epcByte a) ∧
      (∀ n, n ≠ k.page → t.entry n = s.entry n ∧ t.hiddenAt n = s.hiddenAt n)

/-- THE COMPLETION OF ECREATE (R82, R122): with the launch premises met, the operands well placed, the entry free and not
valid and a source page that satisfies `secs_ok`, two transitions of the processor complete the instruction (D8). That the
instruction pointer moves by the length of `ENCLS_OPCODE` and wraps at the width of the mode is the model's choice (logs 1,
28): R18 puts its width and wrap outside the spec. -/
def Obligations.EcreateCompletes : Prop :=
  ∀ (s : State) (p : Processor) (k : Ticket) (b : Block), Admitted s p → OperandsOk s p k →
    s.entry k.page = { s.entry k.page with valid := false, lock := .free } →
    readOperand s.cfg p (s.tick.view 2) k.laSrc pageBytes = .ok b → SecsOk s.cfg b →
    ∃ t u q, exec .enclsEcreate s = .next t ∧ (t.entry k.page).lock = .held [s.active] ∧
      exec .enclsEcreate t = .next u ∧ u.current = some q ∧
      q.phase = .idle ∧ q.event = none ∧ q.pc = wrapAddress p.mode (p.pc + BitVec.ofNat 64 s.cfg.enclsOpcode.length) ∧ SameRegisters p q ∧
      u.page k.page = initializedSecs s.cfg b s.nextEid k.phys ∧
      u.hiddenAt k.page = initializedHidden s.cfg b ∧
      u.entry k.page = createdEntry s.cfg ∧ u.nextEid = s.nextEid + 1 ∧ OutsideUntouched s u ∧
      (∀ a, a / pageBytes ≠ k.page → u.epcByte a = s.epcByte a) ∧
      (∀ n, n ≠ k.page → u.entry n = s.entry n ∧ u.hiddenAt n = s.hiddenAt n)

/-- An ECREATE on a page that is already valid, all else in order, ends in a page fault that reports `DS:RCX`: two
transitions later the entry, its lock free, every page and `CR_NEXT_EID` are what they were (R63, R93, R153). -/
def Obligations.SecondEcreateRaisesPf : Prop :=
  ∀ (s : State) (p : Processor) (k : Ticket), Admitted s p → OperandsOk s p k →
    (s.entry k.page).lock = .free → (s.entry k.page).valid = true →
    ∃ t u, exec .enclsEcreate s = .next t ∧ exec .enclsEcreate t = .next u ∧
      u.current = some { p with event := some { event := .pf k.laSecs .enclaveWrite .epcmValid, pc := p.pc } } ∧
      u.nextEid = s.nextEid ∧ OutsideUntouched s u ∧
      ∀ n, u.entry n = s.entry n ∧ u.page n = s.page n ∧ u.hiddenAt n = s.hiddenAt n

/-- The bytes of a created SECS under any well-formed layout (R94, R111 to R113, R116 to R118): the six hardware fields
hold what the rules say, the bit that records initialisation is 0, every other bit is the copied one. In which order MRENCLAVE's
32 bytes hold the eight words is open (U22): that they are in the order the configuration gives is the model's choice (log 25). -/
def Obligations.CreatedSecsFieldByField : Prop :=
  ∀ (c : Config) (b : Block) (eid ctx : Word64), configWf c = true →
    getField (initializedSecs c b eid ctx) c.secs.eid = eid.toNat % 2 ^ c.secs.eid.len ∧
    getField (initializedSecs c b eid ctx) c.secs.isvsvn = 0 ∧
    getField (initializedSecs c b eid ctx) c.secs.isvprodid = 0 ∧
    getField (initializedSecs c b eid ctx) c.secs.virtchildcnt = 0 ∧
    getField (initializedSecs c b eid ctx) c.secs.enclavecontext = ctx.toNat % 2 ^ c.secs.enclavecontext.len ∧
    getField (initializedSecs c b eid ctx) c.secs.mrenclave =
      mrenclaveImage c.mrenclaveOrder (secsMeasurement c b) ∧
    (∀ f, c.attributes.init = some f → getField (initializedSecs c b eid ctx) (subField c.secs.attributes f) = 0) ∧
    ∀ i, i < 32768 →
      (∀ f ∈ [c.secs.eid, c.secs.isvsvn, c.secs.isvprodid, c.secs.virtchildcnt, c.secs.enclavecontext,
        c.secs.mrenclave], i < f.lo ∨ f.lo + f.len ≤ i) →
      (∀ f, c.attributes.init = some f →
        i < (subField c.secs.attributes f).lo ∨ (subField c.secs.attributes f).lo + f.len ≤ i) →
      (initializedSecs c b eid ctx).getLsbD i = b.getLsbD i

/-- R115: the 64 bytes given to the hash: the string, SSAFRAMESIZE and SIZE least significant byte first, zeros. -/
def Obligations.HashBlockBytes : Prop :=
  ∀ (ssa : Word32) (size : Word64),
    (List.range 8).map (bufferByte (updateField ssa size)) = [0x45, 0x43, 0x52, 0x45, 0x41, 0x54, 0x45, 0x00] ∧
    (∀ i, i < 4 → bufferByte (updateField ssa size) (8 + i) = BitVec.ofNat 8 (ssa.toNat >>> (8 * i))) ∧
    (∀ i, i < 8 → bufferByte (updateField ssa size) (12 + i) = BitVec.ofNat 8 (size.toNat >>> (8 * i))) ∧
    (∀ i, 20 ≤ i → bufferByte (updateField ssa size) i = 0)

/-- The worked example of R115 and vectors V48 and V72: the measurement of three SECS (SHA-256 is the model's, G17,
log 24). -/
def Obligations.MeasurementExamples : Prop :=
  ecreateMeasurement 1 0x10000 =
    ⟨0x7FA67358, 0xB44C5F95, 0x58915573, 0xF1511E13, 0xC9EAF0D3, 0xE4267C73, 0x12B80236, 0x05C61406⟩ ∧
  ecreateMeasurement 1 0x2000 =
    ⟨0x0C20FEC8, 0xE7B50BCB, 0xFCA1FC48, 0x2B096022, 0x0CDF571A, 0x389EE074, 0xA54391B4, 0xDC469308⟩ ∧
  ecreateMeasurement 0xFFFFFFFF 0x8000000000000000 =
    ⟨0x084860C5, 0xDC406192, 0x521BDB3D, 0x10AE8132, 0x847C81DD, 0x4109A4CC, 0xAD4B917F, 0xD5809CFF⟩

/-- R121: whatever the commit ends in, the lock is free and the processor is out of the instruction. -/
def Obligations.CommitReleasesLock : Prop :=
  ∀ (s t : State) (p : Processor) (k : Ticket), InCommit s p k → exec .enclsEcreate s = .next t →
    (t.entry k.page).lock = .free ∧ ∃ q, t.current = some q ∧ q.phase = .idle

/-- R116: `CR_NEXT_EID` changes only in a step in which a page becomes valid, and then by one, modulo 2^64; that page holds the
SECS initialised with the old value as its identifier, and the hidden state of a created SECS. That no other agent draws
identifiers is the model's choice (log 13): the spec names no other user of the register. -/
def Obligations.EidConsumedOnlyByCompletion : Prop :=
  ∀ (s t : State), step s = .next t →
    t.nextEid = s.nextEid ∨
      (t.nextEid = s.nextEid + 1 ∧
        ∃ n b ctx, (s.entry n).valid = false ∧ (t.entry n).valid = true ∧
          t.page n = initializedSecs s.cfg b s.nextEid ctx ∧ t.hiddenAt n = initializedHidden s.cfg b)

/-! ### Frames -/

/-- R19 and R16: no register, no flag, no mode bit of any processor is written, whatever the outcome, and no flag is read:
with other flags the transition is the same and leaves them alone. -/
def Obligations.RegistersAndFlagsKept : Prop :=
  ∀ (s t : State), exec .enclsEcreate s = .next t →
    ∃ p q, s.current = some p ∧ t.current = some q ∧ SameRegisters p q ∧
      (∀ j, j ≠ s.active → t.procs[j]? = s.procs[j]?) ∧
      ∀ f : Word64, exec .enclsEcreate (s.setCurrent { p with rflags := f }) =
        .next (t.setCurrent { q with rflags := f })

/-- R22: every byte of ordinary memory reads as before, and so do the configuration and the other agents' pending moves. -/
def Obligations.OrdinaryMemoryKept : Prop :=
  ∀ (s t : State), exec .enclsEcreate s = .next t →
    (∀ a, t.mem.read a = s.mem.read a) ∧ OutsideUntouched s t

/-- The acquire writes nothing but a lock (and, on an event, the processor's record): no byte of the EPC, no hidden
state, no `CR_NEXT_EID`, no other field of an EPCM entry (R44, R91). -/
def Obligations.AcquireWritesOnlyTheLock : Prop :=
  ∀ (s t : State) (p : Processor), s.current = some p → p.phase = .idle → exec .enclsEcreate s = .next t →
    EpcUntouched s t ∧ (∀ a, t.epcByte a = s.epcByte a) ∧ ∀ n, SameButLock (s.entry n) (t.entry n)

/-- The commit stores only into its own page: the 4096 bytes at frame `k.page` (R43, R44). Every other byte of the EPC
reads as before, and so do every other page's EPCM entry and hidden state. -/
def Obligations.CommitWritesOnlyItsPage : Prop :=
  ∀ (s t : State) (p : Processor) (k : Ticket), InCommit s p k → exec .enclsEcreate s = .next t →
    (∀ a, a < k.page * pageBytes ∨ k.page * pageBytes + pageBytes ≤ a → t.epcByte a = s.epcByte a) ∧
    ∀ n, n ≠ k.page → t.entry n = s.entry n ∧ t.hiddenAt n = s.hiddenAt n

/-- R134: a transition that ends in an event leaves `CR_NEXT_EID`, ordinary memory, registers and every field of every
EPCM entry but the lock as before, and the contents of every valid page; the recorded instruction pointer is that of the
ENCLS, and so is the processor's. -/
def Obligations.EventsArePrecise : Prop :=
  ∀ (s t : State) (p q : Processor) (r : EventRecord),
    s.current = some p → p.event = none → exec .enclsEcreate s = .next t → t.current = some q → q.event = some r →
    r.pc = p.pc ∧ q.pc = p.pc ∧ q.phase = .idle ∧ SameRegisters p q ∧ q.vmcs = vmcsAfter p.vmcs r.event ∧ t.nextEid = s.nextEid ∧ t.mem = s.mem ∧
      (∀ n, SameButLock (s.entry n) (t.entry n)) ∧
      (∀ n, (s.entry n).valid = true → t.page n = s.page n ∧ t.hiddenAt n = s.hiddenAt n)

/-- R154: an ECREATE never waits. (1) For an admitted state its first transition answers a next state, and where its operand
checks pass the source page is well placed, at an address of the mode's width (P5). (2) From a state where the source page
is, its second transition answers a next state that ends the instruction. (3) Every step of every agent keeps it so for
every started ECREATE (P6; that no other agent's move changes it is the model's, log 13). (4) Only where it is not, the
second transition of an ECREATE on a page that is not valid is refused, by name. -/
def Obligations.EcreateNeverWaits : Prop :=
  (∀ (s : State) (p : Processor), Admitted s p →
    (∃ t, exec .enclsEcreate s = .next t) ∧
    ∀ k, OperandsOk s p k → wrapAddress p.mode k.laSrc = k.laSrc ∧ Placed s.cfg p k.laSrc pageBytes) ∧
  (∀ (s : State) (p : Processor) (k : Ticket), InCommit s p k → wrapAddress p.mode k.laSrc = k.laSrc →
    Placed s.cfg p k.laSrc pageBytes →
    ∃ t q, exec .enclsEcreate s = .next t ∧ t.current = some q ∧ q.phase = .idle) ∧
  (∀ (s t : State), s.TicketsPlaced → step s = .next t → t.TicketsPlaced) ∧
  (∀ (s : State) (p : Processor) (k : Ticket), InCommit s p k → wrapAddress p.mode k.laSrc = k.laSrc →
    (s.entry k.page).valid = false → ¬ Placed s.cfg p k.laSrc pageBytes →
    exec .enclsEcreate s = .refused .operandInEpc ∨ exec .enclsEcreate s = .refused .operandHasSideEffects)

/-! ### Reading memory -/

/-- R50 and R55: byte k of what a read answers is the byte of memory at the translation of the k-th linear address. -/
def Obligations.MemReadIsByteByByte : Prop :=
  ∀ (c : Config) (p : Processor) (m : Memory) (la : Word64) (n : Nat) (b : Block),
    n ≤ pageBytes → wrapAddress p.mode la = la → readOperand c p m la n = .ok b →
    (∀ k, k < n → ∃ pa, translate p (wrapAddress p.mode (la + BitVec.ofNat 64 k)) .nonEnclaveRead = .phys pa ∧
      blockByte b k = m.read pa.toNat ∧ inRegions c.epc (frameOf pa) = false ∧
      inRegions c.sideEffects (frameOf pa) = false) ∧
    ∀ k, n ≤ k → blockByte b k = 0

/-- R61 and R64: a byte an ECREATE reads is what memory holds, what it held at a moment since the instruction started, or what
one of the first `reach` stores under way writes; with no other value about, it is the byte of memory. What a transition may
have seen is never missed later: when the instruction has ended, those stores have landed, in order, and its window is closed;
while it goes on, its window keeps what it must still see landed (log 14). -/
def Obligations.RacingReadsSeeOldOrNewBytes : Prop :=
  (∀ (s : State) (k a : Nat),
    ((s.view k).read a = s.mem.read a ∨ (∃ b, (a, b) ∈ s.past ∧ (s.view k).read a = b) ∨
      ∃ b, (a, b) ∈ s.racing.take s.reach ∧ (s.view k).read a = b) ∧
    ((∀ c ∈ s.past ++ s.racing, c.1 ≠ a) → (s.view k).read a = s.mem.read a)) ∧
  (∀ (s t : State) (q : Processor), exec .enclsEcreate s = .next t → t.current = some q →
    (q.phase = .idle →
      (settle s t).mem = applyRacing (fun _ => true) s.mem (s.racing.take s.reach) 0 ∧
        (settle s t).racing = s.racing.drop s.reach ∧ (settle s t).window s.active = none) ∧
    (∀ k, q.phase = .ecreate k →
      (settle s t).mem = s.mem ∧ (settle s t).racing = s.racing ∧
        (settle s t).window s.active = some { past := s.past, owed := s.reach })) ∧
  (∀ (s : State) (w : Window), s.window s.active = some w → min s.racing.length w.owed ≤ s.reach) ∧
  (∀ (s : State) (n i : Nat) (w : Window), s.window i = some w →
    (s.land n).window i = some { past := w.past ++ overwritten s.mem s.racing n, owed := w.owed - n })

/-! ### Whole-machine rules -/

/-- R15: the configuration is constant: no step changes it, and none changes the number of processors. That no other agent
changes it either is the model's choice (logs 3, 13). -/
def Obligations.ConfigurationIsConstant : Prop :=
  ∀ (s t : State), step s = .next t → t.cfg = s.cfg ∧ t.procs.length = s.procs.length

/-- No step of any agent makes a valid page not valid, writes its contents or its hidden state, or a field of its EPCM
entry other than the lock. Of an ECREATE the spec says so (R133 e, R134); that no OTHER agent does is the model's choice
(log 13): the leaves that free or change a page are not in the spec (R144), and the model leaves them out. -/
def Obligations.ValidPageIsNeverOverwritten : Prop :=
  ∀ (s t : State) (n : Nat), step s = .next t → (s.entry n).valid = true →
    SameButLock (s.entry n) (t.entry n) ∧ t.page n = s.page n ∧ t.hiddenAt n = s.hiddenAt n

/-- A page becomes valid only as the SECS of a copy that satisfied `secs_ok`, with the identifier the counter held, the
measurement of that copy and an entry whose lock is free (R82, R151). That no other agent makes a page valid is the model's
choice (log 13). -/
def Obligations.OnlyCheckedSecsBecomesValid : Prop :=
  ∀ (s t : State) (n : Nat), configWf s.cfg = true → s.TicketsInEpc → step s = .next t →
    (s.entry n).valid = false → (t.entry n).valid = true →
    ∃ b ctx, SecsOk s.cfg b ∧ s.inEpc n = true ∧ n = frameOf ctx ∧
      t.page n = initializedSecs s.cfg b s.nextEid ctx ∧ t.hiddenAt n = initializedHidden s.cfg b ∧
      t.entry n = createdEntry s.cfg ∧ t.nextEid = s.nextEid + 1

/-- R119 and R120: whenever an ECREATE makes a page valid, its EPCM entry is that of an SECS page: type PT_SECS, enclave
address 0, no permission, and not blocked, pending, modified or restricted. -/
def Obligations.NewlyValidEntryIsSecsEntry : Prop :=
  ∀ (s t : State) (n : Nat), exec .enclsEcreate s = .next t → (s.entry n).valid = false → (t.entry n).valid = true →
    (t.entry n).pt = s.cfg.ptSecs ∧ (t.entry n).enclaveAddress = 0 ∧ (t.entry n).r = false ∧ (t.entry n).w = false ∧
      (t.entry n).x = false ∧ (t.entry n).blocked = false ∧ (t.entry n).pending = false ∧
      (t.entry n).modified = false ∧ (t.entry n).pr = false

/-- R113 and R117: whenever an ECREATE makes a page valid, ISVSVN, ISVPRODID and VIRTCHILDCNT of its SECS are zero, whatever
the source page held in them. -/
def Obligations.NewlyValidSecsCountsAreZero : Prop :=
  ∀ (s t : State) (n : Nat), configWf s.cfg = true → exec .enclsEcreate s = .next t → (s.entry n).valid = false →
    (t.entry n).valid = true →
    getField (t.page n) s.cfg.secs.isvsvn = 0 ∧ getField (t.page n) s.cfg.secs.isvprodid = 0 ∧
      getField (t.page n) s.cfg.secs.virtchildcnt = 0

/-- No move of system software or of another leaf changes the contents of the EPC, `CR_NEXT_EID`, or a field of an EPCM entry
other than the lock. This is the MODEL'S OWN CHOICE of what these agents can do (log 13): the spec does not say what other
leaves write, nor what an entry's permissions mean for later accesses (R6 b, R58, R144). -/
def Obligations.SoftwareCannotTouchEpc : Prop :=
  ∀ (s t : State) (m : Move), agentMove s m = .next t →
    EpcUntouched s t ∧ (∀ a, t.epcByte a = s.epcByte a) ∧ ∀ n, SameButLock (s.entry n) (t.entry n)

/-- R68: while a processor is between the two transitions on a page, another leaf's request for the entry finds it in use and
changes nothing, and neither software nor another leaf can run on that processor (the moves are the model's, log 13). -/
def Obligations.EntryExclusiveDuringEcreate : Prop :=
  ∀ (s : State) (i : Nat) (p q : Processor) (k : Ticket) (a : Nat),
    s.procs[i]? = some p → p.phase = .ecreate k → s.inEpc k.page = true →
    (s.inOtherLeaf a = true → agentMove s (.hold k.page a) = .next s ∧ agentMove s (.unhold k.page a) = .next s) ∧
      agentMove s (.software i q) = .refused .insideInstruction ∧
      agentMove s (.leafBegin i) = .refused .insideInstruction ∧
      agentMove s (.start i) = .refused .insideInstruction ∧
      agentMove s (.hold k.page i) = .refused .notInOtherLeaf

/-- R137 and R153: after an event the handler returns to the same ENCLS: the processor is as it was before, but for a
VMCS that a VM exit wrote, and it has kept nothing of the ECREATE that ended (the move `resume` is the model's, logs 11,
13; the end of the ECREATE is settled first, log 14). -/
def Obligations.ResumeRestoresProcessor : Prop :=
  ∀ (s t : State) (p q : Processor) (r : EventRecord),
    s.current = some p → p.event = none → exec .enclsEcreate s = .next t → t.current = some q → q.event = some r →
    ∃ u, agentMove (settle s t) (.resume s.active) = .next u ∧
      u.current = some { p with phase := .idle, vmcs := vmcsAfter p.vmcs r.event }

/-! ### Invariants of every step -/

/-- Memory, EPC, EPCM, hidden state and the model's own lists keep their canonical form in every step of every agent (logs 7,
8, 14, 15). -/
def Obligations.StepKeepsCanonicalForm : Prop :=
  ∀ (s t : State), s.Canonical → step s = .next t → t.Canonical

/-- The state after reset has the canonical form. -/
def Obligations.ResetIsCanonical : Prop := State.reset.Canonical

/-- Every step of every agent keeps the exclusive hold of an ECREATE on its entry (R26, R66, R141; the other agents' moves are
the model's, log 13). -/
def Obligations.StepKeepsExclusiveHold : Prop :=
  ∀ (s t : State), s.Exclusive → step s = .next t → t.Exclusive

/-- No processor is inside an ECREATE after reset (log 6) and every lock is free (log 8), so the exclusive hold, the tickets and
the locks are as they should be. -/
def Obligations.ResetIsExclusive : Prop :=
  State.reset.Exclusive ∧ State.reset.TicketsInEpc ∧ State.reset.TicketsPlaced ∧ State.reset.LocksHeld

/-- P4 of R149: in every step of every agent, every EPCM lock stays free or held by agents that are executing a leaf (log 41;
the other agents' moves are the model's, log 13). -/
def Obligations.StepKeepsLocksHeld : Prop :=
  ∀ (s t : State), s.LocksHeld → step s = .next t → t.LocksHeld

/-- Every step of every agent keeps every ticket on an EPC page, through the address paging gave (R85). That the other agents'
moves leave tickets and phases alone, and that none changes the set EPC, is the model's choice (logs 13, 3). -/
def Obligations.StepKeepsTicketsInEpc : Prop :=
  ∀ (s t : State), s.TicketsInEpc → step s = .next t → t.TicketsInEpc

/-- R141 (a): of two processors that are between the two transitions, each has a page of its own. -/
def Obligations.TwoEcreatesNeverShareAPage : Prop :=
  ∀ (s : State) (i j : Nat) (p q : Processor) (k l : Ticket), s.Exclusive →
    s.procs[i]? = some p → s.procs[j]? = some q → p.phase = .ecreate k → q.phase = .ecreate l → i ≠ j →
    k.page ≠ l.page

/-- The state after reset meets the launch premises P1 to P5 (R149); its values are the model's (logs 4 to 9). -/
def Obligations.ResetMeetsLaunchPremises : Prop :=
  Admitted State.reset Processor.reset ∧ State.reset.mem = [] ∧ State.reset.epc = [] ∧
    (∀ n, (State.reset.entry n).valid = false ∧ (State.reset.entry n).lock = .free)
end

