-- ==== Sys2Proof/Laws/Assoc.lean ====
section
/-! SUPPORT. Lists of keys and values: reading after writing, and the canonical form is kept. -/

namespace Sys2Proof.Machine

variable {α : Type} {d : α}

@[simp] theorem Assoc.read_nil (k : Nat) : Assoc.read d [] k = d := rfl

theorem Assoc.read_cons (c : Nat × α) (t : List (Nat × α)) (k : Nat) :
    Assoc.read d (c :: t) k = if c.1 = k then c.2 else Assoc.read d t k := rfl

/-- A part of a list that does not list the key is skipped. -/
theorem Assoc.read_append_of_not_listed {l : List (Nat × α)} (t : List (Nat × α)) {k : Nat}
    (h : ∀ c ∈ l, c.1 ≠ k) : Assoc.read d (l ++ t) k = Assoc.read d t k := by
  induction l with
  | nil => rfl
  | cons c l ih =>
    simp only [List.cons_append, Assoc.read_cons, h c (by simp), if_false]
    exact ih fun c' hc' => h c' (by simp [hc'])

/-- A key nothing lists reads as the value of an unlisted key. -/
theorem Assoc.read_of_not_listed {l : List (Nat × α)} {k : Nat} (h : ∀ c ∈ l, c.1 ≠ k) :
    Assoc.read d l k = d := by
  simpa using Assoc.read_append_of_not_listed (d := d) [] h

/-- What a list says of a key survives anything that stands behind it and does not list the key. -/
theorem Assoc.read_append_of_tail_not_listed (l : List (Nat × α)) {t : List (Nat × α)} {k : Nat}
    (h : ∀ c ∈ t, c.1 ≠ k) : Assoc.read d (l ++ t) k = Assoc.read d l k := by
  induction l with
  | nil => simpa using Assoc.read_of_not_listed (d := d) h
  | cons c l ih => simp only [List.cons_append, Assoc.read_cons, ih]

/-- Leaving out entries at other keys changes nothing. -/
theorem Assoc.read_filter (l : List (Nat × α)) (p : Nat → Bool) {k : Nat} (h : p k = true) :
    Assoc.read d (l.filter fun c => p c.1) k = Assoc.read d l k := by
  induction l with
  | nil => rfl
  | cons c l ih =>
    by_cases hc : c.1 = k
    · simp [hc, h, Assoc.read_cons]
    · by_cases hp : p c.1 = true
      · simp [hp, Assoc.read_cons, hc, ih]
      · simp [hp, Assoc.read_cons, hc, ih]

theorem Assoc.not_listed_below {l : List (Nat × α)} {lo k : Nat} (h : lo ≤ k) :
    ∀ c ∈ l.filter (fun c => decide (c.1 < lo)), c.1 ≠ k := by
  intro c hc
  simp only [List.mem_filter, decide_eq_true_eq] at hc
  omega

theorem Assoc.not_listed_above {l : List (Nat × α)} {hi k : Nat} (h : k < hi) :
    ∀ c ∈ l.filter (fun c => decide (hi ≤ c.1)), c.1 ≠ k := by
  intro c hc
  simp only [List.mem_filter, decide_eq_true_eq] at hc
  omega

/-- Inside the replaced range, only the new entries count. -/
theorem Assoc.read_splice_inside (l : List (Nat × α)) (mid : List (Nat × α)) {lo hi k : Nat}
    (h : lo ≤ k ∧ k < hi) : Assoc.read d (Assoc.splice l lo hi mid) k = Assoc.read d mid k := by
  unfold Assoc.splice
  rw [List.append_assoc, Assoc.read_append_of_not_listed _ (Assoc.not_listed_below h.1),
    Assoc.read_append_of_tail_not_listed _ (Assoc.not_listed_above h.2)]

/-- Outside the replaced range, nothing changes. -/
theorem Assoc.read_splice_outside (l : List (Nat × α)) {mid : List (Nat × α)} {lo hi k : Nat} (hle : lo ≤ hi)
    (hmid : ∀ c ∈ mid, lo ≤ c.1 ∧ c.1 < hi) (h : k < lo ∨ hi ≤ k) :
    Assoc.read d (Assoc.splice l lo hi mid) k = Assoc.read d l k := by
  have hm : ∀ c ∈ mid, c.1 ≠ k := fun c hc => by have := hmid c hc; omega
  unfold Assoc.splice
  rw [List.append_assoc]
  rcases h with h | h
  · rw [Assoc.read_append_of_tail_not_listed]
    · exact Assoc.read_filter l (fun a => decide (a < lo)) (by simpa using h)
    · intro c hc
      rcases List.mem_append.1 hc with hc | hc
      · exact hm c hc
      · exact Assoc.not_listed_above (by omega) c hc
  · rw [Assoc.read_append_of_not_listed _ (Assoc.not_listed_below (by omega)),
      Assoc.read_append_of_not_listed _ hm]
    exact Assoc.read_filter l (fun a => decide (hi ≤ a)) (by simpa using h)

/-- Replacing a range by entries of that range in canonical form keeps the canonical form. -/
theorem Assoc.splice_wf {l mid : List (Nat × α)} {lo hi : Nat} (hle : lo ≤ hi) (hl : Assoc.Wf d l)
    (hmid : Assoc.Wf d mid) (hin : ∀ c ∈ mid, lo ≤ c.1 ∧ c.1 < hi) : Assoc.Wf d (Assoc.splice l lo hi mid) := by
  unfold Assoc.splice
  refine ⟨?_, fun c hc => ?_⟩
  · rw [List.pairwise_append, List.pairwise_append]
    refine ⟨⟨hl.1.filter _, hmid.1, fun x hx y hy => ?_⟩, hl.1.filter _, fun x hx y hy => ?_⟩
    · have := hin y hy
      simp only [List.mem_filter, decide_eq_true_eq] at hx
      omega
    · simp only [List.mem_filter, List.mem_append, decide_eq_true_eq] at hx hy
      rcases hx with hx | hx
      · omega
      · have := hin x hx
        omega
  · simp only [List.mem_append, List.mem_filter] at hc
    rcases hc with (hc | hc) | hc
    · exact hl.2 c hc.1
    · exact hmid.2 c hc
    · exact hl.2 c hc.1

variable [DecidableEq α]

/-- A read of the key written gives the value written. -/
@[simp] theorem Assoc.read_write_same (l : List (Nat × α)) (k : Nat) (v : α) :
    Assoc.read d (Assoc.write d l k v) k = v := by
  unfold Assoc.write
  rw [Assoc.read_splice_inside _ _ ⟨Nat.le_refl k, Nat.lt_succ_self k⟩]
  by_cases h : v = d <;> simp [h, Assoc.read_cons]

/-- A write leaves every other key alone. -/
theorem Assoc.read_write_other (l : List (Nat × α)) {k k' : Nat} (v : α) (h : k' ≠ k) :
    Assoc.read d (Assoc.write d l k v) k' = Assoc.read d l k' := by
  refine Assoc.read_splice_outside l (Nat.le_succ k) (fun c hc => ?_) (by omega)
  by_cases hv : v = d
  · simp [hv] at hc
  · simp only [hv, if_false, List.mem_singleton] at hc
    simp [hc]

/-- A write keeps the canonical form. -/
theorem Assoc.write_wf {l : List (Nat × α)} (k : Nat) (v : α) (h : Assoc.Wf d l) :
    Assoc.Wf d (Assoc.write d l k v) := by
  refine Assoc.splice_wf (Nat.le_succ k) h ?_ fun c hc => ?_
  · by_cases hv : v = d <;> simp [Assoc.Wf, hv]
  · by_cases hv : v = d
    · simp [hv] at hc
    · simp only [hv, if_false, List.mem_singleton] at hc
      simp [hc]

end Sys2Proof.Machine
end

