-- ==== Sys2Proof/Laws/Memory.lean ====
section
/-! SUPPORT. Memory: what a read gives after a write, a load and a store, and the canonical form is kept. -/

namespace Sys2Proof.Machine

/-! ### Bytes of a block -/

theorem blockByte_getLsbD (b : Block) (k i : Nat) :
    (blockByte b k).getLsbD i = (decide (i < 8) && b.getLsbD (8 * k + i)) := by
  simp [blockByte]

@[simp] theorem blockByte_zero (k : Nat) : blockByte 0#32768 k = 0#8 := by
  apply BitVec.eq_of_getLsbD_eq
  intro i _
  rw [blockByte_getLsbD, BitVec.getLsbD_zero, Bool.and_false, BitVec.getLsbD_zero]

/-- Two blocks with the same 4096 bytes are the same. -/
theorem block_ext {a b : Block} (h : ∀ k, k < pageBytes → blockByte a k = blockByte b k) : a = b := by
  apply BitVec.eq_of_getLsbD_eq
  intro i hi
  have hk := congrArg (fun v => v.getLsbD (i % 8)) (h (i / 8) (by unfold pageBytes; omega))
  have h8 : i % 8 < 8 := Nat.mod_lt _ (by omega)
  simpa only [blockByte_getLsbD, h8, Nat.div_add_mod, decide_true, Bool.true_and] using hk

theorem byteMask_getLsbD (j : Nat) : (255#32768).getLsbD j = decide (j < 8) := by
  rw [BitVec.getLsbD_ofNat, show (255 : Nat) = 2 ^ 8 - 1 from rfl, Nat.testBit_two_pow_sub_one]
  by_cases h : j < 8
  · simp only [h, decide_true, Bool.and_true, decide_eq_true_eq]
    omega
  · simp only [h, decide_false, Bool.and_false]

theorem setBlockByte_getLsbD (b : Block) (k : Nat) (v : Byte) (i : Nat) :
    (setBlockByte b k v).getLsbD i =
      (decide (i < 32768) && (if i / 8 = k then v.getLsbD (i % 8) else b.getLsbD i)) := by
  simp only [setBlockByte, BitVec.getLsbD_or, BitVec.getLsbD_and, BitVec.getLsbD_not, BitVec.getLsbD_shiftLeft,
    byteMask_getLsbD, BitVec.getLsbD_setWidth]
  by_cases hi : i < 32768
  · by_cases hk : i / 8 = k
    · subst hk
      have h1 : ¬ i < 8 * (i / 8) := by omega
      have h2 : i - 8 * (i / 8) = i % 8 := by omega
      have h3 : i % 8 < 8 := Nat.mod_lt _ (by omega)
      have h4 : i % 8 < 32768 := by omega
      simp only [hi, h1, h2, h3, h4, decide_true, decide_false, Bool.not_false, Bool.and_true, Bool.true_and,
        Bool.not_true, Bool.and_false, Bool.false_or, if_true]
    · by_cases hlt : i < 8 * k
      · simp only [hi, hk, hlt, decide_true, Bool.not_true, Bool.and_false, Bool.false_and, Bool.not_false,
          Bool.and_true, Bool.or_false, Bool.true_and, if_false]
      · have h8 : ¬ i - 8 * k < 8 := by omega
        simp only [hi, hk, hlt, h8, BitVec.getLsbD_of_ge v _ (Nat.le_of_not_lt h8), decide_true, decide_false,
          Bool.not_false, Bool.and_true, Bool.and_false, Bool.or_false, Bool.true_and, if_false]
  · simp only [hi, BitVec.getLsbD_of_ge b i (Nat.le_of_not_lt hi), decide_false, Bool.false_and, Bool.or_false]

theorem blockByte_setBlockByte (b : Block) {k : Nat} (v : Byte) (hk : k < pageBytes) (j : Nat) :
    blockByte (setBlockByte b k v) j = if j = k then v else blockByte b j := by
  apply BitVec.eq_of_getLsbD_eq
  intro i hi
  have hd : (8 * j + i) / 8 = j := by omega
  have hm : (8 * j + i) % 8 = i := by omega
  rw [blockByte_getLsbD, setBlockByte_getLsbD, hd, hm]
  unfold pageBytes at hk
  by_cases hj : j = k
  · have hlt : 8 * j + i < 32768 := by omega
    simp only [hj, hi, decide_true, Bool.true_and, if_true]
    rw [← hj]
    simp only [hlt, decide_true, Bool.true_and]
  · by_cases hlt : 8 * j + i < 32768
    · simp only [hj, hi, hlt, decide_true, Bool.true_and, if_false, blockByte_getLsbD]
    · simp only [hj, hi, hlt, decide_true, decide_false, Bool.true_and, Bool.false_and, if_false, blockByte_getLsbD,
        BitVec.getLsbD_of_ge b _ (Nat.le_of_not_lt hlt)]

/-! ### Single bytes -/

@[simp] theorem Memory.read_write_same (m : Memory) (a : Nat) (b : Byte) : (m.write a b).read a = b :=
  Assoc.read_write_same (d := Memory.unlisted) m a b

theorem Memory.read_write_other (m : Memory) {a a' : Nat} (b : Byte) (h : a' ≠ a) :
    (m.write a b).read a' = m.read a' :=
  Assoc.read_write_other (d := Memory.unlisted) m b h

theorem Memory.write_wf {m : Memory} (a : Nat) (b : Byte) (h : m.wf) : (m.write a b).wf :=
  Assoc.write_wf (d := Memory.unlisted) a b h

/-! ### Loads and stores -/

/-- Byte k of a load is the byte at the k-th address; above the bytes loaded there is nothing. -/
theorem Memory.blockByte_load (m : Memory) (base : Nat) {n : Nat} (hn : n ≤ pageBytes) (k : Nat) :
    blockByte (m.load base n) k = if k < n then m.read (base + k) else 0 := by
  induction m with
  | nil =>
    rw [show Memory.load [] base n = 0#32768 from rfl, show Memory.read [] (base + k) = 0#8 from rfl, blockByte_zero]
    exact (ite_self _).symm
  | cons c t ih =>
    have hl : Memory.load (c :: t) base n =
        if base ≤ c.1 ∧ c.1 < base + n then setBlockByte (Memory.load t base n) (c.1 - base) c.2
        else Memory.load t base n := rfl
    have hr : Memory.read (c :: t) (base + k) = if c.1 = base + k then c.2 else Memory.read t (base + k) := rfl
    rw [hl, hr]
    by_cases hin : base ≤ c.1 ∧ c.1 < base + n
    · rw [if_pos hin, blockByte_setBlockByte _ _ (by omega), ih]
      by_cases hk : k = c.1 - base
      · have h1 : k < n := by omega
        have h2 : c.1 = base + k := by omega
        simp [hk, hin.1]
        omega
      · have h2 : ¬ c.1 = base + k := by omega
        simp [hk, h2]
    · rw [if_neg hin, ih]
      by_cases hk : k < n
      · have h2 : ¬ c.1 = base + k := by omega
        simp [hk, h2]
      · simp [hk]

/-- The listed bytes of a block lie in their range. -/
theorem blockCells_inside {base n : Nat} {b : Block} :
    ∀ c ∈ blockCells base n b, base ≤ c.1 ∧ c.1 < base + n := by
  intro c hc
  simp only [blockCells, List.mem_filterMap, List.mem_range] at hc
  obtain ⟨k, hk, he⟩ := hc
  by_cases hz : blockByte b k = Memory.unlisted
  · simp [hz] at he
  · simp only [hz, if_false, Option.some.injEq] at he
    subst he
    exact ⟨Nat.le_add_right _ _, by simpa using hk⟩

theorem blockCells_succ (base n : Nat) (b : Block) :
    blockCells base (n + 1) b = blockCells base n b ++
      (if blockByte b n = Memory.unlisted then [] else [(base + n, blockByte b n)]) := by
  unfold blockCells
  rw [List.range_succ, List.filterMap_append]
  by_cases h : blockByte b n = Memory.unlisted <;> simp [h]

theorem blockCells_wf (base n : Nat) (b : Block) : Memory.wf (blockCells base n b) := by
  induction n with
  | zero => simp [blockCells, Memory.wf, Assoc.Wf]
  | succ n ih =>
    rw [blockCells_succ]
    refine ⟨List.pairwise_append.2 ⟨ih.1, ?_, fun x hx y hy => ?_⟩, fun c hc => ?_⟩
    · by_cases h : blockByte b n = Memory.unlisted <;> simp [h]
    · have := blockCells_inside x hx
      by_cases h : blockByte b n = Memory.unlisted
      · simp [h] at hy
      · simp only [h, if_false, List.mem_singleton] at hy
        subst hy
        omega
    · rcases List.mem_append.1 hc with hc | hc
      · exact ih.2 c hc
      · by_cases h : blockByte b n = Memory.unlisted
        · simp [h] at hc
        · simp only [h, if_false, List.mem_singleton] at hc
          subst hc
          exact h

theorem read_blockCells (base n : Nat) (b : Block) {k : Nat} (hk : k < n) :
    Memory.read (blockCells base n b) (base + k) = blockByte b k := by
  induction n with
  | zero => omega
  | succ n ih =>
    rw [blockCells_succ, Memory.read]
    by_cases hkn : k < n
    · rw [Assoc.read_append_of_tail_not_listed]
      · exact ih hkn
      · intro c hc
        by_cases h : blockByte b n = Memory.unlisted
        · simp [h] at hc
        · simp only [h, if_false, List.mem_singleton] at hc
          subst hc
          simp
          omega
    · have hkn' : k = n := by omega
      subst hkn'
      rw [Assoc.read_append_of_not_listed]
      · by_cases h : blockByte b k = Memory.unlisted
        · simp [h]
        · simp [h, Assoc.read_cons]
      · intro c hc
        have := blockCells_inside c hc
        omega

/-- Inside the bytes stored, a read gives the block's byte. -/
theorem Memory.read_store_inside (m : Memory) (base n : Nat) (b : Block) {k : Nat} (hk : k < n) :
    (m.store base n b).read (base + k) = blockByte b k := by
  unfold Memory.store Memory.read
  rw [Assoc.read_splice_inside _ _ ⟨by omega, by omega⟩]
  exact read_blockCells base n b hk

/-- A store leaves every byte outside alone. -/
theorem Memory.read_store_outside (m : Memory) {base n : Nat} (b : Block) {a : Nat} (h : a < base ∨ base + n ≤ a) :
    (m.store base n b).read a = m.read a :=
  Assoc.read_splice_outside m (Nat.le_add_right _ _) blockCells_inside h

theorem Memory.store_wf {m : Memory} (base n : Nat) (b : Block) (h : m.wf) : (m.store base n b).wf :=
  Assoc.splice_wf (Nat.le_add_right _ _) h (blockCells_wf base n b) blockCells_inside

/-- A page loaded back after it was stored is the page. -/
@[simp] theorem Memory.load_store_page (m : Memory) (base : Nat) (b : Block) :
    (m.store base pageBytes b).load base pageBytes = b :=
  block_ext fun k hk => by
    rw [Memory.blockByte_load _ _ (Nat.le_refl _), if_pos hk, Memory.read_store_inside _ _ _ _ hk]

/-- A page outside the bytes stored is loaded as before. -/
theorem Memory.load_store_other (m : Memory) {base base' : Nat} (b : Block)
    (h : base' + pageBytes ≤ base ∨ base + pageBytes ≤ base') :
    (m.store base pageBytes b).load base' pageBytes = m.load base' pageBytes :=
  block_ext fun k hk => by
    rw [Memory.blockByte_load _ _ (Nat.le_refl _), Memory.blockByte_load _ _ (Nat.le_refl _), if_pos hk, if_pos hk,
      Memory.read_store_outside]
    omega

/-- Landing or seeing stores under way keeps the canonical form. -/
theorem applyRacing_wf (seen : Nat → Bool) (cells : List Host.Cell) (i : Nat) {m : Memory} (h : m.wf) :
    (applyRacing seen m cells i).wf := by
  induction cells generalizing m i with
  | nil => exact h
  | cons c t ih =>
    unfold applyRacing
    apply ih
    split
    · exact Memory.write_wf _ _ h
    · exact h

/-- A byte of memory with cells written that a choice function says is the byte of memory, or one that a chosen cell
names for it (the `j`-th from `i` on). -/
theorem applyRacing_read (seen : Nat → Bool) (m : Memory) (cells : List Host.Cell) (i a : Nat) :
    (applyRacing seen m cells i).read a = m.read a ∨
      ∃ j b, cells[j]? = some (a, b) ∧ seen (i + j) = true ∧ (applyRacing seen m cells i).read a = b := by
  induction cells generalizing m i with
  | nil => exact Or.inl rfl
  | cons c t ih =>
    unfold applyRacing
    rcases ih (if seen i then m.write c.1 c.2 else m) (i + 1) with h | ⟨j, b, h1, h2, h3⟩
    · rw [h]
      split
      · rename_i hs
        by_cases ha : a = c.1
        · subst ha
          exact Or.inr ⟨0, c.2, rfl, hs, Memory.read_write_same m _ _⟩
        · exact Or.inl (Memory.read_write_other m _ ha)
      · exact Or.inl rfl
    · exact Or.inr ⟨j + 1, b, h1, by rw [← h2]; congr 1; omega, h3⟩

/-- What lands of the cells is what lands of the first of them. -/
theorem applyRacing_first (m : Memory) (cells : List Host.Cell) (n i : Nat) :
    applyRacing (fun j => decide (j < i + n)) m cells i = applyRacing (fun _ => true) m (cells.take n) i := by
  induction cells generalizing m n i with
  | nil => simp [applyRacing]
  | cons c t ih =>
    cases n with
    | zero =>
      have h : ∀ (l : List Host.Cell) (k : Nat), i ≤ k → applyRacing (fun j => decide (j < i + 0)) m l k = m := by
        intro l
        induction l with
        | nil => intro k _; rfl
        | cons d u ihu =>
          intro k hk
          unfold applyRacing
          rw [if_neg (by simp; omega)]
          exact ihu (k + 1) (by omega)
      rw [h _ _ (Nat.le_refl _)]
      rfl
    | succ n =>
      simp only [applyRacing, List.take_succ_cons]
      rw [if_pos (by simp), ← ih, if_pos trivial]
      congr 1
      funext j
      congr 2
      omega

/-- The cells behind the first ones. -/
theorem behind_eq_drop (cells : List Host.Cell) (n : Nat) : behind cells n = cells.drop n := by
  induction cells generalizing n with
  | nil => simp [behind]
  | cons c t ih =>
    cases n with
    | zero => rfl
    | succ n => exact ih n

end Sys2Proof.Machine
end

