-- ==== Sys2Proof/Laws/State.lean ====
section
/-! SUPPORT. One lemma per field per named update of the state, so that no proof unfolds a record update. -/

namespace Sys2Proof.Machine

variable (s : State)

/-! ### `State.setCurrent` -/

@[simp] theorem State.setCurrent_cfg (p : Processor) : (s.setCurrent p).cfg = s.cfg := rfl
@[simp] theorem State.setCurrent_procs (p : Processor) : (s.setCurrent p).procs = s.procs.set s.active p := rfl
@[simp] theorem State.setCurrent_active (p : Processor) : (s.setCurrent p).active = s.active := rfl
@[simp] theorem State.setCurrent_mem (p : Processor) : (s.setCurrent p).mem = s.mem := rfl
@[simp] theorem State.setCurrent_epc (p : Processor) : (s.setCurrent p).epc = s.epc := rfl
@[simp] theorem State.setCurrent_hidden (p : Processor) : (s.setCurrent p).hidden = s.hidden := rfl
@[simp] theorem State.setCurrent_scrambled (p : Processor) : (s.setCurrent p).scrambled = s.scrambled := rfl
@[simp] theorem State.setCurrent_epcm (p : Processor) : (s.setCurrent p).epcm = s.epcm := rfl
@[simp] theorem State.setCurrent_nextEid (p : Processor) : (s.setCurrent p).nextEid = s.nextEid := rfl
@[simp] theorem State.setCurrent_turns (p : Processor) : (s.setCurrent p).turns = s.turns := rfl
@[simp] theorem State.setCurrent_racing (p : Processor) : (s.setCurrent p).racing = s.racing := rfl
@[simp] theorem State.setCurrent_windows (p : Processor) : (s.setCurrent p).windows = s.windows := rfl
@[simp] theorem State.setCurrent_freeIndex (p : Processor) : (s.setCurrent p).freeIndex = s.freeIndex := rfl

/-! ### `State.setProc` -/

@[simp] theorem State.setProc_procs (i : Nat) (p : Processor) : (s.setProc i p).procs = s.procs.set i p := rfl
@[simp] theorem State.setProc_cfg (i : Nat) (p : Processor) : (s.setProc i p).cfg = s.cfg := rfl
@[simp] theorem State.setProc_active (i : Nat) (p : Processor) : (s.setProc i p).active = s.active := rfl
@[simp] theorem State.setProc_mem (i : Nat) (p : Processor) : (s.setProc i p).mem = s.mem := rfl
@[simp] theorem State.setProc_epc (i : Nat) (p : Processor) : (s.setProc i p).epc = s.epc := rfl
@[simp] theorem State.setProc_hidden (i : Nat) (p : Processor) : (s.setProc i p).hidden = s.hidden := rfl
@[simp] theorem State.setProc_scrambled (i : Nat) (p : Processor) : (s.setProc i p).scrambled = s.scrambled := rfl
@[simp] theorem State.setProc_epcm (i : Nat) (p : Processor) : (s.setProc i p).epcm = s.epcm := rfl
@[simp] theorem State.setProc_nextEid (i : Nat) (p : Processor) : (s.setProc i p).nextEid = s.nextEid := rfl
@[simp] theorem State.setProc_turns (i : Nat) (p : Processor) : (s.setProc i p).turns = s.turns := rfl
@[simp] theorem State.setProc_racing (i : Nat) (p : Processor) : (s.setProc i p).racing = s.racing := rfl
@[simp] theorem State.setProc_windows (i : Nat) (p : Processor) : (s.setProc i p).windows = s.windows := rfl
@[simp] theorem State.setProc_freeIndex (i : Nat) (p : Processor) : (s.setProc i p).freeIndex = s.freeIndex := rfl

/-! ### `State.tick` -/

@[simp] theorem State.tick_cfg : s.tick.cfg = s.cfg := rfl
@[simp] theorem State.tick_procs : s.tick.procs = s.procs := rfl
@[simp] theorem State.tick_active : s.tick.active = s.active := rfl
@[simp] theorem State.tick_mem : s.tick.mem = s.mem := rfl
@[simp] theorem State.tick_epc : s.tick.epc = s.epc := rfl
@[simp] theorem State.tick_hidden : s.tick.hidden = s.hidden := rfl
@[simp] theorem State.tick_scrambled : s.tick.scrambled = s.scrambled := rfl
@[simp] theorem State.tick_epcm : s.tick.epcm = s.epcm := rfl
@[simp] theorem State.tick_nextEid : s.tick.nextEid = s.nextEid := rfl
@[simp] theorem State.tick_turns : s.tick.turns = s.turns := rfl
@[simp] theorem State.tick_racing : s.tick.racing = s.racing := rfl
@[simp] theorem State.tick_windows : s.tick.windows = s.windows := rfl
@[simp] theorem State.tick_freeIndex : s.tick.freeIndex = s.freeIndex + 1 := rfl

/-! ### `State.setWindow` -/

@[simp] theorem State.setWindow_cfg (i : Nat) (w : Option Window) : (s.setWindow i w).cfg = s.cfg := rfl
@[simp] theorem State.setWindow_procs (i : Nat) (w : Option Window) : (s.setWindow i w).procs = s.procs := rfl
@[simp] theorem State.setWindow_active (i : Nat) (w : Option Window) : (s.setWindow i w).active = s.active := rfl
@[simp] theorem State.setWindow_mem (i : Nat) (w : Option Window) : (s.setWindow i w).mem = s.mem := rfl
@[simp] theorem State.setWindow_epc (i : Nat) (w : Option Window) : (s.setWindow i w).epc = s.epc := rfl
@[simp] theorem State.setWindow_hidden (i : Nat) (w : Option Window) : (s.setWindow i w).hidden = s.hidden := rfl
@[simp] theorem State.setWindow_scrambled (i : Nat) (w : Option Window) :
    (s.setWindow i w).scrambled = s.scrambled := rfl
@[simp] theorem State.setWindow_epcm (i : Nat) (w : Option Window) : (s.setWindow i w).epcm = s.epcm := rfl
@[simp] theorem State.setWindow_nextEid (i : Nat) (w : Option Window) : (s.setWindow i w).nextEid = s.nextEid := rfl
@[simp] theorem State.setWindow_turns (i : Nat) (w : Option Window) : (s.setWindow i w).turns = s.turns := rfl
@[simp] theorem State.setWindow_racing (i : Nat) (w : Option Window) : (s.setWindow i w).racing = s.racing := rfl
@[simp] theorem State.setWindow_windows (i : Nat) (w : Option Window) :
    (s.setWindow i w).windows = Assoc.write none s.windows i w := rfl
@[simp] theorem State.setWindow_freeIndex (i : Nat) (w : Option Window) :
    (s.setWindow i w).freeIndex = s.freeIndex := rfl

/-! ### `State.landByte` -/

@[simp] theorem State.landByte_cfg (a : Nat) (b : Byte) : (s.landByte a b).cfg = s.cfg := rfl
@[simp] theorem State.landByte_procs (a : Nat) (b : Byte) : (s.landByte a b).procs = s.procs := rfl
@[simp] theorem State.landByte_active (a : Nat) (b : Byte) : (s.landByte a b).active = s.active := rfl
@[simp] theorem State.landByte_mem (a : Nat) (b : Byte) : (s.landByte a b).mem = s.mem.write a b := rfl
@[simp] theorem State.landByte_epc (a : Nat) (b : Byte) : (s.landByte a b).epc = s.epc := rfl
@[simp] theorem State.landByte_hidden (a : Nat) (b : Byte) : (s.landByte a b).hidden = s.hidden := rfl
@[simp] theorem State.landByte_scrambled (a : Nat) (b : Byte) : (s.landByte a b).scrambled = s.scrambled := rfl
@[simp] theorem State.landByte_epcm (a : Nat) (b : Byte) : (s.landByte a b).epcm = s.epcm := rfl
@[simp] theorem State.landByte_nextEid (a : Nat) (b : Byte) : (s.landByte a b).nextEid = s.nextEid := rfl
@[simp] theorem State.landByte_turns (a : Nat) (b : Byte) : (s.landByte a b).turns = s.turns := rfl
@[simp] theorem State.landByte_racing (a : Nat) (b : Byte) : (s.landByte a b).racing = s.racing := rfl
@[simp] theorem State.landByte_windows (a : Nat) (b : Byte) :
    (s.landByte a b).windows = noteOverwritten [(a, s.mem.read a)] 0 s.windows := rfl
@[simp] theorem State.landByte_freeIndex (a : Nat) (b : Byte) : (s.landByte a b).freeIndex = s.freeIndex := rfl

/-! ### `State.land` -/

@[simp] theorem State.land_cfg (n : Nat) : (s.land n).cfg = s.cfg := rfl
@[simp] theorem State.land_procs (n : Nat) : (s.land n).procs = s.procs := rfl
@[simp] theorem State.land_active (n : Nat) : (s.land n).active = s.active := rfl
@[simp] theorem State.land_mem (n : Nat) :
    (s.land n).mem = applyRacing (fun i => decide (i < n)) s.mem s.racing 0 := rfl
@[simp] theorem State.land_epc (n : Nat) : (s.land n).epc = s.epc := rfl
@[simp] theorem State.land_hidden (n : Nat) : (s.land n).hidden = s.hidden := rfl
@[simp] theorem State.land_scrambled (n : Nat) : (s.land n).scrambled = s.scrambled := rfl
@[simp] theorem State.land_epcm (n : Nat) : (s.land n).epcm = s.epcm := rfl
@[simp] theorem State.land_nextEid (n : Nat) : (s.land n).nextEid = s.nextEid := rfl
@[simp] theorem State.land_turns (n : Nat) : (s.land n).turns = s.turns := rfl
@[simp] theorem State.land_racing (n : Nat) : (s.land n).racing = behind s.racing n := rfl
@[simp] theorem State.land_windows (n : Nat) :
    (s.land n).windows = noteOverwritten (overwritten s.mem s.racing n) n s.windows := rfl
@[simp] theorem State.land_freeIndex (n : Nat) : (s.land n).freeIndex = s.freeIndex := rfl

/-! ### `State.setEntry` -/

@[simp] theorem State.setEntry_cfg (page : Nat) (e : EpcmEntry) : (s.setEntry page e).cfg = s.cfg := rfl
@[simp] theorem State.setEntry_procs (page : Nat) (e : EpcmEntry) : (s.setEntry page e).procs = s.procs := rfl
@[simp] theorem State.setEntry_active (page : Nat) (e : EpcmEntry) : (s.setEntry page e).active = s.active := rfl
@[simp] theorem State.setEntry_mem (page : Nat) (e : EpcmEntry) : (s.setEntry page e).mem = s.mem := rfl
@[simp] theorem State.setEntry_epc (page : Nat) (e : EpcmEntry) : (s.setEntry page e).epc = s.epc := rfl
@[simp] theorem State.setEntry_hidden (page : Nat) (e : EpcmEntry) : (s.setEntry page e).hidden = s.hidden := rfl
@[simp] theorem State.setEntry_scrambled (page : Nat) (e : EpcmEntry) :
    (s.setEntry page e).scrambled = s.scrambled := rfl
@[simp] theorem State.setEntry_epcm (page : Nat) (e : EpcmEntry) :
    (s.setEntry page e).epcm = Assoc.write EpcmEntry.reset s.epcm page e := rfl
@[simp] theorem State.setEntry_nextEid (page : Nat) (e : EpcmEntry) : (s.setEntry page e).nextEid = s.nextEid := rfl
@[simp] theorem State.setEntry_turns (page : Nat) (e : EpcmEntry) : (s.setEntry page e).turns = s.turns := rfl
@[simp] theorem State.setEntry_racing (page : Nat) (e : EpcmEntry) : (s.setEntry page e).racing = s.racing := rfl
@[simp] theorem State.setEntry_windows (page : Nat) (e : EpcmEntry) : (s.setEntry page e).windows = s.windows := rfl
@[simp] theorem State.setEntry_freeIndex (page : Nat) (e : EpcmEntry) :
    (s.setEntry page e).freeIndex = s.freeIndex := rfl

/-! ### `State.setLock` -/

@[simp] theorem State.setLock_cfg (page : Nat) (l : EntryLock) : (s.setLock page l).cfg = s.cfg := rfl
@[simp] theorem State.setLock_procs (page : Nat) (l : EntryLock) : (s.setLock page l).procs = s.procs := rfl
@[simp] theorem State.setLock_active (page : Nat) (l : EntryLock) : (s.setLock page l).active = s.active := rfl
@[simp] theorem State.setLock_mem (page : Nat) (l : EntryLock) : (s.setLock page l).mem = s.mem := rfl
@[simp] theorem State.setLock_epc (page : Nat) (l : EntryLock) : (s.setLock page l).epc = s.epc := rfl
@[simp] theorem State.setLock_hidden (page : Nat) (l : EntryLock) : (s.setLock page l).hidden = s.hidden := rfl
@[simp] theorem State.setLock_scrambled (page : Nat) (l : EntryLock) :
    (s.setLock page l).scrambled = s.scrambled := rfl
@[simp] theorem State.setLock_epcm (page : Nat) (l : EntryLock) :
    (s.setLock page l).epcm = Assoc.write EpcmEntry.reset s.epcm page { s.entry page with lock := l } := rfl
@[simp] theorem State.setLock_nextEid (page : Nat) (l : EntryLock) : (s.setLock page l).nextEid = s.nextEid := rfl
@[simp] theorem State.setLock_turns (page : Nat) (l : EntryLock) : (s.setLock page l).turns = s.turns := rfl
@[simp] theorem State.setLock_racing (page : Nat) (l : EntryLock) : (s.setLock page l).racing = s.racing := rfl
@[simp] theorem State.setLock_windows (page : Nat) (l : EntryLock) : (s.setLock page l).windows = s.windows := rfl
@[simp] theorem State.setLock_freeIndex (page : Nat) (l : EntryLock) :
    (s.setLock page l).freeIndex = s.freeIndex := rfl

/-! ### `State.setPage` -/

@[simp] theorem State.setPage_cfg (page : Nat) (b : Block) : (s.setPage page b).cfg = s.cfg := rfl
@[simp] theorem State.setPage_procs (page : Nat) (b : Block) : (s.setPage page b).procs = s.procs := rfl
@[simp] theorem State.setPage_active (page : Nat) (b : Block) : (s.setPage page b).active = s.active := rfl
@[simp] theorem State.setPage_mem (page : Nat) (b : Block) : (s.setPage page b).mem = s.mem := rfl
@[simp] theorem State.setPage_epc (page : Nat) (b : Block) :
    (s.setPage page b).epc = s.epc.store (page * pageBytes) pageBytes b := rfl
@[simp] theorem State.setPage_hidden (page : Nat) (b : Block) : (s.setPage page b).hidden = s.hidden := rfl
@[simp] theorem State.setPage_scrambled (page : Nat) (b : Block) :
    (s.setPage page b).scrambled = Assoc.write none s.scrambled page none := rfl
@[simp] theorem State.setPage_epcm (page : Nat) (b : Block) : (s.setPage page b).epcm = s.epcm := rfl
@[simp] theorem State.setPage_nextEid (page : Nat) (b : Block) : (s.setPage page b).nextEid = s.nextEid := rfl
@[simp] theorem State.setPage_turns (page : Nat) (b : Block) : (s.setPage page b).turns = s.turns := rfl
@[simp] theorem State.setPage_racing (page : Nat) (b : Block) : (s.setPage page b).racing = s.racing := rfl
@[simp] theorem State.setPage_windows (page : Nat) (b : Block) : (s.setPage page b).windows = s.windows := rfl
@[simp] theorem State.setPage_freeIndex (page : Nat) (b : Block) : (s.setPage page b).freeIndex = s.freeIndex := rfl

/-! ### `State.setHidden` -/

@[simp] theorem State.setHidden_cfg (page : Nat) (h : SecsHidden) : (s.setHidden page h).cfg = s.cfg := rfl
@[simp] theorem State.setHidden_procs (page : Nat) (h : SecsHidden) : (s.setHidden page h).procs = s.procs := rfl
@[simp] theorem State.setHidden_active (page : Nat) (h : SecsHidden) : (s.setHidden page h).active = s.active := rfl
@[simp] theorem State.setHidden_mem (page : Nat) (h : SecsHidden) : (s.setHidden page h).mem = s.mem := rfl
@[simp] theorem State.setHidden_epc (page : Nat) (h : SecsHidden) : (s.setHidden page h).epc = s.epc := rfl
@[simp] theorem State.setHidden_hidden (page : Nat) (h : SecsHidden) :
    (s.setHidden page h).hidden = Assoc.write SecsHidden.reset s.hidden page h := rfl
@[simp] theorem State.setHidden_scrambled (page : Nat) (h : SecsHidden) :
    (s.setHidden page h).scrambled = s.scrambled := rfl
@[simp] theorem State.setHidden_epcm (page : Nat) (h : SecsHidden) : (s.setHidden page h).epcm = s.epcm := rfl
@[simp] theorem State.setHidden_nextEid (page : Nat) (h : SecsHidden) :
    (s.setHidden page h).nextEid = s.nextEid := rfl
@[simp] theorem State.setHidden_turns (page : Nat) (h : SecsHidden) : (s.setHidden page h).turns = s.turns := rfl
@[simp] theorem State.setHidden_racing (page : Nat) (h : SecsHidden) : (s.setHidden page h).racing = s.racing := rfl
@[simp] theorem State.setHidden_windows (page : Nat) (h : SecsHidden) : (s.setHidden page h).windows = s.windows := rfl
@[simp] theorem State.setHidden_freeIndex (page : Nat) (h : SecsHidden) :
    (s.setHidden page h).freeIndex = s.freeIndex := rfl

/-! ### `State.scramble` -/

@[simp] theorem State.scramble_cfg (page : Nat) : (s.scramble page).cfg = s.cfg := rfl
@[simp] theorem State.scramble_procs (page : Nat) : (s.scramble page).procs = s.procs := rfl
@[simp] theorem State.scramble_active (page : Nat) : (s.scramble page).active = s.active := rfl
@[simp] theorem State.scramble_mem (page : Nat) : (s.scramble page).mem = s.mem := rfl
@[simp] theorem State.scramble_epc (page : Nat) :
    (s.scramble page).epc = s.epc.store (page * pageBytes) pageBytes 0 := rfl
@[simp] theorem State.scramble_hidden (page : Nat) :
    (s.scramble page).hidden = Assoc.write SecsHidden.reset s.hidden page SecsHidden.reset := rfl
@[simp] theorem State.scramble_scrambled (page : Nat) :
    (s.scramble page).scrambled = Assoc.write none s.scrambled page (some s.freeIndex) := rfl
@[simp] theorem State.scramble_epcm (page : Nat) : (s.scramble page).epcm = s.epcm := rfl
@[simp] theorem State.scramble_nextEid (page : Nat) : (s.scramble page).nextEid = s.nextEid := rfl
@[simp] theorem State.scramble_turns (page : Nat) : (s.scramble page).turns = s.turns := rfl
@[simp] theorem State.scramble_racing (page : Nat) : (s.scramble page).racing = s.racing := rfl
@[simp] theorem State.scramble_windows (page : Nat) : (s.scramble page).windows = s.windows := rfl
@[simp] theorem State.scramble_freeIndex (page : Nat) : (s.scramble page).freeIndex = s.freeIndex := rfl

/-! ### `State.takeEvent` -/

@[simp] theorem State.takeEvent_cfg (p : Processor) (e : Event) : (s.takeEvent p e).cfg = s.cfg := rfl
@[simp] theorem State.takeEvent_procs (p : Processor) (e : Event) :
    (s.takeEvent p e).procs = s.procs.set s.active
      { p with phase := .idle, event := some { event := e, pc := p.pc }, vmcs := vmcsAfter p.vmcs e } := rfl
@[simp] theorem State.takeEvent_active (p : Processor) (e : Event) : (s.takeEvent p e).active = s.active := rfl
@[simp] theorem State.takeEvent_mem (p : Processor) (e : Event) : (s.takeEvent p e).mem = s.mem := rfl
@[simp] theorem State.takeEvent_epc (p : Processor) (e : Event) : (s.takeEvent p e).epc = s.epc := rfl
@[simp] theorem State.takeEvent_hidden (p : Processor) (e : Event) : (s.takeEvent p e).hidden = s.hidden := rfl
@[simp] theorem State.takeEvent_scrambled (p : Processor) (e : Event) :
    (s.takeEvent p e).scrambled = s.scrambled := rfl
@[simp] theorem State.takeEvent_epcm (p : Processor) (e : Event) : (s.takeEvent p e).epcm = s.epcm := rfl
@[simp] theorem State.takeEvent_nextEid (p : Processor) (e : Event) : (s.takeEvent p e).nextEid = s.nextEid := rfl
@[simp] theorem State.takeEvent_turns (p : Processor) (e : Event) : (s.takeEvent p e).turns = s.turns := rfl
@[simp] theorem State.takeEvent_racing (p : Processor) (e : Event) : (s.takeEvent p e).racing = s.racing := rfl
@[simp] theorem State.takeEvent_windows (p : Processor) (e : Event) : (s.takeEvent p e).windows = s.windows := rfl
@[simp] theorem State.takeEvent_freeIndex (p : Processor) (e : Event) :
    (s.takeEvent p e).freeIndex = s.freeIndex := rfl

/-! ### `State.releaseAndTake` -/

@[simp] theorem State.releaseAndTake_cfg (p : Processor) (page : Nat) (e : Event) :
    (s.releaseAndTake p page e).cfg = s.cfg := rfl
@[simp] theorem State.releaseAndTake_procs (p : Processor) (page : Nat) (e : Event) :
    (s.releaseAndTake p page e).procs = s.procs.set s.active
      { p with phase := .idle, event := some { event := e, pc := p.pc }, vmcs := vmcsAfter p.vmcs e } := rfl
@[simp] theorem State.releaseAndTake_active (p : Processor) (page : Nat) (e : Event) :
    (s.releaseAndTake p page e).active = s.active := rfl
@[simp] theorem State.releaseAndTake_mem (p : Processor) (page : Nat) (e : Event) :
    (s.releaseAndTake p page e).mem = s.mem := rfl
@[simp] theorem State.releaseAndTake_epc (p : Processor) (page : Nat) (e : Event) :
    (s.releaseAndTake p page e).epc = s.epc := rfl
@[simp] theorem State.releaseAndTake_hidden (p : Processor) (page : Nat) (e : Event) :
    (s.releaseAndTake p page e).hidden = s.hidden := rfl
@[simp] theorem State.releaseAndTake_scrambled (p : Processor) (page : Nat) (e : Event) :
    (s.releaseAndTake p page e).scrambled = s.scrambled := rfl
@[simp] theorem State.releaseAndTake_epcm (p : Processor) (page : Nat) (e : Event) :
    (s.releaseAndTake p page e).epcm = Assoc.write EpcmEntry.reset s.epcm page { s.entry page with lock := .free } := rfl
@[simp] theorem State.releaseAndTake_nextEid (p : Processor) (page : Nat) (e : Event) :
    (s.releaseAndTake p page e).nextEid = s.nextEid := rfl
@[simp] theorem State.releaseAndTake_turns (p : Processor) (page : Nat) (e : Event) :
    (s.releaseAndTake p page e).turns = s.turns := rfl
@[simp] theorem State.releaseAndTake_racing (p : Processor) (page : Nat) (e : Event) :
    (s.releaseAndTake p page e).racing = s.racing := rfl
@[simp] theorem State.releaseAndTake_windows (p : Processor) (page : Nat) (e : Event) :
    (s.releaseAndTake p page e).windows = s.windows := rfl
@[simp] theorem State.releaseAndTake_freeIndex (p : Processor) (page : Nat) (e : Event) :
    (s.releaseAndTake p page e).freeIndex = s.freeIndex := rfl

/-! ### `completeEcreate` -/

variable (p : Processor) (t : Ticket) (b : Block)

@[simp] theorem completeEcreate_cfg : (completeEcreate s p t b).cfg = s.cfg := rfl
@[simp] theorem completeEcreate_procs :
    (completeEcreate s p t b).procs = s.procs.set s.active (completedProcessor s.cfg p) := rfl
@[simp] theorem completeEcreate_active : (completeEcreate s p t b).active = s.active := rfl
@[simp] theorem completeEcreate_mem : (completeEcreate s p t b).mem = s.mem := rfl
@[simp] theorem completeEcreate_epc :
    (completeEcreate s p t b).epc = s.epc.store (t.page * pageBytes) pageBytes (initializedSecs s.cfg b s.nextEid t.phys) := rfl
@[simp] theorem completeEcreate_hidden :
    (completeEcreate s p t b).hidden = Assoc.write SecsHidden.reset s.hidden t.page (initializedHidden s.cfg b) := rfl
@[simp] theorem completeEcreate_scrambled :
    (completeEcreate s p t b).scrambled = Assoc.write none s.scrambled t.page none := rfl
@[simp] theorem completeEcreate_epcm :
    (completeEcreate s p t b).epcm = Assoc.write EpcmEntry.reset s.epcm t.page (createdEntry s.cfg) := rfl
@[simp] theorem completeEcreate_nextEid : (completeEcreate s p t b).nextEid = s.nextEid + 1 := rfl
@[simp] theorem completeEcreate_turns : (completeEcreate s p t b).turns = s.turns := rfl
@[simp] theorem completeEcreate_racing : (completeEcreate s p t b).racing = s.racing := rfl
@[simp] theorem completeEcreate_windows : (completeEcreate s p t b).windows = s.windows := rfl
@[simp] theorem completeEcreate_freeIndex : (completeEcreate s p t b).freeIndex = s.freeIndex := rfl

/-! ### `completedProcessor` -/

variable (c : Config)

@[simp] theorem completedProcessor_rax : (completedProcessor c p).rax = p.rax := rfl
@[simp] theorem completedProcessor_rbx : (completedProcessor c p).rbx = p.rbx := rfl
@[simp] theorem completedProcessor_rcx : (completedProcessor c p).rcx = p.rcx := rfl
@[simp] theorem completedProcessor_rflags : (completedProcessor c p).rflags = p.rflags := rfl
@[simp] theorem completedProcessor_phase : (completedProcessor c p).phase = .idle := rfl
@[simp] theorem completedProcessor_event : (completedProcessor c p).event = none := rfl
@[simp] theorem completedProcessor_pc :
    (completedProcessor c p).pc = wrapAddress p.mode (p.pc + BitVec.ofNat 64 c.enclsOpcode.length) := rfl

end Sys2Proof.Machine
end

