-- ==== Sys2Proof/Laws/Ops.lean ====
section
/-! SUPPORT. The named operations: what each can do, said once. -/

namespace Sys2Proof.Machine

/-! ### `Check.bind` -/

variable {α β : Type}

@[simp] theorem Check.bind_ok (a : α) (f : α → Check β) : (Check.ok a).bind f = f a := rfl
@[simp] theorem Check.bind_raise (e : Event) (f : α → Check β) : (Check.raise e).bind f = .raise e := rfl
@[simp] theorem Check.bind_refuse (r : Refusal) (f : α → Check β) : (Check.refuse r).bind f = .refuse r := rfl

/-- A sequence of checks passes exactly if its first part does and then the rest. -/
theorem Check.bind_eq_ok {x : Check α} {f : α → Check β} {b : β} :
    x.bind f = .ok b ↔ ∃ a, x = .ok a ∧ f a = .ok b := by
  cases x <;> simp

/-- A sequence of checks raises what its first part raises, or what the rest does. -/
theorem Check.bind_eq_raise {x : Check α} {f : α → Check β} {e : Event} :
    x.bind f = .raise e ↔ x = .raise e ∨ ∃ a, x = .ok a ∧ f a = .raise e := by
  cases x <;> simp

/-- A sequence of checks is refused where its first part is, or the rest. -/
theorem Check.bind_eq_refuse {x : Check α} {f : α → Check β} {r : Refusal} :
    x.bind f = .refuse r ↔ x = .refuse r ∨ ∃ a, x = .ok a ∧ f a = .refuse r := by
  cases x <;> simp

/-! ### The EPCM -/

variable (s : State)

@[simp] theorem State.entry_setEntry_same (page : Nat) (e : EpcmEntry) : (s.setEntry page e).entry page = e :=
  Assoc.read_write_same s.epcm page e

theorem State.entry_setEntry_other {page page' : Nat} (e : EpcmEntry) (h : page' ≠ page) :
    (s.setEntry page e).entry page' = s.entry page' :=
  Assoc.read_write_other s.epcm e h

@[simp] theorem State.entry_setLock_same (page : Nat) (l : EntryLock) :
    (s.setLock page l).entry page = { s.entry page with lock := l } :=
  Assoc.read_write_same s.epcm page _

theorem State.entry_setLock_other {page page' : Nat} (l : EntryLock) (h : page' ≠ page) :
    (s.setLock page l).entry page' = s.entry page' :=
  Assoc.read_write_other s.epcm _ h

/-- Writing a lock leaves VALID alone, whatever the page. -/
@[simp] theorem State.valid_setLock (page page' : Nat) (l : EntryLock) :
    ((s.setLock page l).entry page').valid = (s.entry page').valid := by
  by_cases h : page' = page
  · subst h; simp
  · rw [State.entry_setLock_other _ _ h]

/-- The entry depends on the EPCM only. -/
theorem State.entry_congr {s t : State} (h : t.epcm = s.epcm) (page : Nat) : t.entry page = s.entry page := by
  unfold State.entry; rw [h]

@[simp] theorem State.entry_setCurrent (p : Processor) (page : Nat) : (s.setCurrent p).entry page = s.entry page := rfl
@[simp] theorem State.entry_takeEvent (p : Processor) (e : Event) (page : Nat) :
    (s.takeEvent p e).entry page = s.entry page := rfl
@[simp] theorem State.entry_tick (page : Nat) : s.tick.entry page = s.entry page := rfl
@[simp] theorem State.entry_setPage (q : Nat) (b : Block) (page : Nat) :
    (s.setPage q b).entry page = s.entry page := rfl
@[simp] theorem State.entry_setHidden (q : Nat) (h : SecsHidden) (page : Nat) :
    (s.setHidden q h).entry page = s.entry page := rfl
@[simp] theorem State.entry_scramble (q page : Nat) : (s.scramble q).entry page = s.entry page := rfl

/-! ### EPC pages and hidden state -/

@[simp] theorem State.drawnAt_setPage_same (page : Nat) (b : Block) : (s.setPage page b).drawnAt page = none :=
  Assoc.read_write_same s.scrambled page none

theorem State.drawnAt_setPage_other {page page' : Nat} (b : Block) (h : page' ≠ page) :
    (s.setPage page b).drawnAt page' = s.drawnAt page' :=
  Assoc.read_write_other s.scrambled none h

@[simp] theorem State.drawnAt_scramble_same (page : Nat) : (s.scramble page).drawnAt page = some s.freeIndex :=
  Assoc.read_write_same s.scrambled page (some s.freeIndex)

theorem State.drawnAt_scramble_other {page page' : Nat} (h : page' ≠ page) :
    (s.scramble page).drawnAt page' = s.drawnAt page' :=
  Assoc.read_write_other s.scrambled (some s.freeIndex) h

/-- A page read after it was written is what was written, whatever it held (spec/20_memory.md R62). -/
@[simp] theorem State.page_setPage_same (page : Nat) (b : Block) : (s.setPage page b).page page = b := by
  unfold State.page
  rw [State.drawnAt_setPage_same, State.setPage_epc]
  exact Memory.load_store_page s.epc _ b

theorem pages_apart {p q : Nat} (h : q ≠ p) :
    q * pageBytes + pageBytes ≤ p * pageBytes ∨ p * pageBytes + pageBytes ≤ q * pageBytes := by
  rcases Nat.lt_or_gt_of_ne h with h | h
  · exact Or.inl (by rw [← Nat.succ_mul]; exact Nat.mul_le_mul_right _ h)
  · exact Or.inr (by rw [← Nat.succ_mul]; exact Nat.mul_le_mul_right _ h)

/-- Writing a page leaves every other page alone. -/
theorem State.page_setPage_other {page page' : Nat} (b : Block) (h : page' ≠ page) :
    (s.setPage page b).page page' = s.page page' := by
  unfold State.page
  rw [State.drawnAt_setPage_other _ _ h, State.setPage_epc, Memory.load_store_other _ _ (pages_apart h)]

@[simp] theorem State.page_scramble_same (page : Nat) :
    (s.scramble page).page page = Config.freePage s.freeIndex := by
  unfold State.page
  rw [State.drawnAt_scramble_same]

theorem State.page_scramble_other {page page' : Nat} (h : page' ≠ page) :
    (s.scramble page).page page' = s.page page' := by
  unfold State.page
  rw [State.drawnAt_scramble_other _ h, State.scramble_epc, Memory.load_store_other _ _ (pages_apart h)]

/-- The contents of a page depend on the EPC's bytes and on what is free only. -/
theorem State.page_congr {s t : State} (he : t.epc = s.epc) (hs : t.scrambled = s.scrambled) (page : Nat) :
    t.page page = s.page page := by
  unfold State.page State.drawnAt; rw [he, hs]

/-- The hidden state of a page depends on the listed hidden state and on what is free only. -/
theorem State.hiddenAt_congr {s t : State} (he : t.hidden = s.hidden) (hs : t.scrambled = s.scrambled) (page : Nat) :
    t.hiddenAt page = s.hiddenAt page := by
  unfold State.hiddenAt State.drawnAt; rw [he, hs]

theorem State.hiddenAt_scramble_other {page page' : Nat} (h : page' ≠ page) :
    (s.scramble page).hiddenAt page' = s.hiddenAt page' := by
  unfold State.hiddenAt
  rw [State.drawnAt_scramble_other _ h, State.scramble_hidden, Assoc.read_write_other _ _ h]

@[simp] theorem State.hiddenAt_scramble_same (page : Nat) :
    (s.scramble page).hiddenAt page = freeHidden s.freeIndex := by
  unfold State.hiddenAt
  rw [State.drawnAt_scramble_same]

/-! ### The executing processor -/

/-- The processor written is the one that executes. -/
theorem State.current_setCurrent {p q : Processor} (h : s.current = some q) : (s.setCurrent p).current = some p := by
  unfold State.current at h
  have hb : s.active < s.procs.length := by
    rw [List.getElem?_eq_some_iff] at h
    exact h.1
  simp [State.current, hb]

/-- Every other processor is untouched. -/
theorem State.procs_setCurrent_other (p : Processor) {i : Nat} (h : i ≠ s.active) :
    (s.setCurrent p).procs[i]? = s.procs[i]? := by
  simp [Ne.symm h]

/-- What stands at a number after the executing processor was written. -/
theorem State.procs_setCurrent_cases {p q : Processor} {i : Nat} (h : (s.procs.set s.active p)[i]? = some q) :
    (i = s.active ∧ q = p) ∨ (i ≠ s.active ∧ s.procs[i]? = some q) := by
  by_cases hi : i = s.active
  · subst hi
    by_cases hb : s.active < s.procs.length
    · simp only [List.getElem?_set, hb, if_true, Option.some.injEq] at h
      exact Or.inl ⟨rfl, h.symm⟩
    · simp only [List.getElem?_set, if_true, hb, if_false] at h
      cases h
  · exact Or.inr ⟨hi, by simpa [List.getElem?_set, Ne.symm hi] using h⟩

/-! ### The windows of the instructions that have started (log 14) -/

@[simp] theorem State.window_setWindow_same (i : Nat) (w : Option Window) : (s.setWindow i w).window i = w :=
  Assoc.read_write_same s.windows i w

theorem State.window_setWindow_other {i j : Nat} (w : Option Window) (h : j ≠ i) :
    (s.setWindow i w).window j = s.window j :=
  Assoc.read_write_other s.windows w h

/-- Noting what was overwritten keeps the windows open that are, and the list in canonical form. -/
theorem noteOverwritten_wf (old : List Host.Cell) (n : Nat) {l : List (Nat × Option Window)} (h : Assoc.Wf none l) :
    Assoc.Wf none (noteOverwritten old n l) := by
  refine ⟨List.pairwise_map.2 h.1, fun c hc => ?_⟩
  obtain ⟨d, hd, rfl⟩ := List.mem_map.1 hc
  have := h.2 d hd
  cases hw : d.2 with
  | none => exact absurd hw this
  | some w => simp [hw]

/-- The window of a processor after something was noted. -/
theorem read_noteOverwritten (old : List Host.Cell) (n i : Nat) (l : List (Nat × Option Window)) :
    Assoc.read none (noteOverwritten old n l) i =
      (Assoc.read none l i).map fun w => { past := w.past ++ old, owed := w.owed - n } := by
  induction l with
  | nil => rfl
  | cons c t ih =>
    simp only [noteOverwritten, List.map_cons, Assoc.read] at ih ⊢
    split
    · rfl
    · exact ih

/-- What lands leaves a closed window closed. -/
theorem State.window_land_of_none (n : Nat) {i : Nat} (h : s.window i = none) : (s.land n).window i = none := by
  unfold State.window at *
  rw [State.land_windows, read_noteOverwritten, h]
  rfl

/-- Settling touches ordinary memory, the stores under way and the windows only. -/
theorem settle_eq (u t : State) : ∃ m r w, settle u t = { t with mem := m, racing := r, windows := w } := by
  unfold settle
  split
  · exact ⟨_, _, _, rfl⟩
  · split <;> exact ⟨_, _, _, rfl⟩

@[simp] theorem settle_cfg (u t : State) : (settle u t).cfg = t.cfg := by
  obtain ⟨_, _, _, h⟩ := settle_eq u t; rw [h]
@[simp] theorem settle_procs (u t : State) : (settle u t).procs = t.procs := by
  obtain ⟨_, _, _, h⟩ := settle_eq u t; rw [h]
@[simp] theorem settle_active (u t : State) : (settle u t).active = t.active := by
  obtain ⟨_, _, _, h⟩ := settle_eq u t; rw [h]
@[simp] theorem settle_epc (u t : State) : (settle u t).epc = t.epc := by
  obtain ⟨_, _, _, h⟩ := settle_eq u t; rw [h]
@[simp] theorem settle_hidden (u t : State) : (settle u t).hidden = t.hidden := by
  obtain ⟨_, _, _, h⟩ := settle_eq u t; rw [h]
@[simp] theorem settle_scrambled (u t : State) : (settle u t).scrambled = t.scrambled := by
  obtain ⟨_, _, _, h⟩ := settle_eq u t; rw [h]
@[simp] theorem settle_epcm (u t : State) : (settle u t).epcm = t.epcm := by
  obtain ⟨_, _, _, h⟩ := settle_eq u t; rw [h]
@[simp] theorem settle_nextEid (u t : State) : (settle u t).nextEid = t.nextEid := by
  obtain ⟨_, _, _, h⟩ := settle_eq u t; rw [h]
@[simp] theorem settle_turns (u t : State) : (settle u t).turns = t.turns := by
  obtain ⟨_, _, _, h⟩ := settle_eq u t; rw [h]
@[simp] theorem settle_freeIndex (u t : State) : (settle u t).freeIndex = t.freeIndex := by
  obtain ⟨_, _, _, h⟩ := settle_eq u t; rw [h]

/-- While the instruction goes on, settling keeps its window and nothing else. -/
theorem settle_inside {u t : State} {p : Processor} {k : Ticket} (hp : t.current = some p) (hk : p.phase = .ecreate k) :
    settle u t = t.setWindow t.active (some { past := u.past, owed := u.reach }) := by
  unfold settle
  simp only [hp, hk]

/-- When it has ended, settling closes its window, and what it has seen lands. -/
theorem settle_ended {u t : State} {p : Processor} (hp : t.current = some p) (hi : p.phase = .idle) :
    settle u t = (t.setWindow t.active none).land u.reach := by
  unfold settle
  simp only [hp, hi]

/-- With no store under way and no window open, a settled end is the end. -/
theorem land_of_no_racing (n : Nat) (hr : s.racing = []) (hw : s.windows = []) : s.land n = s := by
  cases s
  simp only at hr hw
  subst hr hw
  rfl

/-- What a byte reads as to an access: what memory holds, what it held, or what a store writes that lands before the
instruction ends (R61, U21). -/
theorem State.view_read (k a : Nat) :
    (s.view k).read a = s.mem.read a ∨ (∃ b, (a, b) ∈ s.past ∧ (s.view k).read a = b) ∨
      ∃ b, (a, b) ∈ s.racing.take s.reach ∧ (s.view k).read a = b := by
  rcases applyRacing_read (fun i => decide (i < s.past.length + s.reach) && Config.raceSeen s.freeIndex k i) s.mem
    (s.past ++ s.racing) 0 a with h | ⟨j, b, hj, hs, hb⟩
  · exact Or.inl h
  · refine Or.inr ?_
    by_cases hlt : j < s.past.length
    · rw [List.getElem?_append_left hlt] at hj
      exact Or.inl ⟨b, List.mem_of_getElem? hj, hb⟩
    · rw [List.getElem?_append_right (by omega)] at hj
      simp only [Nat.zero_add, Bool.and_eq_true, decide_eq_true_eq] at hs
      refine Or.inr ⟨b, List.mem_of_getElem? (i := j - s.past.length) ?_, hb⟩
      rw [List.getElem?_take_of_lt (by omega)]
      exact hj

/-! ### Translation and reading an operand -/

/-- Adding an offset in two parts is adding it at once, at the width of the mode. -/
theorem wrapAddress_add_add (m : Mode) (la : Word64) (a b : Nat) :
    wrapAddress m (wrapAddress m (la + BitVec.ofNat 64 a) + BitVec.ofNat 64 b) =
      wrapAddress m (la + BitVec.ofNat 64 (a + b)) := by
  cases m <;> simp only [wrapAddress]
  · apply BitVec.eq_of_toNat_eq
    simp only [BitVec.toNat_setWidth, BitVec.toNat_add, BitVec.toNat_ofNat]
    omega
  · rw [BitVec.ofNat_add, BitVec.add_assoc]
  · rw [BitVec.ofNat_add, BitVec.add_assoc]

/-- Translation is per page: a byte further in the same page is that much further in the same frame (log 23). -/
theorem translate_same_page {p : Processor} {la pa : Word64} {kind : AccessKind} {k : Nat}
    (h : Machine.translate p la kind = .phys pa) (hw : wrapAddress p.mode la = la)
    (hk : la.toNat % pageBytes + k < pageBytes) :
    ∃ pb, Machine.translate p (wrapAddress p.mode (la + BitVec.ofNat 64 k)) kind = .phys pb ∧
      pb.toNat = pa.toNat + k ∧ frameOf pb = frameOf pa := by
  have hlt : la.toNat < 2 ^ 64 := la.isLt
  have h1 : (la + BitVec.ofNat 64 k).toNat = la.toNat + k := by
    rw [BitVec.toNat_add, BitVec.toNat_ofNat]
    unfold pageBytes at hk
    omega
  have h2 : wrapAddress p.mode (la + BitVec.ofNat 64 k) = la + BitVec.ofNat 64 k := by
    cases hm : p.mode <;> simp only [wrapAddress]
    rw [hm] at hw
    simp only [wrapAddress] at hw
    have hw2 := congrArg BitVec.toNat hw
    simp only [BitVec.toNat_setWidth] at hw2
    apply BitVec.eq_of_toNat_eq
    simp only [BitVec.toNat_setWidth, h1]
    unfold pageBytes at hk
    omega
  rw [h2]
  unfold Machine.translate at h ⊢
  rw [h1]
  have hd : (la.toNat + k) / pageBytes = la.toNat / pageBytes := by unfold pageBytes at *; omega
  have hm : (la.toNat + k) % pageBytes = la.toNat % pageBytes + k := by unfold pageBytes at *; omega
  rw [hd, hm]
  split at h
  · cases h
  · split at h
    · rename_i hp
      simp only [Translation.phys.injEq] at h
      subst h
      refine ⟨_, by rw [if_pos hp], ?_, ?_⟩
      · simp only [BitVec.toNat_ofNat]
        unfold pageBytes at *
        omega
      · unfold frameOf
        simp only [BitVec.toNat_ofNat]
        unfold pageBytes at *
        omega
    · cases h

/-- The two refusals of a source-side operand (R59, R63). -/
theorem placementRefusal_cases {c : Config} {p : Processor} {la : Word64} {n : Nat} {r : Refusal}
    (h : placementRefusal c p la n = some r) : r = .operandInEpc ∨ r = .operandHasSideEffects := by
  unfold placementRefusal at h
  split at h
  · exact Or.inl (Option.some.inj h).symm
  · split at h
    · exact Or.inr (Option.some.inj h).symm
    · cases h

/-- A read refuses only for the placement of the operand. -/
theorem readOperand_eq_refuse {c : Config} {p : Processor} {m : Memory} {la : Word64} {n : Nat} {r : Refusal}
    (h : readOperand c p m la n = .refuse r) : placementRefusal c p la n = some r := by
  unfold readOperand at h
  split at h
  · rename_i r' hr
    simp only [Check.refuse.injEq] at h
    rw [hr, h]
  · split at h <;> cases h

/-- A read raises only a page fault on the first byte of the operand (R128, log 16). -/
theorem readOperand_eq_raise {c : Config} {p : Processor} {m : Memory} {la : Word64} {n : Nat} {e : Event}
    (h : readOperand c p m la n = .raise e) : ∃ cause, e = .pf la .nonEnclaveRead cause := by
  unfold readOperand at h
  split at h
  · cases h
  · split at h
    · simp only [Check.raise.injEq] at h
      exact ⟨_, h.symm⟩
    · cases h

end Sys2Proof.Machine
end

