-- ==== Sys2Proof/Laws/Operands.lean ====
section
/-! SUPPORT. Operands: the limit check covers every byte, and what a checked operand is. -/

namespace Sys2Proof.Machine

/-- Canonical addresses are the lowest and the highest `2 ^ (bits - 1)` ones. -/
theorem canonical_iff {bits : Nat} (h1 : 1 ≤ bits) (h2 : bits ≤ 64) (a : Word64) :
    canonical bits a = true ↔ a.toNat < 2 ^ (bits - 1) ∨ 2 ^ 64 - 2 ^ (bits - 1) ≤ a.toNat := by
  have hmul : 2 ^ (65 - bits) * 2 ^ (bits - 1) = 2 ^ 64 := by
    rw [← Nat.pow_add]; congr 1; omega
  have hpos : 0 < 2 ^ (bits - 1) := Nat.two_pow_pos _
  have ha : a.toNat < 2 ^ 64 := a.isLt
  simp only [canonical, decide_eq_true_eq, Nat.shiftRight_eq_div_pow]
  generalize 2 ^ (bits - 1) = w at *
  generalize 2 ^ (65 - bits) = q at *
  have hq : 0 < q := by
    rcases Nat.eq_zero_or_pos q with h | h
    · simp [h] at hmul
    · exact h
  have hsub : (q - 1) * w = 2 ^ 64 - w := by rw [Nat.sub_mul, hmul, Nat.one_mul]
  refine or_congr (Nat.div_eq_zero_iff_lt hpos) ⟨fun h => ?_, fun h => ?_⟩
  · rw [← hsub, ← h]
    exact Nat.div_mul_le_self _ _
  · have hlt : a.toNat / w < q := (Nat.div_lt_iff_lt_mul hpos).2 (by omega)
    have hge : q - 1 ≤ a.toNat / w := (Nat.le_div_iff_mul_le hpos).2 (by omega)
    omega

/-- In 64-bit mode: an operand of at most 4096 bytes whose first and last byte are canonical is canonical in every byte
(spec/20_memory.md R49). -/
theorem canonical_every_byte {bits n : Nat} (h1 : 1 ≤ bits) (h2 : bits ≤ 64) (hn : n ≤ pageBytes) {off : Word64}
    (hfirst : canonical bits off = true) (hlast : canonical bits (off + BitVec.ofNat 64 (n - 1)) = true) {k : Nat}
    (hk : k < n) : canonical bits (off + BitVec.ofNat 64 k) = true := by
  rw [canonical_iff h1 h2] at *
  have hw : 2 ^ (bits - 1) ≤ 2 ^ 62 ∨ 2 ^ (bits - 1) = 2 ^ 63 := by
    rcases Nat.lt_or_ge bits 64 with h | h
    · exact Or.inl (Nat.pow_le_pow_right (by omega) (by omega))
    · exact Or.inr (by congr 1; omega)
  have hpos : 0 < 2 ^ (bits - 1) := Nat.two_pow_pos _
  have ho : off.toNat < 2 ^ 64 := off.isLt
  unfold pageBytes at hn
  simp only [BitVec.toNat_add, BitVec.toNat_ofNat] at *
  generalize 2 ^ (bits - 1) = w at *
  omega

/-- The limit check of an operand says the same of every byte of it (spec/20_memory.md R49, D21). -/
theorem insideLimits_every_byte {c : Config} {p : Processor} {off : Word64} {n : Nat}
    (hb : 1 ≤ c.linearAddressBits ∧ c.linearAddressBits ≤ 64) (hn : 0 < n ∧ n ≤ pageBytes) :
    insideLimits c p off n = true ↔
      match p.mode with
      | .prot32 => ∀ k, k < n → off.toNat + k ≤ p.ds.limit.toNat
      | .mode64 => ∀ k, k < n → canonical c.linearAddressBits (off + BitVec.ofNat 64 k) = true
      | .other => False := by
  unfold insideLimits
  cases p.mode with
  | prot32 =>
    simp only [decide_eq_true_eq]
    exact ⟨fun h k hk => by omega, fun h => by have := h (n - 1) (by omega); omega⟩
  | mode64 =>
    simp only [Bool.and_eq_true]
    refine ⟨fun h k hk => canonical_every_byte hb.1 hb.2 hn.2 h.1 h.2 hk, fun h => ⟨?_, h (n - 1) (by omega)⟩⟩
    simpa using h 0 hn.1
  | other => simp

/-- A checked operand passes exactly if it is inside the limits and aligned; the answer is its linear address. -/
theorem checkedOperand_eq_ok {c : Config} {p : Processor} {v : Word64} {n align : Nat} {la : Word64} :
    checkedOperand c p v n align = .ok la ↔
      insideLimits c p (effectiveAddress p v) n = true ∧ la.toNat % align = 0 ∧ la = linear p (effectiveAddress p v) := by
  unfold checkedOperand
  by_cases h1 : insideLimits c p (effectiveAddress p v) n = false
  · simp [h1]
  · by_cases h2 : (linear p (effectiveAddress p v)).toNat % align = 0
    · have h1' : insideLimits c p (effectiveAddress p v) n = true := by simpa using h1
      simp only [h1', h2, Bool.true_eq_false, if_false, ne_eq, not_true, Check.ok.injEq, true_and]
      exact ⟨fun h => ⟨h ▸ h2, h.symm⟩, fun h => h.2.symm⟩
    · have h1' : insideLimits c p (effectiveAddress p v) n = true := by simpa using h1
      simp only [h1', h2, Bool.true_eq_false, if_false, ne_eq, not_false_iff, if_true, reduceCtorEq, false_iff, true_and]
      rintro ⟨h, rfl⟩
      exact h2 h

/-- A checked operand passes or ends in `#GP(0)`: there is no third outcome. -/
theorem checkedOperand_cases (c : Config) (p : Processor) (v : Word64) (n align : Nat) :
    checkedOperand c p v n align = .raise .gp0 ∨ ∃ la, checkedOperand c p v n align = .ok la := by
  unfold checkedOperand
  split
  · exact Or.inl rfl
  · split
    · exact Or.inl rfl
    · exact Or.inr ⟨_, rfl⟩

end Sys2Proof.Machine
end

