-- ==== Sys2Proof/Laws/Ecreate.lean ====
section
/-! SUPPORT. What the transitions of ECREATE can do, said once: the provers cite these instead of unfolding the meanings. -/

namespace Sys2Proof.Machine

variable {s t : State} {p : Processor}

/-! ### The checks of the acquire -/

/-- The destination resolves, or `#PF(DS:RCX)`. -/
theorem resolveDestination_eq_ok {c : Config} {la pa : Word64} :
    resolveDestination c p la = .ok pa ↔ translate p la .enclaveWrite = .phys pa ∧ inRegions c.epc (frameOf pa) = true := by
  unfold resolveDestination
  cases h : translate p la .enclaveWrite with
  | fault cause => simp
  | phys q =>
    by_cases hq : inRegions c.epc (frameOf q) = true
    · simp only [hq, Bool.true_eq_false, if_false, Check.ok.injEq, Translation.phys.injEq]
      exact ⟨fun e => ⟨e, e ▸ hq⟩, fun e => e.1⟩
    · have hq' : inRegions c.epc (frameOf q) = false := by simpa using hq
      simp only [hq', if_true, Translation.phys.injEq, reduceCtorEq, false_iff]
      rintro ⟨rfl, h2⟩
      exact hq h2

/-- The checks pass exactly if each passes in turn; the answer holds the temporaries (spec/40_ecreate.md R83 to R90). -/
theorem acquireChecks_eq_ok {k : Ticket} :
    acquireChecks s p = .ok k ↔
      ∃ laPi laSecs pa pageinfo ptrs secinfo,
        checkedOperand s.cfg p p.rbx s.cfg.pageinfo.size 32 = .ok laPi ∧
        checkedOperand s.cfg p p.rcx pageBytes pageBytes = .ok laSecs ∧
        resolveDestination s.cfg p laSecs = .ok pa ∧
        readOperand s.cfg p (s.view 0) laPi s.cfg.pageinfo.size = .ok pageinfo ∧
        pageinfoPointers s.cfg p pageinfo = .ok ptrs ∧
        checkUnusedPageinfo s.cfg pageinfo = .ok () ∧
        readOperand s.cfg p (s.view 1) ptrs.2 s.cfg.secinfo.size = .ok secinfo ∧
        checkSecinfo s.cfg secinfo = .ok () ∧
        k = { laSecs := laSecs, phys := pa, page := frameOf pa, laSrc := ptrs.1 } := by
  simp only [acquireChecks, Check.bind_eq_ok, Check.ok.injEq]
  constructor
  · rintro ⟨a, ha, b, hb, c, hc, d, hd, e, he, ⟨⟩, hf, g, hg, ⟨⟩, hh, rfl⟩
    exact ⟨a, b, c, d, e, g, ha, hb, hc, hd, he, hf, hg, hh, rfl⟩
  · rintro ⟨a, b, c, d, e, g, ha, hb, hc, hd, he, hf, hg, hh, rfl⟩
    exact ⟨a, ha, b, hb, c, hc, d, hd, e, he, (), hf, g, hg, (), hh, rfl⟩

/-- What passes the checks works on an EPC page, through the address paging gave for it. -/
theorem acquireChecks_page_inEpc {k : Ticket} (h : acquireChecks s p = .ok k) :
    s.inEpc k.page = true ∧ k.page = frameOf k.phys := by
  obtain ⟨_, laSecs, pa, _, _, _, _, _, hr, _, _, _, _, _, rfl⟩ := acquireChecks_eq_ok.1 h
  exact ⟨(resolveDestination_eq_ok.1 hr).2, rfl⟩

/-! ### What a transition can do -/

/-- Everything `ECREATE.acquire` can do when it answers a next state (spec/40_ecreate.md R83 to R91). -/
theorem ecreateAcquire_cases (h : ecreateAcquire s p = .next t) :
    launchRefusal s p = none ∧
      ((∃ e, acquireChecks s p = .raise e ∧ t = s.tick.takeEvent p e) ∨
        ∃ k, acquireChecks s p = .ok k ∧
          ((s.entry k.page).lock = .free ∧
              t = (s.tick.setLock k.page (.held [s.active])).setCurrent { p with phase := .ecreate k } ∨
            (s.entry k.page).lock ≠ .free ∧ t = s.tick.takeEvent p (conflictEvent p k))) := by
  unfold ecreateAcquire at h
  split at h
  · cases h
  · rename_i hl
    refine ⟨hl, ?_⟩
    split at h
    · cases h
    · rename_i e he
      cases h
      exact Or.inl ⟨e, he, rfl⟩
    · rename_i k hk
      cases h
      refine Or.inr ⟨k, hk, ?_⟩
      unfold acquireEntry
      rw [State.entry_tick]
      cases hlock : (s.entry k.page).lock with
      | free => exact Or.inl ⟨rfl, rfl⟩
      | held hs => exact Or.inr ⟨by simp, rfl⟩

/-- Everything `ECREATE.commit` can do when it answers a next state (spec/40_ecreate.md R93 to R123). -/
theorem ecreateCommit_cases {k : Ticket} (h : ecreateCommit s p k = .next t) :
    ((s.entry k.page).valid = true ∧ t = s.tick.releaseAndTake p k.page (.pf k.laSecs .enclaveWrite .epcmValid)) ∨
      (s.entry k.page).valid = false ∧
        ((∃ e, readOperand s.cfg p (s.view 2) k.laSrc pageBytes = .raise e ∧ t = s.tick.releaseAndTake p k.page e) ∨
          ∃ b, readOperand s.cfg p (s.view 2) k.laSrc pageBytes = .ok b ∧
            (firstFailure s.cfg b ≠ none ∧
                t = ((s.tick.setPage k.page b).scramble k.page).releaseAndTake p k.page .gp0 ∨
              firstFailure s.cfg b = none ∧ t = completeEcreate (s.tick.setPage k.page b) p k b)) := by
  unfold ecreateCommit at h
  split at h
  · rename_i hv
    cases h
    exact Or.inl ⟨hv, rfl⟩
  · rename_i hv
    refine Or.inr ⟨by simpa using hv, ?_⟩
    split at h
    · cases h
    · rename_i e he
      cases h
      exact Or.inl ⟨e, he, rfl⟩
    · rename_i b hb
      cases h
      refine Or.inr ⟨b, hb, ?_⟩
      unfold validateAndComplete
      rw [State.page_setPage_same, State.setPage_cfg, State.tick_cfg]
      cases hf : firstFailure s.cfg b with
      | none => exact Or.inr ⟨rfl, rfl⟩
      | some c => exact Or.inl ⟨by simp, rfl⟩

/-- ECREATE answers a next state through one of its two transitions of the executing processor. -/
theorem exec_enclsEcreate_cases (h : exec .enclsEcreate s = .next t) :
    ∃ p, s.current = some p ∧
      ((p.phase = .idle ∧ ecreateAcquire s p = .next t) ∨
        ∃ k, p.phase = .ecreate k ∧ ecreateCommit s p k = .next t) := by
  simp only [exec, execEnclsEcreate] at h
  split at h
  · cases h
  · rename_i p hp
    refine ⟨p, hp, ?_⟩
    split at h
    · rename_i hi
      exact Or.inl ⟨hi, h⟩
    · rename_i k hk
      exact Or.inr ⟨k, hk, h⟩
    · cases h

/-- ECREATE never stops the machine with a fault: its exceptions are next states (log 11). -/
theorem exec_ne_fault (i : Instr) (f : Fault) : exec i s ≠ .fault f := by
  cases i
  simp only [exec, execEnclsEcreate]
  split
  · simp
  · split
    · unfold ecreateAcquire
      split
      · simp
      · split <;> simp
    · unfold ecreateCommit
      split
      · simp
      · split <;> simp
    · simp

/-! ### The created page -/

@[simp] theorem completeEcreate_page_same (k : Ticket) (b : Block) :
    (completeEcreate s p k b).page k.page = initializedSecs s.cfg b s.nextEid k.phys :=
  State.page_setPage_same s k.page _

theorem completeEcreate_page_other (k : Ticket) (b : Block) {q : Nat} (h : q ≠ k.page) :
    (completeEcreate s p k b).page q = s.page q :=
  State.page_setPage_other s _ h

@[simp] theorem completeEcreate_entry_same (k : Ticket) (b : Block) :
    (completeEcreate s p k b).entry k.page = createdEntry s.cfg :=
  Assoc.read_write_same s.epcm k.page _

theorem completeEcreate_entry_other (k : Ticket) (b : Block) {q : Nat} (h : q ≠ k.page) :
    (completeEcreate s p k b).entry q = s.entry q :=
  Assoc.read_write_other s.epcm _ h

@[simp] theorem completeEcreate_hiddenAt_same (k : Ticket) (b : Block) :
    (completeEcreate s p k b).hiddenAt k.page = initializedHidden s.cfg b := by
  unfold State.hiddenAt State.drawnAt
  rw [completeEcreate_scrambled, Assoc.read_write_same, completeEcreate_hidden, Assoc.read_write_same]

theorem completeEcreate_hiddenAt_other (k : Ticket) (b : Block) {q : Nat} (h : q ≠ k.page) :
    (completeEcreate s p k b).hiddenAt q = s.hiddenAt q := by
  unfold State.hiddenAt State.drawnAt
  rw [completeEcreate_scrambled, Assoc.read_write_other _ _ h, completeEcreate_hidden, Assoc.read_write_other _ _ h]

end Sys2Proof.Machine
end

