-- ==== Sys2Proof/Laws/Layout.lean ====
section
/-! SUPPORT. Fields of a structure: what a read gives after a write. -/

namespace Sys2Proof.Machine

theorem fieldOf_testBit (v : Nat) (f : Field) (i : Nat) :
    (fieldOf v f).testBit i = (decide (i < f.len) && v.testBit (f.lo + i)) := by
  simp only [fieldOf, Nat.testBit_mod_two_pow, Nat.testBit_shiftRight]

theorem getField_testBit (b : Block) (f : Field) (i : Nat) :
    (getField b f).testBit i = (decide (i < f.len) && b.getLsbD (f.lo + i)) := by
  simp only [getField, fieldOf_testBit, BitVec.testBit_toNat]

theorem getField_lt (b : Block) (f : Field) : getField b f < 2 ^ f.len :=
  Nat.mod_lt _ (Nat.two_pow_pos _)

/-- A field of a value holds no bit above its width. -/
theorem fieldOf_lt (v : Nat) (f : Field) : fieldOf v f < 2 ^ f.len :=
  Nat.mod_lt _ (Nat.two_pow_pos _)

/-- Writing a field changes the field's bits and no other. -/
theorem setField_getLsbD (b : Block) (f : Field) (v i : Nat) :
    (setField b f v).getLsbD i =
      (decide (i < 32768) && (if f.lo ≤ i ∧ i < f.lo + f.len then v.testBit (i - f.lo) else b.getLsbD i)) := by
  simp only [setField, fieldMask, BitVec.getLsbD_or, BitVec.getLsbD_and, BitVec.getLsbD_not, BitVec.getLsbD_ofNat,
    Nat.testBit_shiftLeft, Nat.testBit_two_pow_sub_one, Nat.testBit_mod_two_pow]
  by_cases hi : i < 32768
  · by_cases hlo : f.lo ≤ i
    · by_cases hlen : i - f.lo < f.len
      · have h : i < f.lo + f.len := by omega
        simp [hi, hlo, hlen, h]
      · have h : ¬ i < f.lo + f.len := by omega
        simp [hi, hlo, hlen, h]
    · simp [hi, hlo]
  · simp [hi, BitVec.getLsbD_of_ge b i (Nat.le_of_not_lt hi)]

/-- A bit outside the field written is as before. -/
theorem setField_getLsbD_outside (b : Block) {f : Field} (v : Nat) {i : Nat} (h : i < f.lo ∨ f.lo + f.len ≤ i) :
    (setField b f v).getLsbD i = b.getLsbD i := by
  rw [setField_getLsbD, if_neg (by omega)]
  by_cases hi : i < 32768
  · simp [hi]
  · simp [hi, BitVec.getLsbD_of_ge b i (Nat.le_of_not_lt hi)]

/-- A field read after it was written is the value, truncated to the field. -/
theorem getField_setField_same (b : Block) {f : Field} (v : Nat) (h : f.lo + f.len ≤ 32768) :
    getField (setField b f v) f = v % 2 ^ f.len := by
  apply Nat.eq_of_testBit_eq
  intro i
  rw [getField_testBit, setField_getLsbD, Nat.testBit_mod_two_pow]
  by_cases hi : i < f.len
  · have h1 : f.lo + i < 32768 := by omega
    simp [hi, h1]
  · simp [hi]

/-- A field that shares no bit with the field written reads as before. -/
theorem getField_setField_other (b : Block) {f g : Field} (v : Nat)
    (h : g.lo + g.len ≤ f.lo ∨ f.lo + f.len ≤ g.lo) : getField (setField b f v) g = getField b g := by
  apply Nat.eq_of_testBit_eq
  intro i
  rw [getField_testBit, getField_testBit, setField_getLsbD]
  by_cases hi : i < g.len
  · have h1 : ¬ (f.lo ≤ g.lo + i ∧ g.lo + i < f.lo + f.len) := by omega
    by_cases hb : g.lo + i < 32768
    · simp [hi, h1, hb]
    · simp [hi, h1, hb, BitVec.getLsbD_of_ge b _ (Nat.le_of_not_lt hb)]
  · simp [hi]

/-- Two sets of bits share none exactly if no bit of the second is in the first. -/
theorem and_eq_zero_iff {w : Nat} (a b : BitVec w) :
    a &&& b = 0 ↔ ∀ i, i < w → b.getLsbD i = true → a.getLsbD i = false := by
  constructor
  · intro h i _ hb
    have := congrArg (·.getLsbD i) h
    simpa [hb] using this
  · intro h
    apply BitVec.eq_of_getLsbD_eq
    intro i hi
    rw [BitVec.getLsbD_and]
    cases hb : b.getLsbD i
    · simp
    · simp [h i hi hb]

/-- A bit of the mask of a field. -/
theorem fieldMask_testBit (f : Field) (i : Nat) :
    (fieldMask f).testBit i = decide (f.lo ≤ i ∧ i < f.lo + f.len) := by
  simp only [fieldMask, Nat.testBit_shiftLeft, Nat.testBit_two_pow_sub_one]
  by_cases h : f.lo ≤ i
  · simp only [ge_iff_le, h, decide_true, true_and, Bool.true_and, decide_eq_decide]
    omega
  · simp [h]

/-- A union that exists is of sets no two of which share a bit. -/
theorem disjointUnion_eq_some (ms : List Nat) (u : Nat) (h : disjointUnion ms = some u) :
    ms.Pairwise (fun a b => a &&& b = 0) ∧ ∀ i, u.testBit i = ms.any (fun m => m.testBit i) := by
  induction ms generalizing u with
  | nil => simp [disjointUnion] at h; subst h; simp
  | cons m t ih =>
    simp only [disjointUnion, List.foldr_cons] at h
    split at h
    · cases h
    · rename_i v hv
      split at h
      · rename_i h0
        cases h
        obtain ⟨hp, hb⟩ := ih v hv
        refine ⟨List.pairwise_cons.2 ⟨fun b hbm => Nat.eq_of_testBit_eq fun i => ?_, hp⟩, fun i => ?_⟩
        · have := congrArg (·.testBit i) h0
          simp only [Nat.testBit_and, Nat.zero_testBit, hb] at this ⊢
          cases hx : m.testBit i
          · simp
          · simp [hx] at this; simp [this b hbm]
        · simp [Nat.testBit_or, hb, Bool.or_comm]
      · cases h

end Sys2Proof.Machine
end

