-- ==== Sys2Proof/Laws/PerInstr.lean ====
section
/-! SUPPORT. Statements for all instructions, one lemma per constructor. -/

namespace Sys2Proof.Laws.Shape

/-- An instruction is well formed, its words are the bytes given for it, and with the table's they are the three that
spec/opcode_table.json says. -/
def Statement (i : Instr) : Prop :=
  WellFormed i = true ∧ (∀ opcode, encode opcode i = opcode) ∧ (encode tableOpcode i).length = 3

theorem enclsEcreate : Statement .enclsEcreate := ⟨rfl, fun _ => rfl, rfl⟩

end Sys2Proof.Laws.Shape
end

