-- ==== Sys2Proof/Laws/Placement.lean ====
section
/-! SUPPORT. The launch premises: where a source-side operand lies, who holds the locks, and when nothing of them refuses
(spec/70_reset_and_hazards.md R149). -/

namespace Sys2Proof.Machine

/-! ### Where an operand lies -/

/-- The frame a translation names, if it names one. -/
def Translation.frame? (t : Translation) : Option Nat :=
  match t with
  | .phys pa => some (frameOf pa)
  | .fault _ => none

/-- Two addresses of one page have translations of one frame, or neither has one (log 23). -/
theorem translate_frame_same_page {p : Processor} {la lb : Word64} {kind : AccessKind}
    (h : lb.toNat / pageBytes = la.toNat / pageBytes) :
    (Machine.translate p lb kind).frame? = (Machine.translate p la kind).frame? := by
  unfold Machine.translate
  rw [h]
  split
  · rfl
  · split
    · simp only [Translation.frame?, frameOf, BitVec.toNat_ofNat, pageBytes, Option.some.injEq]
      omega
    · rfl

/-- Truncating twice is truncating once. -/
@[simp] theorem wrapAddress_wrapAddress (m : Mode) (a : Word64) :
    wrapAddress m (wrapAddress m a) = wrapAddress m a := by
  cases m <;> simp [wrapAddress]

/-- A linear address has the width of the mode. -/
@[simp] theorem wrapAddress_linear (p : Processor) (off : Word64) :
    wrapAddress p.mode (linear p off) = linear p off := by
  unfold linear
  cases h : p.mode <;> simp [wrapAddress]

/-- A byte further inside a page is in that page. -/
theorem page_add {m : Mode} {la : Word64} {k : Nat} (hw : wrapAddress m la = la)
    (hk : la.toNat % pageBytes + k < pageBytes) :
    (wrapAddress m (la + BitVec.ofNat 64 k)).toNat / pageBytes = la.toNat / pageBytes := by
  have hlt : la.toNat < 2 ^ 64 := la.isLt
  have h1 : (la + BitVec.ofNat 64 k).toNat = la.toNat + k := by
    rw [BitVec.toNat_add, BitVec.toNat_ofNat]
    unfold pageBytes at hk
    omega
  cases m <;> simp only [wrapAddress]
  · simp only [wrapAddress] at hw
    have hw2 := congrArg BitVec.toNat hw
    simp only [BitVec.toNat_setWidth] at hw2
    simp only [BitVec.toNat_setWidth, h1]
    unfold pageBytes at *
    omega
  · rw [h1]; unfold pageBytes at *; omega
  · rw [h1]; unfold pageBytes at *; omega

/-- Whether a translation lands in one of the regions. -/
theorem lands_iff (rs : List Region) (t : Translation) :
    landsIn rs t = true ↔ ∃ f, t.frame? = some f ∧ inRegions rs f = true := by
  cases t <;> simp [landsIn, Translation.frame?]

/-- The parts of an operand land in a region exactly if one of its bytes does (spec/20_memory.md R59, R63). -/
theorem translatesInto_iff {rs : List Region} {p : Processor} {la : Word64} {n : Nat} (hw : wrapAddress p.mode la = la)
    (hn : 0 < n ∧ n ≤ pageBytes) :
    translatesInto rs (operandTranslations p la n) = true ↔ TouchesRegion rs p la n := by
  have hbyte : ∀ k f, (Machine.translate p (wrapAddress p.mode (la + BitVec.ofNat 64 k)) .nonEnclaveRead).frame? = some f →
      inRegions rs f = true → k < n → TouchesRegion rs p la n := by
    intro k f hf hr hk
    cases ht : Machine.translate p (wrapAddress p.mode (la + BitVec.ofNat 64 k)) .nonEnclaveRead with
    | fault c => simp [ht, Translation.frame?] at hf
    | phys pa =>
      simp only [ht, Translation.frame?, Option.some.injEq] at hf
      exact ⟨k, pa, hk, ht, hf ▸ hr⟩
  have h0 : wrapAddress p.mode (la + BitVec.ofNat 64 0) = la := by simpa using hw
  have hmod : la.toNat % pageBytes < pageBytes := Nat.mod_lt _ (by decide)
  have hsecond : ∀ j, j < pageBytes →
      (wrapAddress p.mode (la + BitVec.ofNat 64 (pageBytes - la.toNat % pageBytes + j))).toNat / pageBytes =
        (wrapAddress p.mode (la + BitVec.ofNat 64 (pageBytes - la.toNat % pageBytes))).toNat / pageBytes := by
    intro j hj
    have hz : (wrapAddress p.mode (la + BitVec.ofNat 64 (pageBytes - la.toNat % pageBytes))).toNat % pageBytes = 0 := by
      have : (la + BitVec.ofNat 64 (pageBytes - la.toNat % pageBytes)).toNat % pageBytes = 0 := by
        simp only [BitVec.toNat_add, BitVec.toNat_ofNat]; unfold pageBytes at *; omega
      cases p.mode <;> simp only [wrapAddress]
      · simp only [BitVec.toNat_setWidth] at *; unfold pageBytes at *; omega
      · exact this
      · exact this
    have := page_add (m := p.mode) (wrapAddress_wrapAddress p.mode _) (k := j)
      (la := wrapAddress p.mode (la + BitVec.ofNat 64 (pageBytes - la.toNat % pageBytes))) (by rw [hz]; omega)
    rwa [wrapAddress_add_add] at this
  unfold translatesInto operandTranslations operandPieces
  by_cases hr : n ≤ pageBytes - la.toNat % pageBytes
  · simp only [hr, if_true, List.map_cons, List.map_nil, List.any_cons, List.any_nil, Bool.or_false, lands_iff]
    constructor
    · rintro ⟨f, hf, hi⟩
      exact hbyte 0 f (by rw [h0]; exact hf) hi hn.1
    · rintro ⟨k, pa, hk, ht, hi⟩
      refine ⟨frameOf pa, ?_, hi⟩
      rw [← translate_frame_same_page (page_add hw (k := k) (by omega)), ht]
      rfl
  · simp only [hr, if_false, List.map_cons, List.map_nil, List.any_cons, List.any_nil, Bool.or_false, Bool.or_eq_true,
      lands_iff]
    constructor
    · rintro (⟨f, hf, hi⟩ | ⟨f, hf, hi⟩)
      · exact hbyte 0 f (by rw [h0]; exact hf) hi hn.1
      · exact hbyte _ f hf hi (by omega)
    · rintro ⟨k, pa, hk, ht, hi⟩
      by_cases hk2 : k < pageBytes - la.toNat % pageBytes
      · refine Or.inl ⟨frameOf pa, ?_, hi⟩
        rw [← translate_frame_same_page (page_add hw (k := k) (by omega)), ht]
        rfl
      · refine Or.inr ⟨frameOf pa, ?_, hi⟩
        have := hsecond (k - (pageBytes - la.toNat % pageBytes)) (by omega)
        rw [show pageBytes - la.toNat % pageBytes + (k - (pageBytes - la.toNat % pageBytes)) = k by omega] at this
        rw [← translate_frame_same_page this, ht]
        rfl

/-- An operand is not refused for its place exactly if every byte of it is well placed. -/
theorem placementRefusal_eq_none_iff {c : Config} {p : Processor} {la : Word64} {n : Nat}
    (hw : wrapAddress p.mode la = la) (hn : 0 < n ∧ n ≤ pageBytes) :
    placementRefusal c p la n = none ↔ Placed c p la n := by
  unfold placementRefusal Placed
  rw [← translatesInto_iff hw hn, ← translatesInto_iff hw hn]
  split
  · rename_i h; simp [h]
  · split
    · rename_i h; simp [h]
    · rename_i h1 h2; simp [h1, h2]

/-! ### Who holds the locks -/

/-- A leaf is executed that may hold the entry of a page. -/
theorem leafOn_iff {s : State} {page a : Nat} :
    s.leafOn page a = true ↔
      ∃ q, s.procs[a]? = some q ∧ (q.phase = .otherLeaf ∨ ∃ k, q.phase = .ecreate k ∧ k.page = page) := by
  unfold State.leafOn
  cases s.procs[a]? with
  | none => simp
  | some q => cases h : q.phase <;> simp [h]

/-- The check of the locks is premise P4. -/
theorem locksHonest_iff {s : State} : s.locksHonest = true ↔ s.LocksHeld := by
  have hpage : ∀ n, s.lockHonest n = true ↔
      ((s.entry n).lock = .free ∨ ∃ hs, (s.entry n).lock = .held hs ∧ hs ≠ [] ∧
        ∀ a ∈ hs, ∃ q, s.procs[a]? = some q ∧ (q.phase = .otherLeaf ∨ ∃ k, q.phase = .ecreate k ∧ k.page = n)) := by
    intro n
    unfold State.lockHonest
    cases (s.entry n).lock with
    | free => simp
    | held hs => simp [leafOn_iff]
  unfold State.locksHonest State.LocksHeld
  simp only [List.all_eq_true, Bool.or_eq_true, Bool.not_eq_true', hpage]
  constructor
  · intro h n hn
    by_cases hl : ∃ c ∈ s.epcm, c.1 = n
    · obtain ⟨c, hc, rfl⟩ := hl
      rcases h c hc with h | h
      · rw [hn] at h; cases h
      · exact h
    · refine Or.inl ?_
      rw [State.entry, Assoc.read_of_not_listed fun c hc he => hl ⟨c, hc, he⟩]
      rfl
  · intro h c _
    cases hn : s.inEpc c.1 with
    | false => exact Or.inl rfl
    | true => exact Or.inr (h _ hn)

/-- Who executes a leaf depends on the phases only. -/
theorem State.leafOn_setCurrent {s : State} {p q : Processor} (hc : s.current = some p) (hq : q.phase = p.phase)
    (page a : Nat) : (s.setCurrent q).leafOn page a = s.leafOn page a := by
  unfold State.leafOn
  by_cases ha : a = s.active
  · subst ha
    have h1 : (s.setCurrent q).procs[s.active]? = some q := State.current_setCurrent s hc
    have h2 : s.procs[s.active]? = some p := hc
    rw [h1, h2]
    simp only [hq]
  · rw [State.procs_setCurrent_other s q ha]

/-- A write to the executing processor that keeps its phase keeps premise P4. -/
theorem State.locksHonest_setCurrent {s : State} {p q : Processor} (hc : s.current = some p) (hq : q.phase = p.phase) :
    (s.setCurrent q).locksHonest = s.locksHonest := by
  unfold State.locksHonest State.lockHonest
  simp only [funext (State.leafOn_setCurrent hc hq _)]
  rfl

/-! ### The premises together -/

/-- P1 to P3 refuse nothing exactly if they hold. -/
theorem processorRefusal_eq_none_iff {s : State} {p : Processor} (hc : s.current = some p) (hi : p.phase = .idle) :
    processorRefusal s.cfg p = none ↔ Launchable s p := by
  unfold processorRefusal Launchable enclsPermitted eax
  simp only [hc, hi, true_and]
  split <;> rename_i h1
  · simp [h1]
  · rw [Bool.not_eq_false] at h1
    split <;> rename_i h2
    · simp [h2]
    · have hm : p.mode = .prot32 ∨ p.mode = .mode64 := by cases h : p.mode <;> simp_all
      split <;> rename_i h3
      · simp only [Bool.and_eq_false_iff, List.contains_eq_mem, decide_eq_false_iff_not] at h3
        simp only [reduceCtorEq, false_iff]
        rintro ⟨-, -, ⟨ha, hb⟩, -⟩
        rcases h3 with h3 | h3
        · rw [ha] at h3; cases h3
        · exact h3 hb
      · simp only [Bool.not_eq_false, Bool.and_eq_true, List.contains_eq_mem, decide_eq_true_eq] at h3
        split <;> rename_i h4
        · exact iff_of_false (by simp) fun hh => h4 hh.2.2.2.1
        · simp only [ne_eq, not_not] at h4
          split <;> rename_i h5
          · simp only [reduceCtorEq, false_iff]
            rintro ⟨-, -, -, -, hd⟩
            obtain ⟨ha, hb⟩ := hd h5.1
            rcases h5.2 with h | h
            · rw [ha] at h; cases h
            · rw [hb] at h; cases h
          · simp only [true_iff]
            refine ⟨h1, hm, h3, h4, fun h => ?_⟩
            simp only [h, true_and, not_or, Bool.not_eq_false, Bool.not_eq_true] at h5
            exact h5

/-- P5 refuses nothing exactly if it holds. -/
theorem placementPremise_eq_none_iff {s : State} {p : Processor}
    (hp : 0 < s.cfg.pageinfo.size ∧ s.cfg.pageinfo.size ≤ pageBytes)
    (hs : 0 < s.cfg.secinfo.size ∧ s.cfg.secinfo.size ≤ pageBytes) :
    placementPremise s p = none ↔ OperandsPlaced s p := by
  have hb : 0 < pageBytes ∧ pageBytes ≤ pageBytes := by decide
  unfold placementPremise OperandsPlaced laPageinfo srcpgeOf secinfoOf pointerOf
  rw [← placementRefusal_eq_none_iff (wrapAddress_linear p _) hp]
  simp only [← placementRefusal_eq_none_iff (wrapAddress_linear p _) hb,
    ← placementRefusal_eq_none_iff (wrapAddress_linear p _) hs]
  unfold readOperand
  cases h1 : placementRefusal s.cfg p (linear p (effectiveAddress p p.rbx)) s.cfg.pageinfo.size with
  | some r => simp
  | none =>
    cases h2 : firstPageFault (operandTranslations p (linear p (effectiveAddress p p.rbx)) s.cfg.pageinfo.size) with
    | some c => simp
    | none => simp [Option.or_eq_none_iff]

/-- The sizes of a well-formed configuration's structures. -/
theorem configWf_sizes {c : Config} (h : configWf c = true) :
    (0 < c.pageinfo.size ∧ c.pageinfo.size ≤ pageBytes) ∧ (0 < c.secinfo.size ∧ c.secinfo.size ≤ pageBytes) := by
  simp only [configWf, pageinfoWf, secinfoWf, Bool.and_eq_true, decide_eq_true_eq] at h
  obtain ⟨⟨⟨⟨⟨⟨⟨⟨_, hp⟩, hs⟩, _⟩, _⟩, _⟩, _⟩, _⟩, _⟩ := h
  exact ⟨hp.1, hs.1.1.1, hs.1.1.2.1⟩

/-- The launch premises refuse nothing exactly if they hold. -/
theorem launchRefusal_eq_none_iff {s : State} {p : Processor} (hc : s.current = some p) (hi : p.phase = .idle) :
    launchRefusal s p = none ↔ Admitted s p := by
  unfold launchRefusal Admitted
  rw [← processorRefusal_eq_none_iff hc hi, ← locksHonest_iff]
  cases h : processorRefusal s.cfg p with
  | some r => simp
  | none =>
    have hl := (processorRefusal_eq_none_iff hc hi).1 h
    obtain ⟨hp, hs⟩ := configWf_sizes hl.2.2.1
    rw [← placementPremise_eq_none_iff hp hs]
    cases s.locksHonest <;> simp

/-- With premise P5 met, the operand checks never refuse: they pass, or raise an event. -/
theorem acquireChecks_ne_refuse {s : State} {p : Processor} (h : placementPremise s p = none) (r : Refusal) :
    acquireChecks s p ≠ .refuse r := by
  have hco : ∀ v n a, checkedOperand s.cfg p v n a ≠ .refuse r := by
    intro v n a hv
    rcases checkedOperand_cases s.cfg p v n a with h' | ⟨_, h'⟩ <;> rw [h'] at hv <;> cases hv
  unfold placementPremise at h
  intro hr
  simp only [acquireChecks, Check.bind_eq_refuse] at hr
  rcases hr with hr | ⟨a, ha, hr | ⟨_, _, hr | ⟨_, _, hr | ⟨b, hb, hr | ⟨ptrs, hp, hr | ⟨_, _, hr | ⟨_, _, hr | ⟨_, _, hr⟩⟩⟩⟩⟩⟩⟩⟩
  · exact hco _ _ _ hr
  · exact hco _ _ _ hr
  · unfold resolveDestination at hr
    split at hr
    · cases hr
    · split at hr <;> cases hr
  · obtain ⟨-, -, rfl⟩ := checkedOperand_eq_ok.1 ha
    rw [hr] at h
    cases h
  · simp only [pageinfoPointers, Check.bind_eq_refuse] at hr
    rcases hr with hr | ⟨_, _, hr | ⟨_, _, hr⟩⟩
    · exact hco _ _ _ hr
    · exact hco _ _ _ hr
    · cases hr
  · unfold checkUnusedPageinfo at hr
    split at hr <;> cases hr
  · obtain ⟨-, -, rfl⟩ := checkedOperand_eq_ok.1 ha
    rw [hb] at h
    simp only [pageinfoPointers, Check.bind_eq_ok, Check.ok.injEq] at hp
    obtain ⟨laSrc, -, laSi, hsi, rfl⟩ := hp
    obtain ⟨-, -, rfl⟩ := checkedOperand_eq_ok.1 hsi
    have := readOperand_eq_refuse hr
    rw [(Option.or_eq_none_iff.1 h).2] at this
    cases this
  · unfold checkSecinfo at hr
    split at hr <;> cases hr
  · cases hr

/-- An invocation that meets its premises is refused nowhere: its checks raise an event, or they take the entry. -/
theorem exec_admitted {s : State} {p : Processor} (h : Admitted s p) :
    (∃ e, acquireChecks s p = .raise e ∧ exec .enclsEcreate s = .next (s.tick.takeEvent p e)) ∨
      ∃ t, acquireChecks s p = .ok t ∧ exec .enclsEcreate s = .next (acquireEntry s.tick p t) := by
  have hl := (launchRefusal_eq_none_iff h.1.1 h.1.2.1).2 h
  have hp := (placementPremise_eq_none_iff (configWf_sizes h.1.2.2.1).1 (configWf_sizes h.1.2.2.1).2).2 h.2.2
  have hx : exec .enclsEcreate s = ecreateAcquire s p := by simp [exec, execEnclsEcreate, h.1.1, h.1.2.1]
  rw [hx]
  unfold ecreateAcquire
  simp only [hl]
  cases hc : acquireChecks s p with
  | refuse r => exact absurd hc (acquireChecks_ne_refuse hp r)
  | raise e => exact Or.inl ⟨e, rfl, rfl⟩
  | ok t => exact Or.inr ⟨t, rfl, rfl⟩

end Sys2Proof.Machine
end

