-- ==== Sys2Proof/Laws/Step.lean ====
section
/-! SUPPORT. What a step can do, said once, and that the canonical form is kept by every operation. -/

namespace Sys2Proof.Machine

variable {s t : State}

/-- What is settled answers a next state exactly if what it settles does. -/
theorem settled_eq_next {u : State} {o : Host.Outcome State Fault Refusal} :
    settled u o = .next t ↔ ∃ x, o = .next x ∧ t = settle u x := by
  cases o with
  | next x => simp [settled, eq_comm]
  | fault f => simp [settled]
  | refused r => simp [settled]

/-- A move of the active processor that answers a next state is an execution of the one instruction by a processor
without a recorded event, settled, whatever the fetch (spec/00_scope.md R7). -/
theorem processorMove_cases {fetch : Fetch} (h : processorMove fetch s = .next t) :
    ∃ p x, s.current = some p ∧ p.event = none ∧ exec .enclsEcreate s = .next x ∧ t = settle s x := by
  unfold processorMove at h
  split at h
  · cases h
  · rename_i p hp
    split at h
    · cases h
    · rename_i he
      split at h
      · obtain ⟨x, hx, rfl⟩ := settled_eq_next.1 h
        exact ⟨p, x, hp, he, hx, rfl⟩
      · cases h
      · split at h
        · cases h
        · rename_i i _
          cases i
          obtain ⟨x, hx, rfl⟩ := settled_eq_next.1 h
          exact ⟨p, x, hp, he, hx, rfl⟩

/-- Everything a step can do when it answers a next state, whatever the fetch: the processor whose turn it is executes
ECREATE and its end is settled, or another agent moves. -/
theorem stepWith_cases {fetch : Fetch} (h : stepWith fetch s = .next t) :
    (∃ i rest p x, ({ s with active := i, turns := rest } : State).current = some p ∧ p.event = none ∧
        exec .enclsEcreate { s with active := i, turns := rest } = .next x ∧
        t = settle { s with active := i, turns := rest } x) ∨
      ∃ m rest, agentMove { s with turns := rest } m = .next t := by
  unfold stepWith at h
  split at h
  · rename_i ht
    obtain ⟨p, x, hp, he, hx, hx2⟩ := processorMove_cases h
    have hs : ({ s with active := s.active, turns := [] } : State) = s := by rw [← ht]
    exact Or.inl ⟨s.active, [], p, x, by rw [hs]; exact hp, he, by rw [hs]; exact hx, by rw [hs]; exact hx2⟩
  · rename_i i rest ht
    obtain ⟨p, x, hp, he, hx, hx2⟩ := processorMove_cases h
    exact Or.inl ⟨i, rest, p, x, hp, he, hx, hx2⟩
  · rename_i m rest ht
    exact Or.inr ⟨m, rest, h⟩

/-- The same of `step`. -/
theorem step_cases (h : step s = .next t) :
    (∃ i rest p x, ({ s with active := i, turns := rest } : State).current = some p ∧ p.event = none ∧
        exec .enclsEcreate { s with active := i, turns := rest } = .next x ∧
        t = settle { s with active := i, turns := rest } x) ∨
      ∃ m rest, agentMove { s with turns := rest } m = .next t := stepWith_cases h

/-- What a move between instructions can do: the processor was idle, and its next instruction had not started. -/
theorem betweenInstructions_cases {i : Nat} {f : Processor → State} (h : betweenInstructions s i f = .next t) :
    ∃ p, s.procs[i]? = some p ∧ p.phase = .idle ∧ s.window i = none ∧ t = f p := by
  unfold betweenInstructions at h
  split at h
  · cases h
  · rename_i p hp
    split at h
    · rename_i hi
      split at h
      · rename_i hw
        cases h
        exact ⟨p, hp, hi, hw, rfl⟩
      · cases h
    · cases h
    · cases h

/-- What a move on an entry's lock can do: its processor is inside another leaf, and the entry is not an ECREATE's. -/
theorem entryMove_cases {page i : Nat} {f : EntryLock → EntryLock} (h : entryMove s page i f = .next t) :
    t = s ∨ (s.inEpc page = true ∧ s.inOtherLeaf i = true ∧ s.ecreateOn page = false ∧
      t = s.setLock page (f (s.entry page).lock)) := by
  unfold entryMove at h
  split at h
  · cases h
  · rename_i hin
    split at h
    · cases h
    · rename_i hl
      split at h
      · cases h; exact Or.inl rfl
      · rename_i hon
        cases h
        exact Or.inr ⟨by simpa using hin, by simpa using hl, by simpa using hon, rfl⟩

/-- Everything another agent's move can do when it answers a next state: nothing; a lock joined or left by a processor
inside another leaf; a processor that was idle takes another state, and perhaps begins a leaf; one ends its leaf, holding
no entry; an instruction starts; a byte of ordinary memory; a store under way; stores land. -/
theorem agentMove_cases {m : Move} (h : agentMove s m = .next t) :
    t = s ∨
      (∃ page i l, s.inEpc page = true ∧ s.inOtherLeaf i = true ∧ s.ecreateOn page = false ∧
        (l = joinHolders (s.entry page).lock i ∨ l = leaveHolders (s.entry page).lock i) ∧ t = s.setLock page l) ∨
      (∃ i p q, s.procs[i]? = some p ∧ p.phase = .idle ∧ (q.phase = .idle ∨ q.phase = .otherLeaf) ∧ t = s.setProc i q) ∨
      (∃ i p, s.procs[i]? = some p ∧ p.phase = .otherLeaf ∧ s.holdsEntry i = false ∧
        t = s.setProc i { p with phase := .idle }) ∨
      (∃ i w, t = s.setWindow i w) ∨
      (∃ a b, s.ordinary a = true ∧ t = s.landByte a.toNat b) ∨
      (∃ a b, s.ordinary a = true ∧ t = { s with racing := s.racing ++ [(a.toNat, b)] }) ∨
      ∃ n, t = s.land n := by
  cases m with
  | leafBegin i =>
    obtain ⟨p, hp, hi, -, rfl⟩ := betweenInstructions_cases h
    exact Or.inr (Or.inr (Or.inl ⟨i, p, _, hp, hi, Or.inr rfl, rfl⟩))
  | start i =>
    obtain ⟨p, hp, hi, -, rfl⟩ := betweenInstructions_cases (f := startOn s i) h
    unfold startOn
    split
    · exact Or.inr (Or.inr (Or.inr (Or.inr (Or.inl ⟨i, _, rfl⟩))))
    · exact Or.inl rfl
  | hold page i =>
    rcases entryMove_cases (f := fun l => joinHolders l i) h with h | ⟨h1, h2, h3, h4⟩
    · exact Or.inl h
    · exact Or.inr (Or.inl ⟨page, i, _, h1, h2, h3, Or.inl rfl, h4⟩)
  | unhold page i =>
    rcases entryMove_cases (f := fun l => leaveHolders l i) h with h | ⟨h1, h2, h3, h4⟩
    · exact Or.inl h
    · exact Or.inr (Or.inl ⟨page, i, _, h1, h2, h3, Or.inr rfl, h4⟩)
  | leafEnd i =>
    simp only [agentMove, leafEnd] at h
    split at h
    · cases h
    · rename_i p hp
      split at h
      · cases h
      · rename_i hph
        split at h
        · cases h
        · rename_i hh
          cases h
          exact Or.inr (Or.inr (Or.inr (Or.inl ⟨i, p, hp, by simpa using hph, by simpa using hh, rfl⟩)))
  | software i q =>
    obtain ⟨p, hp, hi, -, rfl⟩ := betweenInstructions_cases h
    exact Or.inr (Or.inr (Or.inl ⟨i, p, _, hp, hi, Or.inl rfl, rfl⟩))
  | resume i =>
    obtain ⟨p, hp, hi, -, rfl⟩ := betweenInstructions_cases (f := fun p => s.setProc i (returned p)) h
    exact Or.inr (Or.inr (Or.inl ⟨i, p, returned p, hp, hi, Or.inl hi, rfl⟩))
  | store a b =>
    simp only [agentMove, softwareStore] at h
    split at h
    · rename_i ho
      cases h
      exact Or.inr (Or.inr (Or.inr (Or.inr (Or.inr (Or.inl ⟨a, b, ho, rfl⟩)))))
    · cases h
  | storeBegin a b =>
    simp only [agentMove, softwareStoreBegin] at h
    split at h
    · rename_i ho
      cases h
      exact Or.inr (Or.inr (Or.inr (Or.inr (Or.inr (Or.inr (Or.inl ⟨a, b, ho, rfl⟩))))))
    · cases h
  | storesLand n =>
    simp only [agentMove] at h
    cases h
    exact Or.inr (Or.inr (Or.inr (Or.inr (Or.inr (Or.inr (Or.inr ⟨n, rfl⟩))))))

/-! ### Every operation keeps the canonical form (logs 7, 8, 15) -/

theorem State.setEntry_canonical (page : Nat) (e : EpcmEntry) (h : s.Canonical) : (s.setEntry page e).Canonical :=
  ⟨h.1, h.2.1, Assoc.write_wf page e h.2.2.1, h.2.2.2⟩

theorem State.setLock_canonical (page : Nat) (l : EntryLock) (h : s.Canonical) : (s.setLock page l).Canonical :=
  State.setEntry_canonical page _ h

theorem State.setPage_canonical (page : Nat) (b : Block) (h : s.Canonical) : (s.setPage page b).Canonical :=
  ⟨h.1, Memory.store_wf _ _ b h.2.1, h.2.2.1, h.2.2.2.1, Assoc.write_wf page none h.2.2.2.2.1, h.2.2.2.2.2⟩

theorem State.setHidden_canonical (page : Nat) (x : SecsHidden) (h : s.Canonical) : (s.setHidden page x).Canonical :=
  ⟨h.1, h.2.1, h.2.2.1, Assoc.write_wf page x h.2.2.2.1, h.2.2.2.2⟩

theorem State.scramble_canonical (page : Nat) (h : s.Canonical) : (s.scramble page).Canonical :=
  ⟨h.1, Memory.store_wf _ _ 0 h.2.1, h.2.2.1, Assoc.write_wf page SecsHidden.reset h.2.2.2.1,
    Assoc.write_wf page _ h.2.2.2.2.1, h.2.2.2.2.2⟩

theorem State.setCurrent_canonical (p : Processor) (h : s.Canonical) : (s.setCurrent p).Canonical := h

theorem State.takeEvent_canonical (p : Processor) (e : Event) (h : s.Canonical) : (s.takeEvent p e).Canonical := h

theorem State.releaseAndTake_canonical (p : Processor) (page : Nat) (e : Event) (h : s.Canonical) :
    (s.releaseAndTake p page e).Canonical :=
  State.takeEvent_canonical p e (State.setLock_canonical page .free h)

theorem completeEcreate_canonical (p : Processor) (k : Ticket) (b : Block) (h : s.Canonical) :
    (completeEcreate s p k b).Canonical :=
  State.setCurrent_canonical _ (State.setEntry_canonical _ _
    (State.setHidden_canonical k.page _ (State.setPage_canonical k.page _ h)))

theorem State.setWindow_canonical (i : Nat) (w : Option Window) (h : s.Canonical) : (s.setWindow i w).Canonical :=
  ⟨h.1, h.2.1, h.2.2.1, h.2.2.2.1, h.2.2.2.2.1, Assoc.write_wf i w h.2.2.2.2.2⟩

theorem State.landByte_canonical (a : Nat) (b : Byte) (h : s.Canonical) : (s.landByte a b).Canonical :=
  ⟨Memory.write_wf _ _ h.1, h.2.1, h.2.2.1, h.2.2.2.1, h.2.2.2.2.1, noteOverwritten_wf _ _ h.2.2.2.2.2⟩

theorem State.land_canonical (n : Nat) (h : s.Canonical) : (s.land n).Canonical :=
  ⟨applyRacing_wf _ _ _ h.1, h.2.1, h.2.2.1, h.2.2.2.1, h.2.2.2.2.1, noteOverwritten_wf _ _ h.2.2.2.2.2⟩

theorem settle_canonical (u : State) {t : State} (h : t.Canonical) : (settle u t).Canonical := by
  unfold settle
  split
  · exact h
  · split
    · exact State.setWindow_canonical _ _ h
    · exact State.land_canonical _ (State.setWindow_canonical _ _ h)
    · exact h

theorem placeBytes_wf (p : Processor) (bytes : List Byte) (k : Nat) {m : Memory} (h : m.wf) :
    (placeBytes p m k bytes).wf := by
  induction bytes generalizing m k with
  | nil => exact h
  | cons b t ih =>
    unfold placeBytes
    split
    · exact ih _ (Memory.write_wf _ _ h)
    · exact ih _ h

theorem State.withFetchBytes_canonical (bytes : List Byte) (h : s.Canonical) : (s.withFetchBytes bytes).Canonical := by
  unfold State.withFetchBytes
  split
  · exact h
  · exact ⟨placeBytes_wf _ _ _ h.1, h.2.1, h.2.2.1, h.2.2.2.1, h.2.2.2.2.1, Assoc.write_wf _ _ h.2.2.2.2.2⟩

/-- Memory after reset has its canonical form. -/
theorem State.reset_mem_wf : Memory.wf State.reset.mem ∧ Memory.wf State.reset.epc := by
  simp [State.reset, Memory.wf, Assoc.Wf]

end Sys2Proof.Machine
end

