-- ==== Sys2Proof/Tests/Slice0.lean ====
section
/-! SUPPORT. The model's own tests: words written out from spec/opcode_table.json, ill-formed configurations, the
example program P1 of spec/95_test_vectors.md, and for every statement with hypotheses a state that meets them. The
states are vector V1's (spec/95_test_vectors.md) changed in one place. -/

namespace Sys2Proof.Machine

-- one theorem after the other: each kernel evaluation in a thread of its own would need too much memory at once
set_option Elab.async false

/-! ### Encoding -/

-- spec/opcode_table.json: match 0xCF010F, 24 bits; the byte at the lowest address is bits 7:0 (R72, R73)
theorem test_decode_encls :
    decode tableOpcode [0b00001111, 0b00000001, 0b11001111, 0x90] = .ok (.enclsEcreate, [0x90]) := by decide
theorem test_decodeTableWord_encls : decodeTableWord 24 0b110011110000000100001111 = some .enclsEcreate := by decide
theorem test_encode_encls : encode tableOpcode .enclsEcreate = tableBytes 24 0xCF010F := by decide
-- ENCLU, and ENCLS behind an operand-size prefix: rejected by name (R78)
theorem test_decode_enclu : decode tableOpcode [0x0F, 0x01, 0xD7] = .error .notEncls := by decide
theorem test_decode_prefixed : decode tableOpcode [0x66, 0x0F, 0x01, 0xCF] = .error .notEncls := by decide
theorem test_decode_short : decode tableOpcode [0x0F, 0x01] = .error .truncated := by decide
-- the bytes are a parameter: with others given for ENCLS, those decode and the table's do not (R8, R73)
theorem test_decode_other_opcode :
    decode [0xAA, 0xBB] [0xAA, 0xBB, 0x90] = .ok (.enclsEcreate, [0x90]) ∧
      decode [0xAA, 0xBB] [0x0F, 0x01, 0xCF] = .error .notEncls := by decide
theorem test_wellFormed_encls : WellFormed .enclsEcreate = true := by decide

/-! ### Configurations: REF is well formed, and each check refuses an ill-formed one (R30, R31, R35, R38, R49) -/

theorem test_config_ref : ConfigWellFormed refConfig := by decide +kernel
theorem test_config_pageinfo_size : ¬ ConfigWellFormed { refConfig with pageinfo := { refPageinfo with size := 0 } } := by
  decide +kernel
theorem test_config_pageinfo_gap :
    ¬ ConfigWellFormed { refConfig with pageinfo := { refPageinfo with secs := bytesField 24 7 } } := by decide +kernel
theorem test_config_pageinfo_overlap :
    ¬ ConfigWellFormed { refConfig with pageinfo := { refPageinfo with secs := bytesField 23 9 } } := by decide +kernel
theorem test_config_secinfo_pt_outside_flags :
    ¬ ConfigWellFormed { refConfig with secinfo := { refSecinfo with pt := ⟨60, 8⟩ } } := by decide +kernel
theorem test_config_secinfo_reserved_overlap :
    ¬ ConfigWellFormed { refConfig with secinfo := { refSecinfo with reserved := refSecinfo.reserved ||| 1 } } := by
  decide +kernel
-- R35: a further field over bits 48 to 79, half in FLAGS (bits 0 to 63), half behind it, and every bit in one place
theorem test_config_secinfo_flags_overlap :
    ¬ ConfigWellFormed { refConfig with secinfo := { refSecinfo with
        others := [⟨0, 6⟩, ⟨48, 32⟩], reserved := 0xC0 ||| byteMask 2 4 ||| byteMask 10 54 } } ∧
      partitions 512 [⟨8, 8⟩, ⟨0, 6⟩, ⟨48, 32⟩] (0xC0 ||| byteMask 2 4 ||| byteMask 10 54).toNat = true := by
  decide +kernel
theorem test_config_secs_size_width :
    ¬ ConfigWellFormed { refConfig with secs := { refSecs with size := bytesField 0 4, others := bytesField 4 4 :: refSecs.others } } := by
  decide +kernel
theorem test_config_secs_gap : ¬ ConfigWellFormed { refConfig with secs := { refSecs with others := [] } } := by
  decide +kernel
theorem test_config_attributes_init_width :
    ¬ ConfigWellFormed { refConfig with attributes := { refAttributes with init := some ⟨0, 2⟩ } } := by decide +kernel
theorem test_config_attributes_overlap :
    ¬ ConfigWellFormed { refConfig with attributes := { refAttributes with kss := ⟨2, 1⟩ } } := by decide +kernel
-- R35 says nothing of a field of width 0: the model accepts none (log 42)
theorem test_config_zero_width :
    ¬ ConfigWellFormed { refConfig with pageinfo := { refPageinfo with others := [⟨0, 0⟩] } } := by decide +kernel
theorem test_config_opcode_empty : ¬ ConfigWellFormed { refConfig with enclsOpcode := [] } := by decide +kernel
-- D14: no standing with SGX not enabled can be permitted
theorem test_config_permitted :
    ¬ ConfigWellFormed { refConfig with permitted := [{ refPermitted.head! with sgxEnabled := false }] } := by
  decide +kernel
theorem test_config_order : ¬ ConfigWellFormed { refConfig with mrenclaveOrder := List.replicate 32 0 } := by
  decide +kernel
theorem test_config_linear_address_bits :
    ¬ ConfigWellFormed { refConfig with linearAddressBits := 0 } ∧
      ¬ ConfigWellFormed { refConfig with linearAddressBits := 65 } := by decide +kernel
theorem test_config_attributes_mask : ¬ ConfigWellFormed { refConfig with attributesMask := 2 ^ 128 } := by
  decide +kernel
theorem test_config_ssa_size : ¬ ConfigWellFormed { refConfig with gprSize := 2 ^ 64 } := by decide +kernel

/-! ### The states of the tests -/

/-- Cells at offsets of a base. -/
def cellsAt (base : Nat) (l : List (Nat × Byte)) : Memory := l.map fun c => (base + c.1, c.2)

/-- Ordinary memory of vector V1: the ENCLS, PAGEINFO (SECINFO, all zero, lies behind it), the source page. -/
def v1Mem : Memory :=
  cellsAt 0x1000 [(0, 0x0F), (1, 0x01), (2, 0xCF)] ++
  cellsAt 0x201000 [(10, 0x30), (16, 0x40), (17, 0x10), (18, 0x20)] ++
  cellsAt 0x300000 [(2, 1), (10, 0x10), (16, 1), (48, 4), (56, 3)]

/-- A processor of vector V1. -/
def v1Proc : Processor := { Processor.reset with rbx := 0x201000, rcx := 0x80000000, pc := 0x1000 }

/-- A machine whose processor 0 is `p`. -/
def machine (p : Processor) : State :=
  { State.reset with procs := [p, v1Proc], mem := v1Mem, nextEid := 0x100 }

/-- Vector V1. -/
def v1 : State := machine v1Proc

/-- V1 with a byte of ordinary memory changed. -/
def v1With (a : Nat) (b : Byte) : State := { v1 with mem := v1.mem.write a b }

/-- V1 with four bytes of ordinary memory changed. -/
def setWord (a w : Nat) : State :=
  { v1 with mem := (List.range 4).foldl (fun m k => m.write (a + k) (BitVec.ofNat 8 (w / 2 ^ (8 * k)))) v1.mem }

/-- The ticket of V1. -/
def v1Ticket : Ticket := { laSecs := 0x80000000, phys := 0x80000000, page := 0x80000, laSrc := 0x300000 }

/-- The processor between the transitions. -/
def insideProc : Processor := { v1Proc with phase := .ecreate v1Ticket }

/-- V1 between the transitions. -/
def v1Inside : State := (machine insideProc).setLock 0x80000 (.held [0])

/-- The same, with another source page. -/
def v1InsideWith (a : Nat) (b : Byte) : State := { v1Inside with mem := v1Inside.mem.write a b }

/-- PAGEINFO of V1, its fields set through the layout. -/
def v1Pageinfo : Block :=
  setField (setField 0 refPageinfo.srcpge 0x300000) refPageinfo.secinfo 0x201040

/-- The source page of V1: SIZE, BASEADDR, SSAFRAMESIZE, ATTRIBUTES. -/
def v1Secs : Block :=
  setField (setField (setField (setField 0 refSecs.size 0x10000) refSecs.baseaddr 0x100000) refSecs.ssaframesize 1)
    refSecs.attributes 0x30000000000000004

/-- Whether a step answers a next state. -/
def isNext (o : Host.Outcome State Fault Refusal) : Bool :=
  match o with
  | .next _ => true
  | .fault _ => false
  | .refused _ => false

theorem isNext_exists {o : Host.Outcome State Fault Refusal} (h : isNext o = true) : ∃ t, o = .next t := by
  cases o with
  | next t => exact ⟨t, rfl⟩
  | fault _ => cases h
  | refused _ => cases h

/-- The state a step answers. -/
def nextOf (o : Host.Outcome State Fault Refusal) : State :=
  match o with
  | .next s => s
  | .fault _ => v1
  | .refused _ => v1

theorem nextOf_eq {o : Host.Outcome State Fault Refusal} (h : isNext o = true) : o = .next (nextOf o) := by
  cases o with
  | next _ => rfl
  | fault _ => cases h
  | refused _ => cases h

/-- Why a step is refused. -/
def refusalOf (o : Host.Outcome State Fault Refusal) : Option Refusal :=
  match o with
  | .next _ => none
  | .fault _ => none
  | .refused r => some r

/-- The event recorded for processor 0. -/
def eventOf (s : State) : Option EventRecord :=
  match s.procs[0]? with
  | some p => p.event
  | none => none

/-! ### The instruction (program P1: vector V1) -/

-- the first transition takes the entry of the page at 8000_0000H and writes no byte of it
theorem test_ecreate_acquire :
    ((nextOf (step v1)).entry 0x80000).lock = .held [0] ∧ (nextOf (step v1)).epc = [] := by decide +kernel

-- P1: EID 100H, ENCLAVECONTEXT the physical address, entry valid and free, CR_NEXT_EID 101H, ENCLS is 3 bytes long
theorem test_ecreate_completes :
    (nextOf (step v1Inside)).nextEid = 0x101 ∧
      (nextOf (step v1Inside)).entry 0x80000 = { EpcmEntry.reset with valid := true } ∧
      getField ((nextOf (step v1Inside)).page 0x80000) refSecs.eid = 0x100 ∧
      getField ((nextOf (step v1Inside)).page 0x80000) refSecs.enclavecontext = 0x80000000 ∧
      (nextOf (step v1Inside)).procs.map (·.pc) = [0x1003, 0x1000] ∧
      ((nextOf (step v1Inside)).hiddenAt 0x80000).mrenclave.a = 0x7FA67358 := by
  decide +kernel

-- the length that moves the instruction pointer is the parameter's (R18): five bytes given for ENCLS
theorem test_ecreate_other_length :
    (nextOf (exec .enclsEcreate { v1Inside with cfg := { refConfig with enclsOpcode := [1, 2, 3, 4, 5] } })).procs.map (·.pc) =
      [0x1005, 0x1000] := by decide +kernel

-- P5 comes before every check of the operation (log 18): PAGEINFO in the EPC although RCX is not aligned (R84), and the
-- source page in the EPC although its pointer is not (R87); so does P4: nobody, or an idle processor, holds the entry
theorem test_premises_first :
    refusalOf (exec .enclsEcreate (machine { v1Proc with rbx := 0x8000FFE0, rcx := 0x80000800 })) = some .operandInEpc ∧
      refusalOf (exec .enclsEcreate (setWord 0x201008 0x80000800)) = some .operandInEpc ∧
      refusalOf (exec .enclsEcreate (v1.setLock 0x80000 (.held []))) = some .lockWithoutHolder ∧
      refusalOf (exec .enclsEcreate (v1.setLock 0x80001 (.held [1]))) = some .lockWithoutHolder := by decide +kernel

-- the word placed in the reset state is executed by the next step: RCX = 0 is not in the EPC (vector V6's case)
theorem test_reset_runs_placed_word :
    isNext (step (State.reset.withFetchWord 24 0xCF010F)) = true := by decide +kernel

-- R61: the instruction of processor 0 has started; a store of software changes a byte of its PAGEINFO, and the window notes
-- what the byte held; another is under way, and no agent finds it before it lands
theorem test_window_notes_old_byte :
    (nextOf (step { v1 with turns := [.agent (.start 0)] })).window 0 = some { past := [], owed := 0 } ∧
      (nextOf (agentMove { v1 with windows := [(0, some { past := [], owed := 0 })] } (.store 0x201010 0x80))).window 0 =
        some { past := [(0x201010, 0x40)], owed := 0 } ∧
      (nextOf (agentMove v1 (.storeBegin 0x201010 0x80))).mem = v1.mem ∧
      (nextOf (agentMove (nextOf (agentMove v1 (.storeBegin 0x201010 0x80))) (.storesLand 1))).mem =
        v1.mem.write 0x201010 0x80 := by decide +kernel

-- R64: what an instruction that goes on has seen of the stores under way is still owed when some of them have landed
theorem test_window_owes_what_it_saw :
    (({ v1 with racing := [(1, 2), (3, 4)], windows := [(0, some { past := [], owed := 2 })] } : State).land 1).window 0 =
      some { past := [(1, 0)], owed := 1 } := by decide +kernel

/-! ### Witnesses: the hypotheses of each statement can be met -/

/-- The launch premises, evaluated (Laws/Placement.lean: that is what they are). -/
theorem admitted_of {s : State} {p : Processor}
    (h : s.current = some p ∧ p.phase = .idle ∧ launchRefusal s p = none) : Admitted s p :=
  (launchRefusal_eq_none_iff h.1 h.2.1).1 h.2.2

theorem admitted_v1 : Admitted v1 v1Proc := admitted_of (by decide +kernel)
theorem registersOk_v1 : RegistersOk v1 v1Proc := by unfold RegistersOk OperandOk; decide +kernel
theorem destinationOk_v1 : DestinationOk v1 v1Proc 0x80000000 :=
  ⟨registersOk_v1, by unfold laDestination; decide +kernel⟩
theorem pointersOk_v1 : PointersOk v1 v1Proc 0x80000000 v1Pageinfo :=
  ⟨destinationOk_v1, by unfold laPageinfo OperandOk; decide +kernel⟩
theorem pageinfoOk_v1 : PageinfoOk v1 v1Proc 0x80000000 v1Pageinfo := ⟨pointersOk_v1, by decide +kernel⟩
theorem operandsOk_v1 : OperandsOk v1 v1Proc v1Ticket :=
  ⟨v1Pageinfo, 0, pageinfoOk_v1, by unfold laDestination; decide +kernel⟩
theorem inCommit_v1 : InCommit v1Inside insideProc v1Ticket := by unfold InCommit; decide +kernel
theorem secsOk_v1 : SecsOk refConfig v1Secs :=
  ⟨by decide +kernel, by decide +kernel, by decide +kernel, by decide +kernel, by decide +kernel, by decide +kernel,
    by decide +kernel, ⟨16, by decide +kernel⟩, by decide +kernel, by decide +kernel,
    (and_eq_zero_iff _ _).1 (by decide +kernel), by decide +kernel⟩
theorem not_secsOk : ¬ SecsOk refConfig (setField v1Secs refSecs.attributes 4) := by
  intro h
  exact absurd h.1 (by decide +kernel)
theorem exclusive_v1Inside : v1Inside.Exclusive := by
  intro i p t hp ht
  match i, hp with
  | 0, hp =>
    obtain rfl : insideProc = p := Option.some.inj hp
    obtain rfl : v1Ticket = t := Phase.ecreate.inj ht
    decide +kernel
  | 1, hp =>
    obtain rfl : v1Proc = p := Option.some.inj hp
    cases ht
  | n + 2, hp => cases hp
theorem ticketsInEpc_v1Inside : v1Inside.TicketsInEpc := by
  intro i p t hp ht
  match i, hp with
  | 0, hp =>
    obtain rfl : insideProc = p := Option.some.inj hp
    obtain rfl : v1Ticket = t := Phase.ecreate.inj ht
    decide +kernel
  | 1, hp =>
    obtain rfl : v1Proc = p := Option.some.inj hp
    cases ht
  | n + 2, hp => cases hp
theorem canonical_v1Inside : v1Inside.Canonical := by
  unfold State.Canonical
  decide +kernel

/-- V1 waiting for the turn of processor 1. -/
def v1Turn : State := { v1 with turns := [.processor 1] }

/-- A processor whose instruction pointer stands before the ENCLS, and one where nothing is mapped. -/
def elsewhereProc : Processor := { v1Proc with pc := 0xFFF }

def nowhereProc : Processor := { v1Proc with pc := 0x100000000 }

theorem nowhere_not_readable : ∀ bytes, fetchBytes (machine nowhereProc) nowhereProc ≠ .ok bytes := by
  intro bytes h
  have : fetchBytes (machine nowhereProc) nowhereProc = .raise (.pf 0x100000000 .nonEnclaveRead .notMapped) := by
    decide +kernel
  rw [this] at h
  cases h

-- with V1's bytes, with other bytes, with none; for a pending turn; inside an ECREATE
theorem witness_StepRunsDecodedInstruction :
    (v1.turns = [] ∧ v1.current = some v1Proc ∧ v1Proc.event = none ∧ v1Proc.phase = .idle ∧
      fetchBytes v1 v1Proc = .ok [0x0F, 0x01, 0xCF] ∧
      decode v1.cfg.enclsOpcode [0x0F, 0x01, 0xCF] = .ok (.enclsEcreate, [])) ∧
    ((machine elsewhereProc).current = some elsewhereProc ∧
      fetchBytes (machine elsewhereProc) elsewhereProc = .ok [0x00, 0x0F, 0x01] ∧
      ([0x00, 0x0F, 0x01] : List Byte) ≠ (machine elsewhereProc).cfg.enclsOpcode) ∧
    (v1Turn.turns = .processor 1 :: [] ∧ ({ v1Turn with active := 1, turns := [] } : State).current = some v1Proc) ∧
    (v1Inside.current = some insideProc ∧ insideProc.event = none ∧ insideProc.phase = .ecreate v1Ticket) ∧
    ((nextOf (exec .enclsEcreate v1Inside)).current.map (·.phase) = some .idle ∧ v1Inside.racing = [] ∧
      v1Inside.windows = []) := by
  decide +kernel

/-- Some fetch of an invocation, whatever the bytes, and one that gives none. -/
def anyFetch : Fetch := fun _ _ => .ok .enclsEcreate

def noFetch : Fetch := fun _ _ => .error .fetchNotReadable

theorem witness_StepRelationOverDecodedInvocation :
    (v1.turns = [] ∧ v1.current = some v1Proc ∧ v1Proc.event = none ∧ v1Proc.phase = .idle ∧
      anyFetch v1 v1Proc = .ok .enclsEcreate ∧ noFetch v1 v1Proc = .error .fetchNotReadable) ∧
    (v1Inside.current = some insideProc ∧ insideProc.event = none ∧ insideProc.phase = .ecreate v1Ticket) :=
  ⟨⟨rfl, rfl, rfl, rfl, rfl, rfl⟩, by decide +kernel⟩

/-- A processor with a recorded event. -/
def endedProc : Processor := { v1Proc with event := some { event := .gp0, pc := 0x1000 } }

theorem witness_RecordedOutcomeIsTerminal :
    (machine endedProc).turns = [] ∧ (machine endedProc).current = some endedProc ∧
      endedProc.event = some { event := .gp0, pc := 0x1000 } ∧
    (({ machine endedProc with turns := [.processor 0] } : State).turns = .processor 0 :: [] ∧
      ({ machine endedProc with active := 0, turns := [] } : State).current = some endedProc) := by decide +kernel

/-- A processor whose ENCLS would end at a page boundary. -/
def edgeProc : Processor := { v1Proc with pc := 0xFFD }

theorem witness_PlacedWordIsExecuted :
    (machine edgeProc).cfg.enclsOpcode = tableOpcode ∧ (machine edgeProc).current = some edgeProc ∧ (fetchAddress edgeProc 0).toNat % pageBytes + 3 ≤ pageBytes ∧
      translate edgeProc (fetchAddress edgeProc 0) .nonEnclaveRead = .phys 0xFFD ∧
      (machine edgeProc).ordinary 0xFFD = true := by decide +kernel

theorem witness_LeafSelectedByEaxAlone :
    Admitted v1 v1Proc ∧ (0xFFFFFFFF00000000 : Word64).setWidth 32 = (0 : Word32) ∧
      (1 : Word64).setWidth 32 ≠ (0 : Word32) := ⟨admitted_v1, by decide⟩

/-- A processor outside privilege level 0. -/
def userProc : Processor := { v1Proc with cpl := 3 }

theorem witness_OutsidePremisesRefused :
    ((machine userProc).current = some userProc ∧ userProc.phase = .idle ∧ ¬ Admitted (machine userProc) userProc) ∧
      (v1.current = some v1Proc ∧ v1Proc.phase = .idle ∧ Admitted v1 v1Proc) :=
  ⟨⟨rfl, rfl, fun h => absurd ((launchRefusal_eq_none_iff rfl rfl).2 h) (by decide +kernel)⟩, rfl, rfl, admitted_v1⟩

-- its second clause: a lock that nobody holds, every other premise met
theorem witness_OutsidePremisesRefused_lock :
    Launchable (v1.setLock 0x80000 (.held [])) v1Proc ∧ ¬ (v1.setLock 0x80000 (.held [])).LocksHeld :=
  ⟨(processorRefusal_eq_none_iff (s := v1.setLock 0x80000 (.held [])) rfl rfl).1 (by decide +kernel),
    fun h => absurd (locksHonest_iff.2 h) (by decide +kernel)⟩

theorem witness_AcceptedLayoutPartitionsBits :
    (partitions 8 [⟨0, 3⟩, ⟨3, 4⟩] 0x80 = true ∧ partitions 8 [⟨0, 3⟩, ⟨3, 4⟩] 0 = false) ∧
      secinfoWf refSecinfo = true := by decide +kernel

theorem witness_IllFormedConfigurationRefused :
    ({ v1 with cfg := { refConfig with linearAddressBits := 0 } } : State).current = some v1Proc ∧
      v1Proc.phase = .idle ∧ configWf { refConfig with linearAddressBits := 0 } = false := by decide +kernel

/-! #### The checks before the lock -/

/-- RBX 16 bytes further: not 32-byte aligned. -/
def rbxProc : Processor := { v1Proc with rbx := 0x201010 }

/-- RBX at the first address that is not canonical. -/
def rbxHighProc : Processor := { v1Proc with rbx := 0x800000000000 }

theorem witness_MisplacedPageinfoRaisesGp :
    (Admitted (machine rbxProc) rbxProc ∧ ¬ OperandOk refConfig rbxProc rbxProc.rbx 32 32) ∧
    (Admitted (machine rbxHighProc) rbxHighProc ∧ ¬ OperandOk refConfig rbxHighProc rbxHighProc.rbx 32 32) := by
  refine ⟨⟨admitted_of (by decide +kernel), ?_⟩, admitted_of (by decide +kernel), ?_⟩ <;>
    (unfold OperandOk; decide +kernel)

/-- RCX in the middle of a page. -/
def rcxProc : Processor := { v1Proc with rcx := 0x80000800 }

theorem witness_MisplacedDestinationRaisesGp :
    Admitted (machine rcxProc) rcxProc ∧ ¬ OperandOk refConfig rcxProc rcxProc.rcx pageBytes pageBytes := by
  refine ⟨admitted_of (by decide +kernel), ?_⟩
  unfold OperandOk
  decide +kernel

/-- RCX whose page's last byte alone is not canonical. -/
def lastByteProc : Processor := { v1Proc with rcx := 0x7FFFFFFFF001 }

/-- `Prot32`, the limit one byte short of the destination's last byte. -/
def limitProc : Processor :=
  { v1Proc with mode := .prot32, ds := { v1Proc.ds with limit := 0x80000FFE } }

theorem witness_OneByteOutsideLimitsRaisesGp :
    (Admitted (machine lastByteProc) lastByteProc ∧ lastByteProc.mode = .mode64 ∧
      canonical 48 (lastByteProc.rcx + BitVec.ofNat 64 4094) = true ∧
      canonical 48 (lastByteProc.rcx + BitVec.ofNat 64 4095) = false) ∧
    (Admitted (machine limitProc) limitProc ∧ limitProc.mode = .prot32 ∧
      limitProc.ds.limit.toNat < (limitProc.rcx.setWidth 32 : Word32).toNat + 4095) := by
  exact ⟨⟨admitted_of (by decide +kernel), by decide +kernel⟩, admitted_of (by decide +kernel), by decide +kernel⟩

/-- RCX on the last page below the EPC. -/
def belowEpcProc : Processor := { v1Proc with rcx := 0x7FFFF000 }

/-- RCX on the first page the translation does not map. -/
def unmappedProc : Processor := { v1Proc with rcx := 0x100000000 }

theorem witness_DestinationNotInEpcRaisesPf :
    (Admitted (machine unmappedProc) unmappedProc ∧ RegistersOk (machine unmappedProc) unmappedProc ∧
      translate unmappedProc (laDestination unmappedProc) .enclaveWrite = .fault .notMapped) ∧
    (Admitted (machine belowEpcProc) belowEpcProc ∧ RegistersOk (machine belowEpcProc) belowEpcProc ∧
      translate belowEpcProc (laDestination belowEpcProc) .enclaveWrite = .phys 0x7FFFF000 ∧
      (machine belowEpcProc).inEpc (frameOf 0x7FFFF000) = false) := by
  refine ⟨⟨admitted_of (by decide +kernel), ?_⟩, admitted_of (by decide +kernel), ?_⟩ <;>
    (unfold RegistersOk OperandOk laDestination; decide +kernel)

/-- RBX on the first page the translation does not map. -/
def rbxUnmappedProc : Processor := { v1Proc with rbx := 0x100000000 }

/-- V1 with the SECINFO pointer at the first address the translation does not map, and its PAGEINFO. -/
def v1FarSecinfo : State :=
  { v1 with mem := ((v1.mem.write 0x201010 0).write 0x201011 0).write 0x201012 0 |>.write 0x201014 1 }

def farPageinfo : Block :=
  setField (setField 0 refPageinfo.srcpge 0x300000) refPageinfo.secinfo 0x100000000

theorem witness_UnreadableStructureRaisesPf :
    (Admitted (machine rbxUnmappedProc) rbxUnmappedProc ∧
      DestinationOk (machine rbxUnmappedProc) rbxUnmappedProc 0x80000000 ∧
      readOperand refConfig rbxUnmappedProc v1Mem (laPageinfo rbxUnmappedProc) 32 =
        .raise (.pf 0x100000000 .nonEnclaveRead .notMapped)) ∧
    (Admitted v1FarSecinfo v1Proc ∧ PageinfoOk v1FarSecinfo v1Proc 0x80000000 farPageinfo ∧
      readOperand refConfig v1Proc (v1FarSecinfo.view 1) 0x100000000 64 =
        .raise (.pf 0x100000000 .nonEnclaveRead .notMapped)) := by
  refine ⟨⟨admitted_of (by decide +kernel), ?_⟩, admitted_of (by decide +kernel), ?_⟩
  · unfold DestinationOk RegistersOk OperandOk laDestination laPageinfo
    decide +kernel
  · unfold PageinfoOk PointersOk DestinationOk RegistersOk OperandOk laDestination laPageinfo
    decide +kernel

theorem witness_MisplacedPointersRaiseGp :
    (Admitted (v1With 0x201009 8) v1Proc ∧ DestinationOk (v1With 0x201009 8) v1Proc 0x80000000 ∧
      readOperand refConfig v1Proc ((v1With 0x201009 8).view 0) 0x201000 32 =
        .ok (setField v1Pageinfo refPageinfo.srcpge 0x300800) ∧
      ¬ OperandOk refConfig v1Proc (srcpgeOf refConfig (setField v1Pageinfo refPageinfo.srcpge 0x300800)) 4096 4096) ∧
    (Admitted (v1With 0x201010 0x48) v1Proc ∧ DestinationOk (v1With 0x201010 0x48) v1Proc 0x80000000 ∧
      readOperand refConfig v1Proc ((v1With 0x201010 0x48).view 0) 0x201000 32 =
        .ok (setField v1Pageinfo refPageinfo.secinfo 0x201048) ∧
      ¬ OperandOk refConfig v1Proc (secinfoOf refConfig (setField v1Pageinfo refPageinfo.secinfo 0x201048)) 64 64) := by
  refine ⟨⟨admitted_of (by decide +kernel), ?_⟩, admitted_of (by decide +kernel), ?_⟩ <;>
    (unfold DestinationOk RegistersOk OperandOk laDestination; decide +kernel)

theorem witness_UnusedPageinfoFieldsRaiseGp :
    (Admitted (v1With 0x201000 1) v1Proc ∧
      PointersOk (v1With 0x201000 1) v1Proc 0x80000000 (setField v1Pageinfo refPageinfo.linaddr 1) ∧
      getField (setField v1Pageinfo refPageinfo.linaddr 1) refPageinfo.linaddr ≠ 0) ∧
    (Admitted (v1With 0x20101F 0x80) v1Proc ∧
      PointersOk (v1With 0x20101F 0x80) v1Proc 0x80000000 (setField v1Pageinfo refPageinfo.secs (2 ^ 63)) ∧
      getField (setField v1Pageinfo refPageinfo.secs (2 ^ 63)) refPageinfo.secs ≠ 0) := by
  refine ⟨⟨admitted_of (by decide +kernel), ?_⟩, admitted_of (by decide +kernel), ?_⟩ <;>
    (unfold PointersOk DestinationOk RegistersOk OperandOk laDestination laPageinfo; decide +kernel)

-- its first clause, SECINFO that cannot be read, is the second of witness_UnreadableStructureRaisesPf; its third is
-- pageinfoOk_v1 with the all-zero SECINFO of operandsOk_v1
theorem witness_MisconfiguredSecinfoRaisesGp :
    (Admitted (v1With 0x20107F 0x80) v1Proc ∧ PageinfoOk (v1With 0x20107F 0x80) v1Proc 0x80000000 v1Pageinfo ∧
      readOperand refConfig v1Proc ((v1With 0x20107F 0x80).view 1) 0x201040 64 = .ok (setBlockByte 0 63 0x80) ∧
      (setBlockByte 0 63 0x80 &&& refSecinfo.reserved) ≠ 0) ∧
    (Admitted (v1With 0x201041 2) v1Proc ∧ PageinfoOk (v1With 0x201041 2) v1Proc 0x80000000 v1Pageinfo ∧
      readOperand refConfig v1Proc ((v1With 0x201041 2).view 1) 0x201040 64 = .ok (setBlockByte 0 1 2) ∧
      getField (setBlockByte 0 1 2) (subField refSecinfo.flags refSecinfo.pt) ≠ refConfig.ptSecs) := by
  refine ⟨⟨admitted_of (by decide +kernel), ?_⟩, admitted_of (by decide +kernel), ?_⟩ <;>
    (unfold PageinfoOk PointersOk DestinationOk RegistersOk OperandOk laDestination laPageinfo; decide +kernel)

/-- What the clauses about refusals ask of a state beside the operand's place. -/
theorem premises_of {s : State} {p : Processor}
    (h : s.current = some p ∧ p.phase = .idle ∧ processorRefusal s.cfg p = none ∧ s.locksHonest = true) :
    Launchable s p ∧ s.LocksHeld :=
  ⟨(processorRefusal_eq_none_iff h.1 h.2.1).1 h.2.2.1, locksHonest_iff.1 h.2.2.2⟩

/-- PAGEINFO in the last bytes of the EPC. -/
def rbxEpcProc : Processor := { v1Proc with rbx := 0x8000FFE0 }

/-- V1's machine with memory whose reads have side effects at the page of an address. -/
def sideEffectsAt (s : State) (a : Nat) : State := { s with cfg := { s.cfg with sideEffects := [⟨a / 4096, 1⟩] } }

/-- An operand's place, evaluated on its parts (Laws/Placement.lean). -/
theorem touches_of {rs : List Region} {p : Processor} {la : Word64} {n : Nat}
    (h : (wrapAddress p.mode la = la ∧ 0 < n ∧ n ≤ pageBytes) ∧ translatesInto rs (operandTranslations p la n) = true) :
    TouchesRegion rs p la n :=
  (translatesInto_iff h.1.1 h.1.2).1 h.2

theorem not_touches_of {rs : List Region} {p : Processor} {la : Word64} {n : Nat}
    (h : (wrapAddress p.mode la = la ∧ 0 < n ∧ n ≤ pageBytes) ∧ translatesInto rs (operandTranslations p la n) = false) :
    ¬ TouchesRegion rs p la n := by
  rw [← translatesInto_iff h.1.1 h.1.2, h.2]
  decide

-- PAGEINFO in the EPC, and in memory with side effects
theorem witness_SourceOperandsOutsideEpc_pageinfo :
    ((Launchable (machine rbxEpcProc) rbxEpcProc ∧ (machine rbxEpcProc).LocksHeld) ∧
      TouchesRegion refConfig.epc rbxEpcProc (laPageinfo rbxEpcProc) 32) ∧
    ((Launchable (sideEffectsAt v1 0x201000) v1Proc ∧ (sideEffectsAt v1 0x201000).LocksHeld) ∧
      ¬ TouchesRegion refConfig.epc v1Proc (laPageinfo v1Proc) 32 ∧
      TouchesRegion (sideEffectsAt v1 0x201000).cfg.sideEffects v1Proc (laPageinfo v1Proc) 32) := by
  unfold laPageinfo
  exact ⟨⟨premises_of (by decide +kernel), touches_of (by decide +kernel)⟩, premises_of (by decide +kernel),
    not_touches_of (by decide +kernel), touches_of (by decide +kernel)⟩

-- the source page in the EPC (its last page), and in memory with side effects
theorem witness_SourceOperandsOutsideEpc_source :
    ((Launchable (setWord 0x201008 0x8000F000) v1Proc ∧ (setWord 0x201008 0x8000F000).LocksHeld) ∧
      readOperand refConfig v1Proc ((setWord 0x201008 0x8000F000).view 0) 0x201000 32 =
        .ok (setField v1Pageinfo refPageinfo.srcpge 0x8000F000) ∧
      TouchesRegion refConfig.epc v1Proc 0x8000F000 pageBytes) ∧
    ((Launchable (sideEffectsAt v1 0x300000) v1Proc ∧ (sideEffectsAt v1 0x300000).LocksHeld) ∧
      readOperand (sideEffectsAt v1 0x300000).cfg v1Proc ((sideEffectsAt v1 0x300000).view 0) 0x201000 32 = .ok v1Pageinfo ∧
      ¬ TouchesRegion refConfig.epc v1Proc 0x300000 pageBytes ∧
      TouchesRegion (sideEffectsAt v1 0x300000).cfg.sideEffects v1Proc 0x300000 pageBytes) :=
  ⟨⟨premises_of (by decide +kernel), by decide +kernel, touches_of (by decide +kernel)⟩, premises_of (by decide +kernel),
    by decide +kernel, not_touches_of (by decide +kernel), touches_of (by decide +kernel)⟩

-- SECINFO in the EPC (its last 64 bytes), and in memory with side effects, the source page well placed
theorem witness_SourceOperandsOutsideEpc_secinfo :
    ((Launchable (setWord 0x201010 0x8000FFC0) v1Proc ∧ (setWord 0x201010 0x8000FFC0).LocksHeld) ∧
      readOperand refConfig v1Proc ((setWord 0x201010 0x8000FFC0).view 0) 0x201000 32 =
        .ok (setField v1Pageinfo refPageinfo.secinfo 0x8000FFC0) ∧
      Placed refConfig v1Proc 0x300000 pageBytes ∧ TouchesRegion refConfig.epc v1Proc 0x8000FFC0 64) ∧
    ((Launchable (sideEffectsAt (setWord 0x201010 0x500000) 0x500000) v1Proc ∧
        (sideEffectsAt (setWord 0x201010 0x500000) 0x500000).LocksHeld) ∧
      readOperand (sideEffectsAt v1 0x500000).cfg v1Proc ((setWord 0x201010 0x500000).view 0) 0x201000 32 =
        .ok (setField v1Pageinfo refPageinfo.secinfo 0x500000) ∧
      Placed (sideEffectsAt v1 0x500000).cfg v1Proc 0x300000 pageBytes ∧
      ¬ TouchesRegion refConfig.epc v1Proc 0x500000 64 ∧
      TouchesRegion (sideEffectsAt v1 0x500000).cfg.sideEffects v1Proc 0x500000 64) :=
  ⟨⟨premises_of (by decide +kernel), by decide +kernel,
      ⟨not_touches_of (by decide +kernel), not_touches_of (by decide +kernel)⟩, touches_of (by decide +kernel)⟩,
    premises_of (by decide +kernel), by decide +kernel,
    ⟨not_touches_of (by decide +kernel), not_touches_of (by decide +kernel)⟩, not_touches_of (by decide +kernel),
    touches_of (by decide +kernel)⟩

-- the last clause: the first and the last byte of V1's source page
theorem witness_SourceOperandsOutsideEpc :
    Admitted v1 v1Proc ∧ OperandsOk v1 v1Proc v1Ticket ∧
      translate v1Proc (v1Ticket.laSrc + BitVec.ofNat 64 0) .nonEnclaveRead = .phys 0x300000 ∧
      translate v1Proc (v1Ticket.laSrc + BitVec.ofNat 64 4095) .nonEnclaveRead = .phys 0x300FFF :=
  ⟨admitted_v1, operandsOk_v1, by decide +kernel⟩

/-- A guest whose conflicts exit, and one whose conflicts do not. -/
def guestProc : Processor := { v1Proc with vmxNonRoot := true, enableEpcVirtExt := true }

def plainGuestProc : Processor := { v1Proc with vmxNonRoot := true }

/-- The machine of a processor, the entry of V1's page in use by processor 1, which is inside another leaf. -/
def inUse (p : Processor) : State :=
  ({ machine p with procs := [p, { v1Proc with phase := .otherLeaf }] } : State).setLock 0x80000 (.held [1])

theorem witness_EntryInUseOrTaken :
    (Admitted (inUse guestProc) guestProc ∧ OperandsOk (inUse guestProc) guestProc v1Ticket ∧
      ((inUse guestProc).entry 0x80000).lock ≠ .free ∧ guestProc.vmxNonRoot = true ∧
      guestProc.enableEpcVirtExt = true) ∧
    (Admitted (inUse plainGuestProc) plainGuestProc ∧ OperandsOk (inUse plainGuestProc) plainGuestProc v1Ticket ∧
      ((inUse plainGuestProc).entry 0x80000).lock ≠ .free ∧ plainGuestProc.enableEpcVirtExt = false) ∧
    (Admitted v1 v1Proc ∧ OperandsOk v1 v1Proc v1Ticket ∧ (v1.entry v1Ticket.page).lock = .free) := by
  refine ⟨⟨admitted_of (by decide +kernel), ⟨v1Pageinfo, 0, ?_⟩, ?_⟩,
    ⟨admitted_of (by decide +kernel), ⟨v1Pageinfo, 0, ?_⟩, ?_⟩, admitted_v1, operandsOk_v1, by decide +kernel⟩
  all_goals
    first | unfold PageinfoOk PointersOk DestinationOk RegistersOk OperandOk laDestination laPageinfo | skip
    decide +kernel

/-- V1 in `Prot32`, junk in the upper halves of the registers. -/
def prot32Proc : Processor := { v1Proc with mode := .prot32 }

theorem witness_Prot32UsesLowHalves :
    prot32Proc.mode = .prot32 ∧ ((0xFFFFFFFF00201000 : Word64).setWidth 32 : Word32) = prot32Proc.rbx.setWidth 32 ∧
      ((0x1234567880000000 : Word64).setWidth 32 : Word32) = prot32Proc.rcx.setWidth 32 ∧
      getField (setField v1Pageinfo refPageinfo.srcpge 0xABCD00300000) refPageinfo.srcpge % 2 ^ 32 =
        getField v1Pageinfo refPageinfo.srcpge % 2 ^ 32 ∧
      getField (setField v1Pageinfo refPageinfo.srcpge 0xABCD00300000) refPageinfo.secinfo % 2 ^ 32 =
        getField v1Pageinfo refPageinfo.secinfo % 2 ^ 32 := by decide +kernel

/-- V1 in `Prot32` through a DS segment with a base: the registers and the pointers are 10000H less (vector V63's case). -/
def basedProc : Processor :=
  { v1Proc with mode := .prot32, rbx := 0x1F1000, rcx := 0x7FFF0000, ds := { v1Proc.ds with base := 0x10000 } }

def basedMachine : State :=
  { machine basedProc with
    mem := (((machine basedProc).mem.write 0x20100A 0x2F).write 0x201012 0x1F) }

-- the checks pass in both modes; with the base they give the ticket of V1
theorem witness_LinearAddressOfOperands :
    (acquireChecks basedMachine basedProc = .ok v1Ticket ∧ basedProc.mode = .prot32) ∧
      (acquireChecks v1 v1Proc = .ok v1Ticket ∧ v1Proc.mode = .mode64) := by decide +kernel

/-! #### The commit -/

/-- V1 between the transitions, the page already valid. -/
def v1Valid : State :=
  v1Inside.setEntry 0x80000 { EpcmEntry.reset with valid := true, lock := .held [0] }

theorem witness_AlreadyValidRaisesPf :
    InCommit v1Valid insideProc v1Ticket ∧ (v1Valid.entry v1Ticket.page).valid = true := by
  unfold InCommit
  decide +kernel

/-- A source page the translation does not map. -/
def farTicket : Ticket := { v1Ticket with laSrc := 0x100000000 }

def farProc : Processor := { v1Proc with phase := .ecreate farTicket }

theorem witness_UnreadableSourcePageRaisesPf :
    InCommit (machine farProc) farProc farTicket ∧ ((machine farProc).entry farTicket.page).valid = false ∧
      readOperand refConfig farProc ((machine farProc).view 2) farTicket.laSrc pageBytes =
        .raise (.pf 0x100000000 .nonEnclaveRead .notMapped) := by
  unfold InCommit
  decide +kernel

theorem witness_NoCheckFailsIffSecsOk :
    configWf refConfig = true ∧ SecsOk refConfig v1Secs ∧
      ¬ SecsOk refConfig (setField v1Secs refSecs.attributes 4) := ⟨by decide +kernel, secsOk_v1, not_secsOk⟩

/-- V1 between the transitions, bytes of the source page changed. -/
def v1Copy (l : List (Nat × Byte)) : State :=
  { v1Inside with mem := l.foldl (fun m c => m.write (0x300000 + c.1) c.2) v1Inside.mem }

/-- What the commit of such a machine reads. -/
def v1CopyBlock (l : List (Nat × Byte)) : Block := (v1Copy l).mem.load 0x300000 4096

/-- Whether the commit of such a machine meets the common hypotheses of the statement. -/
def v1CopyMeets (l : List (Nat × Byte)) : Bool :=
  decide ((v1Copy l).current = some insideProc ∧ insideProc.phase = .ecreate v1Ticket ∧
    ((v1Copy l).entry v1Ticket.page).valid = false ∧
    readOperand (v1Copy l).cfg insideProc ((v1Copy l).view 2) v1Ticket.laSrc pageBytes = .ok (v1CopyBlock l))

-- one source page for each condition, at its boundary where it has one: XFRM 2; SSAFRAMESIZE 0; BASEADDR's bit 47;
-- bit 32 of a 32-bit base; SIZE 2^31 and 2^36, 4096, and 12000H; a base half way; INIT; the last byte; CONFIGID 1
theorem witness_FailedSecsCheckRaisesGp :
    (∀ l ∈ ([[(56, 2)], [(16, 0)], [(13, 0x80)], [(48, 0), (12, 1)], [(48, 0), (2, 0), (3, 0x80)], [(2, 0), (4, 0x10)],
      [(2, 0), (1, 0x10)], [(1, 0x20)], [(9, 0x80)], [(48, 5)], [(4095, 0x80)], [(192, 1)]] :
        List (List (Nat × Byte))), v1CopyMeets l = true) ∧
    secsXfrm refConfig (v1CopyBlock [(56, 2)]) &&& 3 ≠ 3 ∧
    secsSsaframesize refConfig (v1CopyBlock [(16, 0)]) * 4096 < 576 + 176 + 0 ∧
    (secsMode64bit refConfig (v1CopyBlock [(13, 0x80)]) = 1 ∧
      canonical 48 (secsBase refConfig (v1CopyBlock [(13, 0x80)])) = false) ∧
    (secsMode64bit refConfig (v1CopyBlock [(48, 0), (12, 1)]) = 0 ∧
      (secsBase refConfig (v1CopyBlock [(48, 0), (12, 1)]) &&& 0xFFFFFFFF00000000) ≠ 0) ∧
    (secsMode64bit refConfig (v1CopyBlock [(48, 0), (2, 0), (3, 0x80)]) = 0 ∧
      secsSize refConfig (v1CopyBlock [(48, 0), (2, 0), (3, 0x80)]) = 2 ^ 31) ∧
    (secsMode64bit refConfig (v1CopyBlock [(2, 0), (4, 0x10)]) = 1 ∧
      secsSize refConfig (v1CopyBlock [(2, 0), (4, 0x10)]) = 2 ^ 36) ∧
    secsSize refConfig (v1CopyBlock [(2, 0), (1, 0x10)]) < 8192 ∧
    1 < popcnt (secsSize refConfig (v1CopyBlock [(1, 0x20)])) ∧
    (secsBase refConfig (v1CopyBlock [(9, 0x80)]) &&& 0xFFFF) ≠ 0 ∧
    ((secsAttributes refConfig (v1CopyBlock [(48, 5)])).testBit 0 = true ∧ refConfig.attributesMask.testBit 0 = false) ∧
    (v1CopyBlock [(4095, 0x80)] &&& refSecs.reserved) ≠ 0 ∧
    (getField (v1CopyBlock [(192, 1)]) refSecs.configid ≠ 0 ∧ secsKss refConfig (v1CopyBlock [(192, 1)]) = 0) := by
  decide +kernel

-- V1's own source page
theorem witness_PassingSecsChecksCompletes :
    InCommit v1Inside insideProc v1Ticket ∧ (v1Inside.entry v1Ticket.page).valid = false ∧
      readOperand refConfig insideProc (v1Inside.view 2) v1Ticket.laSrc pageBytes = .ok v1Secs ∧
      ¬ SecsFault refConfig v1Secs ∧ secsXfrm refConfig v1Secs ∈ refConfig.xfrmLegal ∧
      secsCheckFails refConfig v1Secs .miscselect = false := by
  refine ⟨inCommit_v1, by decide +kernel, by decide +kernel, ?_, by decide +kernel, by decide +kernel⟩
  unfold SecsFault
  decide +kernel

theorem witness_BadSecsRaisesGpAfterCopy :
    InCommit (v1InsideWith 0x300038 0) insideProc v1Ticket ∧ configWf (v1InsideWith 0x300038 0).cfg = true ∧
      ((v1InsideWith 0x300038 0).entry v1Ticket.page).valid = false ∧
      readOperand refConfig insideProc ((v1InsideWith 0x300038 0).view 2) v1Ticket.laSrc pageBytes =
        .ok (setField v1Secs refSecs.attributes 4) ∧
      ¬ SecsOk refConfig (setField v1Secs refSecs.attributes 4) :=
  ⟨by unfold InCommit; decide +kernel, by decide +kernel, by decide +kernel, by decide +kernel, not_secsOk⟩

theorem witness_CommitCompletes :
    InCommit v1Inside insideProc v1Ticket ∧ configWf v1Inside.cfg = true ∧
      (v1Inside.entry v1Ticket.page).valid = false ∧
      readOperand refConfig insideProc (v1Inside.view 2) v1Ticket.laSrc pageBytes = .ok v1Secs ∧
      SecsOk refConfig v1Secs :=
  ⟨inCommit_v1, by decide +kernel, by decide +kernel, by decide +kernel, secsOk_v1⟩

theorem witness_EcreateCompletes :
    Admitted v1 v1Proc ∧ OperandsOk v1 v1Proc v1Ticket ∧
      v1.entry v1Ticket.page = { v1.entry v1Ticket.page with valid := false, lock := .free } ∧
      readOperand refConfig v1Proc (v1.tick.view 2) v1Ticket.laSrc pageBytes = .ok v1Secs ∧
      SecsOk refConfig v1Secs :=
  ⟨admitted_v1, operandsOk_v1, by decide +kernel, by decide +kernel, secsOk_v1⟩

/-- V1 with the destination already valid. -/
def v1Again : State := v1.setEntry 0x80000 { EpcmEntry.reset with valid := true }

theorem witness_SecondEcreateRaisesPf :
    Admitted v1Again v1Proc ∧ OperandsOk v1Again v1Proc v1Ticket ∧ (v1Again.entry v1Ticket.page).lock = .free ∧
      (v1Again.entry v1Ticket.page).valid = true := by
  refine ⟨admitted_of (by decide +kernel), ⟨v1Pageinfo, 0, ?_⟩, by decide +kernel, by decide +kernel⟩
  unfold PageinfoOk PointersOk DestinationOk RegistersOk OperandOk laDestination laPageinfo
  decide +kernel

-- bits at both ends of the page: bit 0 belongs to SIZE, bit 32767 to no field ECREATE writes
theorem witness_CreatedSecsFieldByField :
    configWf refConfig = true ∧ refConfig.attributes.init = some ⟨0, 1⟩ ∧
      (∀ i ∈ [0, 383, 385, 32767],
        (∀ f ∈ [refSecs.eid, refSecs.isvsvn, refSecs.isvprodid, refSecs.virtchildcnt, refSecs.enclavecontext,
          refSecs.mrenclave], i < f.lo ∨ f.lo + f.len ≤ i) ∧
        (i < (subField refSecs.attributes ⟨0, 1⟩).lo ∨
          (subField refSecs.attributes ⟨0, 1⟩).lo + (subField refSecs.attributes ⟨0, 1⟩).len ≤ i)) := by
  decide +kernel

theorem next_v1 : isNext (exec .enclsEcreate v1) = true := by decide +kernel
theorem next_v1Inside : isNext (exec .enclsEcreate v1Inside) = true := by decide +kernel
theorem next_step_v1Inside : isNext (step v1Inside) = true := by decide +kernel

theorem witness_CommitReleasesLock :
    InCommit v1Inside insideProc v1Ticket ∧ exec .enclsEcreate v1Inside = .next (nextOf (exec .enclsEcreate v1Inside)) :=
  ⟨inCommit_v1, nextOf_eq next_v1Inside⟩

/-! #### Frames -/

theorem witness_EidConsumedOnlyByCompletion : step v1Inside = .next (nextOf (step v1Inside)) :=
  nextOf_eq next_step_v1Inside

theorem witness_RegistersAndFlagsKept : exec .enclsEcreate v1 = .next (nextOf (exec .enclsEcreate v1)) :=
  nextOf_eq next_v1

theorem witness_OrdinaryMemoryKept : exec .enclsEcreate v1Inside = .next (nextOf (exec .enclsEcreate v1Inside)) :=
  nextOf_eq next_v1Inside

theorem witness_AcquireWritesOnlyTheLock :
    v1.current = some v1Proc ∧ v1Proc.phase = .idle ∧ exec .enclsEcreate v1 = .next (nextOf (exec .enclsEcreate v1)) :=
  ⟨rfl, rfl, nextOf_eq next_v1⟩

-- the bytes just below and just above the page
theorem witness_CommitWritesOnlyItsPage :
    InCommit v1Inside insideProc v1Ticket ∧
      exec .enclsEcreate v1Inside = .next (nextOf (exec .enclsEcreate v1Inside)) ∧
      0x7FFFFFFF < v1Ticket.page * pageBytes ∧ v1Ticket.page * pageBytes + pageBytes ≤ 0x80001000 :=
  ⟨inCommit_v1, nextOf_eq next_v1Inside, by decide⟩

-- an event of the acquire: RBX is not aligned
theorem witness_EventsArePrecise :
    (machine rbxProc).current = some rbxProc ∧ rbxProc.event = none ∧
      exec .enclsEcreate (machine rbxProc) = .next (nextOf (exec .enclsEcreate (machine rbxProc))) ∧
      (nextOf (exec .enclsEcreate (machine rbxProc))).current =
        some { rbxProc with event := some { event := .gp0, pc := 0x1000 } } ∧
      ((machine rbxProc).setEntry 1 { EpcmEntry.reset with valid := true }).entry 1 =
        { EpcmEntry.reset with valid := true } :=
  ⟨rfl, rfl, nextOf_eq (by decide +kernel), by decide +kernel, by decide +kernel⟩

-- an event of the commit: the page is already valid
theorem witness_EventsArePrecise_commit :
    v1Valid.current = some insideProc ∧ insideProc.event = none ∧
      exec .enclsEcreate v1Valid = .next (nextOf (exec .enclsEcreate v1Valid)) ∧
      (v1Valid.entry 0x80000).valid = true ∧
      eventOf (nextOf (exec .enclsEcreate v1Valid)) =
        some { event := .pf 0x80000000 .enclaveWrite .epcmValid, pc := 0x1000 } :=
  ⟨rfl, rfl, nextOf_eq (by decide +kernel), by decide +kernel, by decide +kernel⟩

theorem ticketsPlaced_v1Inside : v1Inside.TicketsPlaced := by
  intro i p t hp ht
  match i, hp with
  | 0, hp =>
    obtain rfl : insideProc = p := Option.some.inj hp
    obtain rfl : v1Ticket = t := Phase.ecreate.inj ht
    exact ⟨rfl, (placementRefusal_eq_none_iff rfl (by decide)).1 (by decide +kernel)⟩
  | 1, hp =>
    obtain rfl : v1Proc = p := Option.some.inj hp
    cases ht
  | n + 2, hp => cases hp

/-- A source page in the EPC, behind the back of the acquire: a state that no run reaches. -/
def epcSrcTicket : Ticket := { v1Ticket with laSrc := 0x80001000 }

def epcSrcProc : Processor := { v1Proc with phase := .ecreate epcSrcTicket }

theorem witness_EcreateNeverWaits :
    (Admitted v1 v1Proc ∧ OperandsOk v1 v1Proc v1Ticket) ∧
    (InCommit v1Inside insideProc v1Ticket ∧ wrapAddress insideProc.mode v1Ticket.laSrc = v1Ticket.laSrc ∧
      Placed v1Inside.cfg insideProc v1Ticket.laSrc pageBytes) ∧
    (v1Inside.TicketsPlaced ∧ step v1Inside = .next (nextOf (step v1Inside))) ∧
    (InCommit (machine epcSrcProc) epcSrcProc epcSrcTicket ∧
      wrapAddress epcSrcProc.mode epcSrcTicket.laSrc = epcSrcTicket.laSrc ∧
      ((machine epcSrcProc).entry epcSrcTicket.page).valid = false ∧
      ¬ Placed (machine epcSrcProc).cfg epcSrcProc epcSrcTicket.laSrc pageBytes) :=
  ⟨⟨admitted_v1, operandsOk_v1⟩, ⟨inCommit_v1, ticketsPlaced_v1Inside 0 insideProc v1Ticket rfl rfl⟩,
    ⟨ticketsPlaced_v1Inside, nextOf_eq next_step_v1Inside⟩, by unfold InCommit; decide +kernel, rfl, by decide +kernel,
    fun h => absurd ((placementRefusal_eq_none_iff rfl (by decide)).2 h) (by decide +kernel)⟩

/-! #### Reading memory -/

-- four bytes across a page boundary; a byte the read leaves zero
theorem witness_MemReadIsByteByByte :
    4 ≤ pageBytes ∧ wrapAddress v1Proc.mode 0x300FFE = 0x300FFE ∧
      readOperand refConfig v1Proc [(0x300FFE, 1), (0x300FFF, 2), (0x301000, 3), (0x301001, 4), (0x301002, 5)] 0x300FFE 4 =
        .ok 0x04030201 := by decide +kernel

/-- V1 with its instruction started, a byte overwritten since, and a store under way. -/
def v1Racing : State :=
  { v1 with racing := [(0x300000, 5)], windows := [(0, some { past := [(0x300002, 9)], owed := 1 })] }

-- a transition after which the instruction goes on, and one after which it has ended
theorem witness_RacingReadsSeeOldOrNewBytes :
    (∀ c ∈ v1Racing.past ++ v1Racing.racing, c.1 ≠ 0x300001) ∧
      v1Racing.window v1Racing.active = some { past := [(0x300002, 9)], owed := 1 } ∧
      (exec .enclsEcreate v1 = .next (nextOf (exec .enclsEcreate v1)) ∧
        (nextOf (exec .enclsEcreate v1)).current.map (·.phase) = some (.ecreate v1Ticket)) ∧
      (exec .enclsEcreate v1Inside = .next (nextOf (exec .enclsEcreate v1Inside)) ∧
        (nextOf (exec .enclsEcreate v1Inside)).current.map (·.phase) = some .idle) :=
  ⟨by decide +kernel, by decide +kernel, ⟨nextOf_eq next_v1, by decide +kernel⟩, nextOf_eq next_v1Inside,
    by decide +kernel⟩

/-! #### Whole-machine rules and invariants -/

theorem witness_ConfigurationIsConstant : step v1Inside = .next (nextOf (step v1Inside)) := nextOf_eq next_step_v1Inside

/-- A machine with a valid page beside the one being created. -/
def v1Neighbour : State := v1Inside.setEntry 0x80001 { EpcmEntry.reset with valid := true }

theorem witness_ValidPageIsNeverOverwritten :
    step v1Neighbour = .next (nextOf (step v1Neighbour)) ∧ (v1Neighbour.entry 0x80001).valid = true :=
  ⟨nextOf_eq (by decide +kernel), by decide +kernel⟩

theorem witness_OnlyCheckedSecsBecomesValid :
    configWf v1Inside.cfg = true ∧ v1Inside.TicketsInEpc ∧ step v1Inside = .next (nextOf (step v1Inside)) ∧
      (v1Inside.entry 0x80000).valid = false ∧ ((nextOf (step v1Inside)).entry 0x80000).valid = true :=
  ⟨by decide +kernel, ticketsInEpc_v1Inside, nextOf_eq next_step_v1Inside, by decide +kernel, by decide +kernel⟩

theorem witness_NewlyValidEntryIsSecsEntry :
    exec .enclsEcreate v1Inside = .next (nextOf (exec .enclsEcreate v1Inside)) ∧
      (v1Inside.entry 0x80000).valid = false ∧ ((nextOf (exec .enclsEcreate v1Inside)).entry 0x80000).valid = true :=
  ⟨nextOf_eq next_v1Inside, by decide +kernel, by decide +kernel⟩

theorem witness_NewlyValidSecsCountsAreZero :
    configWf v1Inside.cfg = true ∧ exec .enclsEcreate v1Inside = .next (nextOf (exec .enclsEcreate v1Inside)) ∧
      (v1Inside.entry 0x80000).valid = false ∧ ((nextOf (exec .enclsEcreate v1Inside)).entry 0x80000).valid = true :=
  ⟨witness_OnlyCheckedSecsBecomesValid.1, witness_NewlyValidEntryIsSecsEntry⟩

/-- V1 with processor 1 inside another leaf. -/
def leafMachine (p : Processor) : State := { machine p with procs := [p, { v1Proc with phase := .otherLeaf }] }

theorem witness_SoftwareCannotTouchEpc :
    agentMove v1 (.store 0x7FFFFFFF 1) = .next (nextOf (agentMove v1 (.store 0x7FFFFFFF 1))) ∧
      agentMove (leafMachine v1Proc) (.hold 0x8000F 1) = .next (nextOf (agentMove (leafMachine v1Proc) (.hold 0x8000F 1))) :=
  ⟨nextOf_eq (by decide +kernel), nextOf_eq (by decide +kernel)⟩

theorem witness_EntryExclusiveDuringEcreate :
    v1Inside.procs[0]? = some insideProc ∧ insideProc.phase = .ecreate v1Ticket ∧
      v1Inside.inEpc v1Ticket.page = true ∧ (leafMachine insideProc).procs[0]? = some insideProc ∧
      (leafMachine insideProc).inOtherLeaf 1 = true := by decide +kernel

theorem witness_ResumeRestoresProcessor :
    (machine rbxProc).current = some rbxProc ∧ rbxProc.event = none ∧
      exec .enclsEcreate (machine rbxProc) = .next (nextOf (exec .enclsEcreate (machine rbxProc))) ∧
      (nextOf (exec .enclsEcreate (machine rbxProc))).current =
        some { rbxProc with event := some { event := .gp0, pc := 0x1000 } } :=
  ⟨rfl, rfl, nextOf_eq (by decide +kernel), by decide +kernel⟩

theorem witness_StepKeepsCanonicalForm :
    v1Inside.Canonical ∧ step v1Inside = .next (nextOf (step v1Inside)) :=
  ⟨canonical_v1Inside, nextOf_eq next_step_v1Inside⟩

theorem witness_StepKeepsExclusiveHold : v1Inside.Exclusive ∧ step v1Inside = .next (nextOf (step v1Inside)) :=
  ⟨exclusive_v1Inside, nextOf_eq next_step_v1Inside⟩

-- an ECREATE ends while another leaf holds the entry of another page, and a leaf's hold begins
theorem witness_StepKeepsLocksHeld :
    (((leafMachine insideProc).setLock 0x80000 (.held [0])).setLock 0x80001 (.held [1])).LocksHeld ∧
      isNext (step (((leafMachine insideProc).setLock 0x80000 (.held [0])).setLock 0x80001 (.held [1]))) = true ∧
      isNext (step { leafMachine v1Proc with turns := [.agent (.hold 0x8000F 1)] }) = true :=
  ⟨locksHonest_iff.1 (by decide +kernel), by decide +kernel, by decide +kernel⟩

theorem witness_StepKeepsTicketsInEpc : v1Inside.TicketsInEpc ∧ step v1Inside = .next (nextOf (step v1Inside)) :=
  ⟨ticketsInEpc_v1Inside, nextOf_eq next_step_v1Inside⟩

/-- Two processors, each inside an ECREATE, on neighbouring pages. -/
def otherTicket : Ticket := { v1Ticket with laSecs := 0x80001000, phys := 0x80001000, page := 0x80001 }

def otherProc : Processor := { v1Proc with phase := .ecreate otherTicket }

def bothInside : State :=
  (({ v1 with procs := [insideProc, otherProc] } : State).setLock 0x80000 (.held [0])).setLock 0x80001 (.held [1])

theorem exclusive_bothInside : bothInside.Exclusive := by
  intro i p t hp ht
  match i, hp with
  | 0, hp =>
    obtain rfl : insideProc = p := Option.some.inj hp
    obtain rfl : v1Ticket = t := Phase.ecreate.inj ht
    decide +kernel
  | 1, hp =>
    obtain rfl : otherProc = p := Option.some.inj hp
    obtain rfl : otherTicket = t := Phase.ecreate.inj ht
    decide +kernel
  | n + 2, hp => cases hp

theorem witness_TwoEcreatesNeverShareAPage :
    bothInside.Exclusive ∧ bothInside.procs[0]? = some insideProc ∧ bothInside.procs[1]? = some otherProc ∧
      insideProc.phase = .ecreate v1Ticket ∧ otherProc.phase = .ecreate otherTicket ∧ (0 : Nat) ≠ 1 :=
  ⟨exclusive_bothInside, rfl, rfl, rfl, rfl, by decide⟩

end Sys2Proof.Machine
end

section
/-! PROOFS. Scope: what the moves of other agents leave alone, decoding, and which instruction a step runs. -/

namespace Sys2Proof.Machine

variable {s t u : State} {p : Processor}

/-! ### Moves of other agents (log 13) -/

/-- The bytes of the EPC depend on the EPC's listed bytes and on what is free only. -/
theorem State.epcByte_congr (he : t.epc = s.epc) (hs : t.scrambled = s.scrambled) (a : Nat) :
    t.epcByte a = s.epcByte a := by
  unfold State.epcByte
  rw [State.page_congr he hs]

/-- A move of another agent writes no EPC contents, hidden state or `CR_NEXT_EID`; of the EPCM it writes at most the lock
of one entry. -/
theorem agentMove_writes_lock_only {m : Move} (h : agentMove s m = .next t) :
    EpcUntouched s t ∧ (t.epcm = s.epcm ∨ ∃ page l, t = s.setLock page l) := by
  rcases agentMove_cases h with rfl | ⟨page, -, l, -, -, -, -, rfl⟩ | ⟨_, _, _, -, -, -, rfl⟩ | ⟨_, _, -, -, -, rfl⟩ |
    ⟨_, _, rfl⟩ | ⟨_, _, -, rfl⟩ | ⟨_, _, -, rfl⟩ | ⟨_, rfl⟩
  case inr.inl => exact ⟨⟨rfl, rfl, rfl, rfl⟩, Or.inr ⟨page, l, rfl⟩⟩
  all_goals exact ⟨⟨rfl, rfl, rfl, rfl⟩, Or.inl rfl⟩

theorem SameButLock.refl (e : EpcmEntry) : SameButLock e e := rfl

/-- Writing a lock changes no other field of any entry. -/
theorem State.setLock_sameButLock (s : State) (page n : Nat) (l : EntryLock) :
    SameButLock (s.entry n) ((s.setLock page l).entry n) := by
  by_cases h : n = page
  · subst h
    rw [State.entry_setLock_same]
    rfl
  · rw [State.entry_setLock_other _ _ h]
    exact .refl _

/-- Settles O50: the only EPCM write among the moves of other agents is that of a lock. -/
theorem softwareCannotTouchEpc : Obligations.SoftwareCannotTouchEpc := by
  intro s t m h
  obtain ⟨hepc, hepcm⟩ := agentMove_writes_lock_only h
  have ⟨he, _, hs, _⟩ := hepc
  refine ⟨hepc, State.epcByte_congr he hs, fun n => ?_⟩
  rcases hepcm with heq | ⟨page, l, rfl⟩
  · rw [State.entry_congr heq]
    exact .refl _
  · exact s.setLock_sameButLock page n l

/-! ### Decoding -/

/-- Decoding accepts exactly the lists that begin with the encoding, and answers what stands behind it. -/
theorem decode_eq_ok {opcode bytes rest : List Byte} {i : Instr} :
    decode opcode bytes = .ok (i, rest) ↔ bytes = encode opcode i ++ rest := by
  cases i
  constructor
  · intro h
    unfold decode at h
    split at h
    · cases h
    · split at h
      · rename_i htake
        cases h
        have hcut := List.take_append_drop opcode.length bytes
        rw [htake] at hcut
        exact hcut.symm
      · cases h
  · rintro rfl
    simp [decode, encode]

/-- No field of an instruction can be ill formed (R74). -/
@[simp] theorem wellFormed_eq_true (i : Instr) : WellFormed i = true := by
  cases i
  rfl

/-- Settles O2: a list begins with the encoding exactly if its front of that length is `ENCLS_OPCODE`. -/
theorem decodeAgreesWithEncode : Obligations.DecodeAgreesWithEncode := by
  intro opcode bytes i rest
  simpa using decode_eq_ok

/-! ### What the model's fetch gives -/

/-- A fetch that reads anything reads as many bytes as `ENCLS_OPCODE` has. -/
theorem fetchBytes_length {bytes : List Byte} (h : fetchBytes s p = .ok bytes) :
    bytes.length = s.cfg.enclsOpcode.length := by
  obtain ⟨b, -, hb⟩ := Check.bind_eq_ok.1 h
  cases hb
  simp

theorem fetchInstr_of_decode {bytes rest : List Byte} {i : Instr} (hf : fetchBytes s p = .ok bytes)
    (hd : decode s.cfg.enclsOpcode bytes = .ok (i, rest)) : fetchInstr s p = .ok i := by
  simp only [fetchInstr, hf, hd]

/-- Bytes that are read and are not `ENCLS_OPCODE` have its length, so they are no encoding with a rest either. -/
theorem fetchInstr_of_ne_opcode {bytes : List Byte} (hf : fetchBytes s p = .ok bytes)
    (hne : bytes ≠ s.cfg.enclsOpcode) : fetchInstr s p = .error .notEncls := by
  cases hd : decode s.cfg.enclsOpcode bytes with
  | error e => simp only [fetchInstr, hf, hd]
  | ok r =>
    obtain ⟨i, rest⟩ := r
    have hb : bytes = encode s.cfg.enclsOpcode i ++ rest := decode_eq_ok.1 hd
    cases i
    have hrest : rest = [] := by simpa [hb, encode] using fetchBytes_length hf
    exact absurd (by simpa [hrest, encode] using hb) hne

theorem fetchInstr_of_unreadable (h : ∀ bytes, fetchBytes s p ≠ .ok bytes) :
    fetchInstr s p = .error .fetchNotReadable := by
  cases hf : fetchBytes s p with
  | ok bytes => exact absurd hf (h bytes)
  | raise e => simp only [fetchInstr, hf]
  | refuse r => simp only [fetchInstr, hf]

/-! ### The processor whose turn it is -/

/-- With no turn pending, or a processor's, that processor moves. -/
theorem stepWith_eq_processorMove (fetch : Fetch) {j : Nat} {more : List Turn}
    (h : (s.turns = [] ∧ u = s) ∨ (s.turns = .processor j :: more ∧ u = { s with active := j, turns := more })) :
    stepWith fetch s = processorMove fetch u := by
  rcases h with ⟨ht, rfl⟩ | ⟨ht, rfl⟩ <;> simp only [stepWith, ht]

theorem processorMove_of_fetch_ok {fetch : Fetch} {i : Instr} (hp : s.current = some p) (he : p.event = none)
    (hi : p.phase = .idle) (hf : fetch s p = .ok i) : processorMove fetch s = settled s (exec i s) := by
  simp only [processorMove, hp, he, hi, hf]

theorem processorMove_of_fetch_error {fetch : Fetch} {r : Refusal} (hp : s.current = some p) (he : p.event = none)
    (hi : p.phase = .idle) (hf : fetch s p = .error r) : processorMove fetch s = .refused r := by
  simp only [processorMove, hp, he, hi, hf]

theorem processorMove_inside (fetch : Fetch) {k : Ticket} (hp : s.current = some p) (he : p.event = none)
    (hk : p.phase = .ecreate k) : processorMove fetch s = settled s (exec .enclsEcreate s) := by
  simp only [processorMove, hp, he, hk]

/-- Settles O4: the fetch is used for an idle processor, and for nothing else. -/
theorem stepRelationOverDecodedInvocation : Obligations.StepRelationOverDecodedInvocation := by
  intro fetch s u p j more hturn hp he
  rw [stepWith_eq_processorMove fetch hturn]
  exact ⟨fun hi => ⟨fun _ => processorMove_of_fetch_ok hp he hi, fun _ => processorMove_of_fetch_error hp he hi⟩,
    fun _ => processorMove_inside fetch hp he, rfl⟩

/-! ### What settling adds -/

/-- No transition of ECREATE moves a store under way or a window (log 14). -/
theorem exec_keeps_racing_windows (h : exec .enclsEcreate s = .next t) :
    t.racing = s.racing ∧ t.windows = s.windows := by
  obtain ⟨p, -, ⟨-, hx⟩ | ⟨k, -, hx⟩⟩ := exec_enclsEcreate_cases h
  · obtain ⟨-, ⟨e, -, rfl⟩ | ⟨k, -, ⟨-, rfl⟩ | ⟨-, rfl⟩⟩⟩ := ecreateAcquire_cases hx <;> exact ⟨rfl, rfl⟩
  · obtain ⟨-, rfl⟩ | ⟨-, ⟨e, -, rfl⟩ | ⟨b, -, ⟨-, rfl⟩ | ⟨-, rfl⟩⟩⟩ := ecreateCommit_cases hx <;> exact ⟨rfl, rfl⟩

/-- Closing a window where none is open changes nothing. -/
theorem State.setWindow_none_of_no_windows (i : Nat) (h : s.windows = []) : s.setWindow i none = s := by
  have hw : Assoc.write none s.windows i none = s.windows := by rw [h]; rfl
  unfold State.setWindow
  rw [hw]

/-- With no store under way and no window open, settling adds nothing to an instruction that has ended. -/
theorem settle_ended_of_no_racing (hp : t.current = some p) (hi : p.phase = .idle) (hr : t.racing = [])
    (hw : t.windows = []) : settle u t = t := by
  rw [settle_ended hp hi, State.setWindow_none_of_no_windows _ hw, land_of_no_racing _ _ hr hw]

/-- Settles O3: a step is the relation over the decoded invocation, with what the model's fetch gives. -/
theorem stepRunsDecodedInstruction : Obligations.StepRunsDecodedInstruction := by
  intro s u p j more hturn hp he
  obtain ⟨hidle, hinside, -⟩ := stepRelationOverDecodedInvocation fetchInstr s u p j more hturn hp he
  refine ⟨fun hi => ?_, hinside, fun t q hx hq hqi hr hw => ?_⟩
  · obtain ⟨hok, herror⟩ := hidle hi
    exact ⟨fun _ i _ hf hd => hok i (fetchInstr_of_decode hf hd),
      fun _ hf hne => herror _ (fetchInstr_of_ne_opcode hf hne),
      fun hn => herror _ (fetchInstr_of_unreadable hn)⟩
  · obtain ⟨hracing, hwindows⟩ := exec_keeps_racing_windows hx
    exact settle_ended_of_no_racing hq hqi (hracing.trans hr) (hwindows.trans hw)

end Sys2Proof.Machine
end

section
/-! PROOFS. Scope: the state. What the transitions of ECREATE write and leave unchanged, registers and flags among it; the two
invariants of every step (the canonical form and the exclusive hold); accepted layouts; operand addresses in `Prot32`. -/

namespace Sys2Proof.Machine

variable {s t : State} {p : Processor} {k : Ticket}

/-! ### The next states of ECREATE -/

/-- The next states of `ECREATE.acquire` on the processor `p`, one constructor per way it can end (spec/40_ecreate.md R83 to
R91). `ecreateAcquire_eq_next_iff` ties it to the model. -/
inductive AcquireNext (s : State) (p : Processor) : State → Prop
  | checkFailed {e : Event} (hl : launchRefusal s p = none) (hc : acquireChecks s p = .raise e) :
      AcquireNext s p (s.tick.takeEvent p e)
  | entryInUse {k : Ticket} (hl : launchRefusal s p = none) (hc : acquireChecks s p = .ok k)
      (hlock : (s.entry k.page).lock ≠ .free) : AcquireNext s p (s.tick.takeEvent p (conflictEvent p k))
  | entryTaken {k : Ticket} (hl : launchRefusal s p = none) (hc : acquireChecks s p = .ok k)
      (hlock : (s.entry k.page).lock = .free) :
      AcquireNext s p ((s.tick.setLock k.page (.held [s.active])).setCurrent { p with phase := .ecreate k })

/-- The next states of `ECREATE.commit` with the ticket `k`, one constructor per way it can end (R93 to R123).
`ecreateCommit_eq_next_iff` ties it to the model. -/
inductive CommitNext (s : State) (p : Processor) (k : Ticket) : State → Prop
  | alreadyValid (hv : (s.entry k.page).valid = true) :
      CommitNext s p k (s.tick.releaseAndTake p k.page (.pf k.laSecs .enclaveWrite .epcmValid))
  | sourceUnreadable {e : Event} (hv : (s.entry k.page).valid = false)
      (hr : readOperand s.cfg p (s.view 2) k.laSrc pageBytes = .raise e) :
      CommitNext s p k (s.tick.releaseAndTake p k.page e)
  | secsRejected {b : Block} (hv : (s.entry k.page).valid = false)
      (hr : readOperand s.cfg p (s.view 2) k.laSrc pageBytes = .ok b) (hf : firstFailure s.cfg b ≠ none) :
      CommitNext s p k (((s.tick.setPage k.page b).scramble k.page).releaseAndTake p k.page .gp0)
  | completed {b : Block} (hv : (s.entry k.page).valid = false)
      (hr : readOperand s.cfg p (s.view 2) k.laSrc pageBytes = .ok b) (hf : firstFailure s.cfg b = none) :
      CommitNext s p k (completeEcreate (s.tick.setPage k.page b) p k b)

theorem ecreateAcquire_of_raise {e : Event} (hl : launchRefusal s p = none) (hc : acquireChecks s p = .raise e) :
    ecreateAcquire s p = .next (s.tick.takeEvent p e) := by
  unfold ecreateAcquire
  simp only [hl, hc]

theorem ecreateAcquire_of_ok (hl : launchRefusal s p = none) (hc : acquireChecks s p = .ok k) :
    ecreateAcquire s p = .next (acquireEntry s.tick p k) := by
  unfold ecreateAcquire
  simp only [hl, hc]

theorem acquireEntry_of_free (h : (s.entry k.page).lock = .free) :
    acquireEntry s.tick p k = (s.tick.setLock k.page (.held [s.active])).setCurrent { p with phase := .ecreate k } := by
  unfold acquireEntry
  rw [State.entry_tick, h]
  rfl

theorem acquireEntry_of_not_free (h : (s.entry k.page).lock ≠ .free) :
    acquireEntry s.tick p k = s.tick.takeEvent p (conflictEvent p k) := by
  unfold acquireEntry
  rw [State.entry_tick]
  split
  · rename_i hfree
    exact absurd hfree h
  · rfl

theorem ecreateAcquire_eq_next_iff : ecreateAcquire s p = .next t ↔ AcquireNext s p t := by
  constructor
  · intro h
    obtain ⟨hl, ⟨e, hc, rfl⟩ | ⟨k, hc, ⟨hlock, rfl⟩ | ⟨hlock, rfl⟩⟩⟩ := ecreateAcquire_cases h
    · exact .checkFailed hl hc
    · exact .entryTaken hl hc hlock
    · exact .entryInUse hl hc hlock
  · intro h
    cases h with
    | checkFailed hl hc => exact ecreateAcquire_of_raise hl hc
    | entryInUse hl hc hlock => rw [ecreateAcquire_of_ok hl hc, acquireEntry_of_not_free hlock]
    | entryTaken hl hc hlock => rw [ecreateAcquire_of_ok hl hc, acquireEntry_of_free hlock]

theorem validateAndComplete_of_rejected {b : Block} (h : firstFailure s.cfg b ≠ none) :
    validateAndComplete (s.tick.setPage k.page b) p k =
      ((s.tick.setPage k.page b).scramble k.page).releaseAndTake p k.page .gp0 := by
  obtain ⟨c, hc⟩ := Option.ne_none_iff_exists'.1 h
  unfold validateAndComplete
  rw [State.page_setPage_same, State.setPage_cfg, State.tick_cfg, hc]

theorem validateAndComplete_of_passed {b : Block} (h : firstFailure s.cfg b = none) :
    validateAndComplete (s.tick.setPage k.page b) p k = completeEcreate (s.tick.setPage k.page b) p k b := by
  unfold validateAndComplete
  rw [State.page_setPage_same, State.setPage_cfg, State.tick_cfg, h]

theorem ecreateCommit_eq_next_iff : ecreateCommit s p k = .next t ↔ CommitNext s p k t := by
  constructor
  · intro h
    obtain ⟨hv, rfl⟩ | ⟨hv, ⟨e, hr, rfl⟩ | ⟨b, hr, ⟨hf, rfl⟩ | ⟨hf, rfl⟩⟩⟩ := ecreateCommit_cases h
    · exact .alreadyValid hv
    · exact .sourceUnreadable hv hr
    · exact .secsRejected hv hr hf
    · exact .completed hv hr hf
  · intro h
    unfold ecreateCommit
    cases h with
    | alreadyValid hv => rw [if_pos hv]
    | sourceUnreadable hv hr => rw [if_neg (by simp [hv]), hr]
    | secsRejected hv hr hf =>
      rw [if_neg (by simp [hv]), hr]
      exact congrArg Host.Outcome.next (validateAndComplete_of_rejected hf)
    | completed hv hr hf =>
      rw [if_neg (by simp [hv]), hr]
      exact congrArg Host.Outcome.next (validateAndComplete_of_passed hf)

theorem exec_of_idle (hp : s.current = some p) (hi : p.phase = .idle) :
    exec .enclsEcreate s = ecreateAcquire s p := by
  simp only [exec, execEnclsEcreate, hp, hi]

theorem exec_of_inside (hp : s.current = some p) (hk : p.phase = .ecreate k) :
    exec .enclsEcreate s = ecreateCommit s p k := by
  simp only [exec, execEnclsEcreate, hp, hk]

/-- `ENCLS[ECREATE]` answers a next state of the one transition or of the other. -/
theorem exec_next (h : exec .enclsEcreate s = .next t) :
    ∃ p, s.current = some p ∧
      ((p.phase = .idle ∧ AcquireNext s p t) ∨ ∃ k, p.phase = .ecreate k ∧ CommitNext s p k t) := by
  simpa only [ecreateAcquire_eq_next_iff, ecreateCommit_eq_next_iff] using exec_enclsEcreate_cases h

theorem acquireNext_of_exec (hp : s.current = some p) (hi : p.phase = .idle) (h : exec .enclsEcreate s = .next t) :
    AcquireNext s p t :=
  ecreateAcquire_eq_next_iff.1 (exec_of_idle hp hi ▸ h)

theorem commitNext_of_exec (hp : s.current = some p) (hk : p.phase = .ecreate k)
    (h : exec .enclsEcreate s = .next t) : CommitNext s p k t :=
  ecreateCommit_eq_next_iff.1 (exec_of_inside hp hk ▸ h)

/-! ### What every transition leaves alone -/

/-- What no transition on the processor `p` writes: anything outside the EPC but `p` itself, and of `p` a register or a
flag. -/
def ExecFrame (s t : State) (p : Processor) : Prop :=
  t.cfg = s.cfg ∧ t.mem = s.mem ∧ t.racing = s.racing ∧ t.windows = s.windows ∧ t.active = s.active ∧ t.turns = s.turns ∧
    ∃ q, SameRegisters p q ∧ t.procs = s.procs.set s.active q

theorem AcquireNext.frame (h : AcquireNext s p t) : ExecFrame s t p := by
  cases h <;> refine ⟨rfl, rfl, rfl, rfl, rfl, rfl, _, ?_, rfl⟩ <;>
    exact ⟨rfl, rfl, rfl, rfl, rfl, rfl, rfl, rfl, rfl, rfl, rfl, rfl⟩

theorem CommitNext.frame (h : CommitNext s p k t) : ExecFrame s t p := by
  cases h <;> refine ⟨rfl, rfl, rfl, rfl, rfl, rfl, _, ?_, rfl⟩ <;>
    exact ⟨rfl, rfl, rfl, rfl, rfl, rfl, rfl, rfl, rfl, rfl, rfl, rfl⟩

theorem exec_frame (h : exec .enclsEcreate s = .next t) : ∃ p, s.current = some p ∧ ExecFrame s t p := by
  obtain ⟨p, hp, ⟨-, hn⟩ | ⟨k, -, hn⟩⟩ := exec_next h
  · exact ⟨p, hp, hn.frame⟩
  · exact ⟨p, hp, hn.frame⟩

theorem exec_outsideUntouched (h : exec .enclsEcreate s = .next t) : OutsideUntouched s t := by
  obtain ⟨p, -, hcfg, hmem, hracing, hwindows, hactive, hturns, q, -, hprocs⟩ := exec_frame h
  refine ⟨hcfg, hmem, hracing, hwindows, hactive, hturns, ?_, fun i hi => ?_⟩
  · rw [hprocs, List.length_set]
  · rw [hprocs, List.getElem?_set_ne hi.symm]

/-- Settles O38: no next state of ECREATE has another memory. -/
theorem ordinaryMemoryKept : Obligations.OrdinaryMemoryKept := by
  intro s t h
  have hout := exec_outsideUntouched h
  have ⟨_, hmem, _⟩ := hout
  exact ⟨fun a => by rw [hmem], hout⟩

/-- Settles O39: the acquire ends in an event, or it takes the entry's lock. -/
theorem acquireWritesOnlyTheLock : Obligations.AcquireWritesOnlyTheLock := by
  intro s t p hp hi h
  cases acquireNext_of_exec hp hi h with
  | checkFailed | entryInUse => exact ⟨⟨rfl, rfl, rfl, rfl⟩, fun _ => rfl, fun _ => .refl _⟩
  | entryTaken => exact ⟨⟨rfl, rfl, rfl, rfl⟩, fun _ => rfl, fun n => s.tick.setLock_sameButLock _ n _⟩

/-! ### Flags (R19) -/

/-- The processor with other flags. -/
def Processor.withFlags (p : Processor) (f : Word64) : Processor := { p with rflags := f }

/-- States that agree on everything but the processors, and on those, are the same. -/
theorem State.eq_of_procs {x y : State} (hrest : x = { y with procs := x.procs }) (h : x.procs = y.procs) : x = y := by
  rw [hrest, h]

theorem acquireChecks_withFlags (f : Word64) :
    acquireChecks (s.setCurrent (p.withFlags f)) (p.withFlags f) = acquireChecks s p := rfl

theorem launchRefusal_withFlags (hp : s.current = some p) (f : Word64) :
    launchRefusal (s.setCurrent (p.withFlags f)) (p.withFlags f) = launchRefusal s p := by
  unfold launchRefusal
  rw [State.locksHonest_setCurrent (q := p.withFlags f) hp rfl]
  rfl

/-- With other flags the acquire ends in the same way, and keeps them. -/
theorem AcquireNext.withFlags (h : AcquireNext s p t) (hp : s.current = some p) :
    ∃ q, t.current = some q ∧
      ∀ f, AcquireNext (s.setCurrent (p.withFlags f)) (p.withFlags f) (t.setCurrent (q.withFlags f)) := by
  cases h <;> refine ⟨_, State.current_setCurrent _ hp, fun f => ?_⟩
  case' checkFailed hl hc =>
    convert AcquireNext.checkFailed ((launchRefusal_withFlags hp f).trans hl)
      ((acquireChecks_withFlags f).trans hc) using 1
  case' entryInUse hl hc hlock =>
    convert AcquireNext.entryInUse ((launchRefusal_withFlags hp f).trans hl)
      ((acquireChecks_withFlags f).trans hc) hlock using 1
  case' entryTaken hl hc hlock =>
    convert AcquireNext.entryTaken ((launchRefusal_withFlags hp f).trans hl)
      ((acquireChecks_withFlags f).trans hc) hlock using 1
  all_goals exact State.eq_of_procs rfl (by simp [Processor.withFlags, conflictEvent])

/-- With other flags the commit ends in the same way, and keeps them. -/
theorem CommitNext.withFlags (h : CommitNext s p k t) (hp : s.current = some p) :
    ∃ q, t.current = some q ∧
      ∀ f, CommitNext (s.setCurrent (p.withFlags f)) (p.withFlags f) k (t.setCurrent (q.withFlags f)) := by
  cases h <;> refine ⟨_, State.current_setCurrent _ hp, fun f => ?_⟩
  case' alreadyValid hv => convert CommitNext.alreadyValid (s := s.setCurrent (p.withFlags f)) hv using 1
  case' sourceUnreadable hv hr =>
    convert CommitNext.sourceUnreadable (s := s.setCurrent (p.withFlags f)) (p := p.withFlags f) hv hr using 1
  case' secsRejected hv hr hf =>
    convert CommitNext.secsRejected (s := s.setCurrent (p.withFlags f)) (p := p.withFlags f) hv hr hf using 1
  case' completed hv hr hf =>
    convert CommitNext.completed (s := s.setCurrent (p.withFlags f)) (p := p.withFlags f) hv hr hf using 1
  all_goals exact State.eq_of_procs rfl (by simp [Processor.withFlags, completedProcessor, flagsAfter])

theorem exec_withFlags (h : exec .enclsEcreate s = .next t) (hp : s.current = some p) :
    ∃ q, t.current = some q ∧
      ∀ f, exec .enclsEcreate (s.setCurrent (p.withFlags f)) = .next (t.setCurrent (q.withFlags f)) := by
  have hp' := fun f => State.current_setCurrent (p := p.withFlags f) s hp
  obtain ⟨p', hpp, hx⟩ := exec_next h
  obtain rfl : p = p' := Option.some.inj (hp.symm.trans hpp)
  obtain ⟨hi, hn⟩ | ⟨k, hk, hn⟩ := hx
  · obtain ⟨q, hq, hf⟩ := hn.withFlags hp
    exact ⟨q, hq, fun f => (exec_of_idle (hp' f) hi).trans (ecreateAcquire_eq_next_iff.2 (hf f))⟩
  · obtain ⟨q, hq, hf⟩ := hn.withFlags hp
    exact ⟨q, hq, fun f => (exec_of_inside (hp' f) hk).trans (ecreateCommit_eq_next_iff.2 (hf f))⟩

/-- The executing processor after a transition has the registers it had. -/
theorem ExecFrame.sameRegisters (h : ExecFrame s t p) (hp : s.current = some p) {q : Processor}
    (hq : t.current = some q) : SameRegisters p q := by
  obtain ⟨-, -, -, -, hactive, -, r, hr, hprocs⟩ := h
  have ht : t.current = (s.setCurrent r).current := by
    simp only [State.current, hprocs, hactive, State.setCurrent_procs, State.setCurrent_active]
  obtain rfl : q = r := Option.some.inj (hq.symm.trans (ht.trans (State.current_setCurrent s hp)))
  exact hr

/-- Settles O37: no check reads the flags, and no outcome writes a register. -/
theorem registersAndFlagsKept : Obligations.RegistersAndFlagsKept := by
  intro s t h
  obtain ⟨p, hp, hframe⟩ := exec_frame h
  obtain ⟨q, hq, hflags⟩ := exec_withFlags h hp
  obtain ⟨-, -, -, -, -, -, -, hother⟩ := exec_outsideUntouched h
  exact ⟨p, q, hp, hq, hframe.sameRegisters hp hq, hother, hflags⟩

/-! ### The pages a commit leaves alone -/

/-- The hidden state of another page survives a write to a page's contents. -/
theorem State.hiddenAt_setPage_other (s : State) {page page' : Nat} (b : Block) (h : page' ≠ page) :
    (s.setPage page b).hiddenAt page' = s.hiddenAt page' := by
  unfold State.hiddenAt
  rw [State.drawnAt_setPage_other _ _ h, State.setPage_hidden]

/-- Every page but the ticket's keeps its contents, its EPCM entry and its hidden state. -/
theorem CommitNext.other_page (h : CommitNext s p k t) {n : Nat} (hn : n ≠ k.page) :
    t.page n = s.page n ∧ t.entry n = s.entry n ∧ t.hiddenAt n = s.hiddenAt n := by
  cases h with
  | alreadyValid | sourceUnreadable => exact ⟨rfl, State.entry_setLock_other s.tick _ hn, rfl⟩
  | @secsRejected b =>
    refine ⟨?_, State.entry_setLock_other ((s.tick.setPage k.page b).scramble k.page) _ hn, ?_⟩
    · exact (State.page_scramble_other (s.tick.setPage k.page b) hn).trans (State.page_setPage_other s.tick b hn)
    · exact (State.hiddenAt_scramble_other (s.tick.setPage k.page b) hn).trans (State.hiddenAt_setPage_other s.tick b hn)
  | @completed b =>
    rw [completeEcreate_page_other _ _ hn, completeEcreate_entry_other _ _ hn, completeEcreate_hiddenAt_other _ _ hn]
    exact ⟨State.page_setPage_other s.tick b hn, rfl, State.hiddenAt_setPage_other s.tick b hn⟩

/-- Settles O40: a byte outside the frame belongs to another page. -/
theorem commitWritesOnlyItsPage : Obligations.CommitWritesOnlyItsPage := by
  rintro s t p k ⟨hp, hk⟩ h
  have hn := commitNext_of_exec hp hk h
  refine ⟨fun a ha => ?_, fun n hne => (hn.other_page hne).2⟩
  have hpage : a / pageBytes ≠ k.page := by
    unfold pageBytes at *
    omega
  unfold State.epcByte
  rw [(hn.other_page hpage).1]

/-! ### The configuration -/

theorem agentMove_cfg_procs {m : Move} (h : agentMove s m = .next t) :
    t.cfg = s.cfg ∧ t.procs.length = s.procs.length := by
  rcases agentMove_cases h with rfl | ⟨_, _, _, -, -, -, -, rfl⟩ | ⟨_, _, _, -, -, -, rfl⟩ | ⟨_, _, -, -, -, rfl⟩ |
    ⟨_, _, rfl⟩ | ⟨_, _, -, rfl⟩ | ⟨_, _, -, rfl⟩ | ⟨_, rfl⟩
  case inr.inr.inl | inr.inr.inr.inl => exact ⟨rfl, List.length_set⟩
  all_goals exact ⟨rfl, rfl⟩

/-- Settles O45: settling writes neither, and no agent does. -/
theorem configurationIsConstant : Obligations.ConfigurationIsConstant := by
  intro s t h
  rcases step_cases h with ⟨i, rest, p, x, -, -, hx, rfl⟩ | ⟨m, rest, hm⟩
  · obtain ⟨hcfg, -, -, -, -, -, hlen, -⟩ := exec_outsideUntouched hx
    rw [settle_cfg, settle_procs]
    exact ⟨hcfg, hlen⟩
  · exact agentMove_cfg_procs (s := { s with turns := rest }) hm

/-! ### The canonical form (logs 7, 8, 14, 15) -/

theorem State.tick_canonical (h : s.Canonical) : s.tick.Canonical := h

theorem AcquireNext.canonical (h : AcquireNext s p t) (hs : s.Canonical) : t.Canonical := by
  cases h with
  | checkFailed | entryInUse => exact State.takeEvent_canonical _ _ (State.tick_canonical hs)
  | entryTaken => exact State.setCurrent_canonical _ (State.setLock_canonical _ _ (State.tick_canonical hs))

theorem CommitNext.canonical (h : CommitNext s p k t) (hs : s.Canonical) : t.Canonical := by
  have htick := State.tick_canonical hs
  cases h with
  | alreadyValid | sourceUnreadable => exact State.releaseAndTake_canonical _ _ _ htick
  | secsRejected =>
    exact State.releaseAndTake_canonical _ _ _ (State.scramble_canonical _ (State.setPage_canonical _ _ htick))
  | completed => exact completeEcreate_canonical _ _ _ (State.setPage_canonical _ _ htick)

theorem exec_canonical (h : exec .enclsEcreate s = .next t) (hs : s.Canonical) : t.Canonical := by
  obtain ⟨p, -, ⟨-, hn⟩ | ⟨k, -, hn⟩⟩ := exec_next h
  · exact hn.canonical hs
  · exact hn.canonical hs

theorem agentMove_canonical {m : Move} (h : agentMove s m = .next t) (hs : s.Canonical) : t.Canonical := by
  rcases agentMove_cases h with rfl | ⟨_, _, _, -, -, -, -, rfl⟩ | ⟨_, _, _, -, -, -, rfl⟩ | ⟨_, _, -, -, -, rfl⟩ |
    ⟨_, _, rfl⟩ | ⟨_, _, -, rfl⟩ | ⟨_, _, -, rfl⟩ | ⟨_, rfl⟩
  case inr.inl => exact State.setLock_canonical _ _ hs
  case inr.inr.inr.inr.inl => exact State.setWindow_canonical _ _ hs
  case inr.inr.inr.inr.inr.inl => exact State.landByte_canonical _ _ hs
  case inr.inr.inr.inr.inr.inr.inr => exact State.land_canonical _ hs
  all_goals exact hs

/-- Settles O53: each operation that a step is made of keeps the canonical form. -/
theorem stepKeepsCanonicalForm : Obligations.StepKeepsCanonicalForm := by
  intro s t hs h
  rcases step_cases h with ⟨i, rest, p, x, -, -, hx, rfl⟩ | ⟨m, rest, hm⟩
  · exact settle_canonical _ (exec_canonical hx hs)
  · exact agentMove_canonical hm hs

/-- Settles O54: every list is empty after reset. -/
theorem resetIsCanonical : Obligations.ResetIsCanonical := by
  simp [Obligations.ResetIsCanonical, State.Canonical, State.reset, Memory.wf, Assoc.Wf]

/-! ### The exclusive hold (R26, R66, R141) -/

/-- The exclusive hold is kept where every processor that is inside an ECREATE was inside the same one, and its entry's lock
is as before. -/
theorem State.Exclusive.of_same (hs : s.Exclusive)
    (h : ∀ (i : Nat) (q : Processor) (k : Ticket), t.procs[i]? = some q → q.phase = .ecreate k →
      s.procs[i]? = some q ∧ (t.entry k.page).lock = (s.entry k.page).lock) : t.Exclusive := by
  intro i q k hq hk
  obtain ⟨hq', hlock⟩ := h i q k hq hk
  rw [hlock]
  exact hs i q k hq' hk

theorem State.Exclusive.of_procs_epcm (hs : s.Exclusive) (hp : t.procs = s.procs) (he : t.epcm = s.epcm) :
    t.Exclusive :=
  hs.of_same fun _ _ _ hq _ => ⟨hp ▸ hq, by rw [State.entry_congr he]⟩

/-- What stands at a number after processor `i` was written. -/
theorem State.procs_setProc_cases {i j : Nat} {q r : Processor} (h : (s.procs.set i q)[j]? = some r) :
    (j = i ∧ r = q) ∨ (j ≠ i ∧ s.procs[j]? = some r) :=
  State.procs_setCurrent_cases { s with active := i } h

/-- A processor that is inside no ECREATE holds nothing. -/
theorem State.Exclusive.setProc (hs : s.Exclusive) (i : Nat) {q : Processor} (hq : ∀ k, q.phase ≠ .ecreate k) :
    (s.setProc i q).Exclusive := by
  refine hs.of_same fun j r k hr hk => ⟨?_, rfl⟩
  obtain ⟨-, rfl⟩ | ⟨-, hr⟩ := State.procs_setProc_cases hr
  · exact absurd hk (hq k)
  · exact hr

theorem State.page_ne_of_ecreateOn {page i : Nat} {q : Processor} (h : s.ecreateOn page = false)
    (hq : s.procs[i]? = some q) (hk : q.phase = .ecreate k) : k.page ≠ page := by
  have := List.any_eq_false.1 h q (List.mem_of_getElem? hq)
  simpa [hk] using this

/-- The lock of an entry that no ECREATE works on may change. -/
theorem State.Exclusive.setLock (hs : s.Exclusive) {page : Nat} (l : EntryLock) (hon : s.ecreateOn page = false) :
    (s.setLock page l).Exclusive :=
  hs.of_same fun _ _ _ hq hk =>
    ⟨hq, by rw [State.entry_setLock_other _ _ (State.page_ne_of_ecreateOn hon hq hk)]⟩

theorem agentMove_exclusive {m : Move} (h : agentMove s m = .next t) (hs : s.Exclusive) : t.Exclusive := by
  rcases agentMove_cases h with rfl | ⟨_, _, l, -, -, hon, -, rfl⟩ | ⟨i, _, q, -, -, hq, rfl⟩ | ⟨i, p, -, -, -, rfl⟩ |
    ⟨_, _, rfl⟩ | ⟨_, _, -, rfl⟩ | ⟨_, _, -, rfl⟩ | ⟨_, rfl⟩
  case inr.inl => exact hs.setLock l hon
  case inr.inr.inl => exact hs.setProc i fun k hk => by simp [hk] at hq
  case inr.inr.inr.inl => exact hs.setProc i (by simp)
  all_goals exact hs.of_procs_epcm rfl rfl

/-- An ECREATE is on another page than one whose lock its processor does not hold alone. -/
theorem State.Exclusive.page_ne (hs : s.Exclusive) {i page : Nat} {q : Processor} (hq : s.procs[i]? = some q)
    (hk : q.phase = .ecreate k) (h : (s.entry page).lock ≠ .held [i]) : k.page ≠ page :=
  fun he => h (he ▸ hs i q k hq hk)

/-- The acquire takes an entry that was free, so no other ECREATE is on it; where it ends in an event it holds nothing. -/
theorem AcquireNext.exclusive (h : AcquireNext s p t) (hs : s.Exclusive) : t.Exclusive := by
  cases h with
  | checkFailed | entryInUse => exact State.Exclusive.setProc (s := s.tick) hs s.active (by simp)
  | @entryTaken k hl hc hlock =>
    intro i q j hq hj
    obtain ⟨rfl, rfl⟩ | ⟨hi, hq⟩ := State.procs_setProc_cases hq
    · obtain rfl : k = j := Phase.ecreate.inj hj
      simp
    · have hne : j.page ≠ k.page := hs.page_ne hq hj (by simp [hlock])
      rw [State.entry_setCurrent, State.entry_setLock_other _ _ hne]
      exact hs i q j hq hj

/-- The commit ends the instruction. -/
theorem CommitNext.ends (h : CommitNext s p k t) : ∃ q, q.phase = .idle ∧ t.procs = s.procs.set s.active q := by
  cases h <;> refine ⟨_, ?_, rfl⟩ <;> rfl

/-- The commit ends a hold, and writes the entry of its own page only: no other ECREATE is on it. -/
theorem CommitNext.exclusive (h : CommitNext s p k t) (hp : s.current = some p) (hk : p.phase = .ecreate k)
    (hs : s.Exclusive) : t.Exclusive := by
  obtain ⟨q, hidle, hprocs⟩ := h.ends
  have hown : (s.entry k.page).lock = .held [s.active] := hs s.active p k hp hk
  refine hs.of_same fun i r j hr hj => ?_
  rw [hprocs] at hr
  obtain ⟨-, rfl⟩ | ⟨hi, hr⟩ := State.procs_setProc_cases hr
  · rw [hidle] at hj
    cases hj
  · have hne : j.page ≠ k.page := hs.page_ne hr hj (by simpa [hown] using hi.symm)
    obtain ⟨-, hentry, -⟩ := h.other_page hne
    exact ⟨hr, by rw [hentry]⟩

theorem exec_exclusive (h : exec .enclsEcreate s = .next t) (hs : s.Exclusive) : t.Exclusive := by
  obtain ⟨p, hp, ⟨-, hn⟩ | ⟨k, hk, hn⟩⟩ := exec_next h
  · exact hn.exclusive hs
  · exact hn.exclusive hp hk hs

/-- Settles O55: a processor takes a free entry and gives up its own; no other agent writes the lock of an entry that an
ECREATE has. -/
theorem stepKeepsExclusiveHold : Obligations.StepKeepsExclusiveHold := by
  intro s t hs h
  rcases step_cases h with ⟨i, rest, p, x, -, -, hx, rfl⟩ | ⟨m, rest, hm⟩
  · exact (exec_exclusive hx hs).of_procs_epcm (settle_procs _ _) (settle_epcm _ _)
  · exact agentMove_exclusive hm hs

/-! ### Accepted layouts (R35) -/

/-- Two fields of positive width whose masks share no bit lie apart. -/
theorem apart_of_fieldMask_and {f g : Field} (hf : 0 < f.len) (hg : 0 < g.len)
    (h : fieldMask f &&& fieldMask g = 0) : f.lo + f.len ≤ g.lo ∨ g.lo + g.len ≤ f.lo := by
  have hbit := congrArg (·.testBit (max f.lo g.lo)) h
  simp only [Nat.testBit_and, fieldMask_testBit, Nat.zero_testBit, Bool.and_eq_false_iff, decide_eq_false_iff_not] at hbit
  omega

/-- What `partitions` checks: the fields have a width and lie inside, their masks and the reserved set share no bit, and
together they are all the bits. -/
theorem partitions_eq_true {bits : Nat} {fields : List Field} {reserved : Nat}
    (h : partitions bits fields reserved = true) :
    (∀ f ∈ fields, 0 < f.len ∧ f.lo + f.len ≤ bits) ∧
      (reserved :: fields.map fieldMask).Pairwise (fun a b => a &&& b = 0) ∧
      ∀ i, i < bits → reserved.testBit i = true ∨ ∃ f ∈ fields, f.lo ≤ i ∧ i < f.lo + f.len := by
  simp only [partitions, Bool.and_eq_true, List.all_eq_true, decide_eq_true_eq, beq_iff_eq] at h
  obtain ⟨hin, hunion⟩ := h
  obtain ⟨hapart, hbits⟩ := disjointUnion_eq_some _ _ hunion
  refine ⟨hin, hapart, fun i hi => ?_⟩
  have := (hbits i).symm.trans (by simp [Nat.testBit_two_pow_sub_one, hi] : (2 ^ bits - 1).testBit i = true)
  simpa [fieldMask_testBit] using this

/-- Settles O9: the bit sets a layout is checked by are those of its fields. -/
theorem acceptedLayoutPartitionsBits : Obligations.AcceptedLayoutPartitionsBits := by
  refine ⟨fun l h f hf => ?_, fun bits fields reserved h => ?_⟩
  · simp only [secinfoWf, Bool.and_eq_true, List.all_eq_true] at h
    obtain ⟨⟨-, hothers⟩, -⟩ := h
    simpa [insideOrApart] using hothers f hf
  · obtain ⟨hin, hapart, hcover⟩ := partitions_eq_true h
    rw [List.pairwise_cons, List.pairwise_map] at hapart
    obtain ⟨hreserved, hfields⟩ := hapart
    refine ⟨fun f hf => (hin f hf).2, ?_, fun i hi => ⟨fun ⟨f, hf, hif⟩ => ?_, fun hr => ?_⟩⟩
    · exact hfields.imp_of_mem fun hf hg => apart_of_fieldMask_and (hin _ hf).1 (hin _ hg).1
    · have hbit := congrArg (·.testBit i) (hreserved _ (List.mem_map_of_mem hf))
      simpa [fieldMask_testBit, hif] using hbit
    · exact (hcover i hi).resolve_left (by simp [hr])

/-- Settles O10: premise P3 is tested first. -/
theorem illFormedConfigurationRefused : Obligations.IllFormedConfigurationRefused := by
  intro s p hp hi hc
  have hl : launchRefusal s p = some .configNotWellFormed := by
    simp only [launchRefusal, processorRefusal, hc, if_true]
  rw [exec_of_idle hp hi]
  unfold ecreateAcquire
  simp only [hl]

/-! ### Addresses in `Prot32` (R17, R48) -/

/-- In `Prot32` an effective address is the low 32 bits. -/
theorem effectiveAddress_congr (hm : p.mode = .prot32) {v w : Word64}
    (h : (v.setWidth 32 : Word32) = w.setWidth 32) : effectiveAddress p v = effectiveAddress p w := by
  simp only [effectiveAddress, hm, wrapAddress, h]

/-- The check of an operand looks at its effective address only. -/
theorem checkedOperand_congr (c : Config) {v w : Word64} (h : effectiveAddress p v = effectiveAddress p w)
    (n align : Nat) : checkedOperand c p v n align = checkedOperand c p w n align := by
  unfold checkedOperand
  rw [h]

theorem setWidth_ofNat_congr {a b : Nat} (h : a % 2 ^ 32 = b % 2 ^ 32) :
    ((BitVec.ofNat 64 a).setWidth 32 : Word32) = (BitVec.ofNat 64 b).setWidth 32 := by
  apply BitVec.eq_of_toNat_eq
  simp only [BitVec.toNat_setWidth, BitVec.toNat_ofNat]
  omega

/-- The acquire reads RBX and RCX through their effective addresses only. -/
theorem acquireChecks_congr {rbx rcx : Word64} (hb : effectiveAddress p rbx = effectiveAddress p p.rbx)
    (hc : effectiveAddress p rcx = effectiveAddress p p.rcx) :
    acquireChecks s { p with rbx := rbx, rcx := rcx } = acquireChecks s p := by
  unfold acquireChecks
  rw [← checkedOperand_congr s.cfg hb, ← checkedOperand_congr s.cfg hc]
  rfl

theorem placementPremise_congr {rbx rcx : Word64} (hb : effectiveAddress p rbx = effectiveAddress p p.rbx) :
    placementPremise s { p with rbx := rbx, rcx := rcx } = placementPremise s p := by
  unfold placementPremise
  rw [← hb]
  rfl

/-- Settles O21: an effective address of the mode is 32 bits wide. -/
theorem prot32UsesLowHalves : Obligations.Prot32UsesLowHalves := by
  refine fun s p hm => ⟨fun rbx rcx hb hc => ?_, fun b b' hsrc hsi => ?_⟩
  · have hb := effectiveAddress_congr hm hb
    exact ⟨acquireChecks_congr hb (effectiveAddress_congr hm hc), placementPremise_congr hb⟩
  · unfold pageinfoPointers pointerOf
    rw [checkedOperand_congr s.cfg (effectiveAddress_congr hm (setWidth_ofNat_congr hsrc)),
      checkedOperand_congr s.cfg (effectiveAddress_congr hm (setWidth_ofNat_congr hsi))]

end Sys2Proof.Machine
end

section
/-! PROOFS. Scope: memory. The stores that an instruction races with; an entry that an ECREATE has; the operand checks one by
one and their outcomes; linear addresses and limits in numbers; where operands lie; a page that is already valid; reading an
operand byte by byte. -/

namespace Sys2Proof.Machine

variable {s t u : State} {p : Processor} {k : Ticket}

/-! ### Stores under way and windows (R61, R64; log 14) -/

/-- A byte that no cell names is not written. -/
theorem applyRacing_read_of_unnamed (seen : Nat → Bool) (m : Memory) {cells : List Host.Cell} (i : Nat) {a : Nat}
    (h : ∀ c ∈ cells, c.1 ≠ a) : (applyRacing seen m cells i).read a = m.read a := by
  rcases applyRacing_read seen m cells i a with hm | ⟨j, b, hj, -, -⟩
  · exact hm
  · exact absurd rfl (h (a, b) (List.mem_of_getElem? hj))

/-- Noting leaves a window open that is, with what was overwritten added and that many fewer owed. -/
theorem State.window_land_of_some (n : Nat) {i : Nat} {w : Window} (h : s.window i = some w) :
    (s.land n).window i = some { past := w.past ++ overwritten s.mem s.racing n, owed := w.owed - n } := by
  unfold State.window at *
  rw [State.land_windows, read_noteOverwritten, h]
  rfl

/-- The first `n` stores under way land in order. -/
theorem State.land_mem_eq_take (n : Nat) :
    (s.land n).mem = applyRacing (fun _ => true) s.mem (s.racing.take n) 0 := by
  simpa using applyRacing_first s.mem s.racing n 0

theorem State.land_racing_eq_drop (n : Nat) : (s.land n).racing = s.racing.drop n :=
  behind_eq_drop s.racing n

/-- What an open window owes is within reach, as far as that many stores are under way. -/
theorem State.owed_le_reach {w : Window} (h : s.window s.active = some w) : min s.racing.length w.owed ≤ s.reach := by
  simp only [State.reach, h]
  omega

/-- Settles O44: every access reads through `applyRacing`, and settling lands what `reach` counts. -/
theorem racingReadsSeeOldOrNewBytes : Obligations.RacingReadsSeeOldOrNewBytes := by
  refine ⟨fun s k a => ⟨s.view_read k a, applyRacing_read_of_unnamed _ _ _⟩, fun s t q h hq => ?_,
    fun s w => State.owed_le_reach, fun s n i w => State.window_land_of_some n⟩
  obtain ⟨-, hmem, hracing, -, hactive, -⟩ := exec_outsideUntouched h
  rw [← hmem, ← hracing, ← hactive]
  refine ⟨fun hidle => ?_, fun k hk => ?_⟩
  · rw [settle_ended hq hidle]
    exact ⟨State.land_mem_eq_take _, State.land_racing_eq_drop _,
      State.window_land_of_none _ _ (State.window_setWindow_same _ _ _)⟩
  · rw [settle_inside hq hk]
    exact ⟨rfl, rfl, State.window_setWindow_same _ _ _⟩

/-! ### An entry that an ECREATE has (R66, R68) -/

theorem State.ecreateOn_of_inside {i : Nat} (hp : s.procs[i]? = some p) (hk : p.phase = .ecreate k) :
    s.ecreateOn k.page = true :=
  List.any_eq_true.2 ⟨p, List.mem_of_getElem? hp, by simp [hk]⟩

/-- Another leaf finds the entry in use, and nothing changes. -/
theorem entryMove_of_ecreateOn {page i : Nat} (f : EntryLock → EntryLock) (he : s.inEpc page = true)
    (hl : s.inOtherLeaf i = true) (ho : s.ecreateOn page = true) : entryMove s page i f = .next s := by
  simp [entryMove, he, hl, ho]

/-- Only a processor inside another leaf acts on an entry. -/
theorem entryMove_of_not_inOtherLeaf {page i : Nat} (f : EntryLock → EntryLock) (he : s.inEpc page = true)
    (hl : s.inOtherLeaf i = false) : entryMove s page i f = .refused .notInOtherLeaf := by
  simp [entryMove, he, hl]

/-- A processor inside an ECREATE makes no move between instructions. -/
theorem betweenInstructions_of_inside {i : Nat} (f : Processor → State) (hp : s.procs[i]? = some p)
    (hk : p.phase = .ecreate k) : betweenInstructions s i f = .refused .insideInstruction := by
  simp [betweenInstructions, hp, hk]

/-- Settles O51: the ECREATE is found on the entry, and its processor inside an instruction. -/
theorem entryExclusiveDuringEcreate : Obligations.EntryExclusiveDuringEcreate := by
  intro s i p q k a hp hk he
  have hon := State.ecreateOn_of_inside hp hk
  have hleaf : s.inOtherLeaf i = false := by simp [State.inOtherLeaf, hp, hk]
  exact ⟨fun ha =>
      ⟨entryMove_of_ecreateOn (joinHolders · a) he ha hon, entryMove_of_ecreateOn (leaveHolders · a) he ha hon⟩,
    betweenInstructions_of_inside _ hp hk, betweenInstructions_of_inside _ hp hk,
    betweenInstructions_of_inside _ hp hk, entryMove_of_not_inOtherLeaf (joinHolders · i) he hleaf⟩

/-! ### The checks of the acquire, one by one -/

theorem checkedOperand_of_ok {c : Config} {v : Word64} {n align : Nat} (h : OperandOk c p v n align) :
    checkedOperand c p v n align = .ok (linear p (effectiveAddress p v)) :=
  checkedOperand_eq_ok.2 ⟨h.1, h.2, rfl⟩

theorem checkedOperand_of_not_ok {c : Config} {v : Word64} {n align : Nat} (h : ¬ OperandOk c p v n align) :
    checkedOperand c p v n align = .raise .gp0 := by
  rcases checkedOperand_cases c p v n align with hr | ⟨la, hla⟩
  · exact hr
  · obtain ⟨hin, halign, rfl⟩ := checkedOperand_eq_ok.1 hla
    exact absurd ⟨hin, halign⟩ h

theorem checkUnusedPageinfo_eq_ok {c : Config} {b : Block} :
    checkUnusedPageinfo c b = .ok () ↔ getField b c.pageinfo.linaddr = 0 ∧ getField b c.pageinfo.secs = 0 := by
  unfold checkUnusedPageinfo
  split
  · rename_i h
    simpa [imp_iff_not_or] using h
  · rename_i h
    simpa [not_or] using h

theorem checkSecinfo_eq_ok {c : Config} {b : Block} :
    checkSecinfo c b = .ok () ↔
      (b &&& c.secinfo.reserved) = 0 ∧ getField b (subField c.secinfo.flags c.secinfo.pt) = c.ptSecs := by
  unfold checkSecinfo
  split
  · rename_i h
    simpa [imp_iff_not_or] using h
  · rename_i h
    simpa [not_or] using h

/-- The two pointers of PAGEINFO pass exactly if both operands are in order. -/
theorem pageinfoPointers_eq_ok {c : Config} {b : Block} {ptrs : Word64 × Word64} :
    pageinfoPointers c p b = .ok ptrs ↔
      OperandOk c p (srcpgeOf c b) pageBytes pageBytes ∧ OperandOk c p (secinfoOf c b) c.secinfo.size 64 ∧
        ptrs = (linear p (effectiveAddress p (srcpgeOf c b)), linear p (effectiveAddress p (secinfoOf c b))) := by
  simp only [pageinfoPointers, Check.bind_eq_ok, checkedOperand_eq_ok, Check.ok.injEq]
  constructor
  · rintro ⟨_, ⟨h1, h2, rfl⟩, _, ⟨h3, h4, rfl⟩, rfl⟩
    exact ⟨⟨h1, h2⟩, ⟨h3, h4⟩, rfl⟩
  · rintro ⟨⟨h1, h2⟩, ⟨h3, h4⟩, rfl⟩
    exact ⟨_, ⟨h1, h2, rfl⟩, _, ⟨h3, h4, rfl⟩, rfl⟩

/-- The checks pass with the ticket `k` exactly if the operands are as R83 to R90 ask (R146). -/
theorem acquireChecks_eq_ok_iff_operandsOk : acquireChecks s p = .ok k ↔ OperandsOk s p k := by
  rw [acquireChecks_eq_ok]
  simp only [checkedOperand_eq_ok, resolveDestination_eq_ok, pageinfoPointers_eq_ok, checkUnusedPageinfo_eq_ok,
    checkSecinfo_eq_ok]
  constructor
  · rintro ⟨_, _, pa, b, _, si, ⟨hb, hba, rfl⟩, ⟨hc, hca, rfl⟩, hres, hread, ⟨hsrc, hsi, rfl⟩, hunused, hreadSi,
      ⟨hr, hpt⟩, rfl⟩
    exact ⟨b, si, ⟨⟨⟨⟨⟨hb, hba⟩, hc, hca⟩, hres⟩, hread, hsrc, hsi⟩, hunused⟩, hreadSi, hr, hpt, rfl, rfl, rfl⟩
  · rintro ⟨b, si, ⟨⟨⟨⟨⟨hb, hba⟩, hc, hca⟩, hres⟩, hread, hsrc, hsi⟩, hunused⟩, hreadSi, hr, hpt, hlaSecs, hpage,
      hlaSrc⟩
    refine ⟨_, _, k.phys, b, _, si, ⟨hb, hba, rfl⟩, ⟨hc, hca, rfl⟩, hres, hread, ⟨hsrc, hsi, rfl⟩, hunused, hreadSi,
      ⟨hr, hpt⟩, ?_⟩
    rw [← hpage, ← hlaSrc]
    exact congrArg (fun la => { k with laSecs := la }) hlaSecs

/-- A misplaced destination ends in `GP(0)`, whether PAGEINFO is misplaced or not. -/
theorem acquireChecks_of_misplaced_destination (h : ¬ OperandOk s.cfg p p.rcx pageBytes pageBytes) :
    acquireChecks s p = .raise .gp0 := by
  rcases checkedOperand_cases s.cfg p p.rbx s.cfg.pageinfo.size 32 with hb | ⟨la, hb⟩
  · simp only [acquireChecks, hb, Check.bind_raise]
  · simp only [acquireChecks, hb, Check.bind_ok, checkedOperand_of_not_ok h, Check.bind_raise]

/-- With a good destination, what the read of PAGEINFO raises is the outcome. -/
theorem acquireChecks_of_pageinfo_raise {pa : Word64} {e : Event} (h : DestinationOk s p pa)
    (hr : readOperand s.cfg p (s.view 0) (laPageinfo p) s.cfg.pageinfo.size = .raise e) :
    acquireChecks s p = .raise e := by
  obtain ⟨⟨hb, hc⟩, hres⟩ := h
  simp only [laPageinfo] at hr
  simp only [laDestination] at hres
  simp only [acquireChecks, checkedOperand_of_ok hb, checkedOperand_of_ok hc, resolveDestination_eq_ok.2 hres,
    hr, Check.bind_ok, Check.bind_raise]

/-- With PAGEINFO in order as well, what the read of SECINFO raises is the outcome. -/
theorem acquireChecks_of_secinfo_raise {pa : Word64} {b : Block} {e : Event} (h : PageinfoOk s p pa b)
    (hr : readOperand s.cfg p (s.view 1) (linear p (effectiveAddress p (secinfoOf s.cfg b))) s.cfg.secinfo.size =
      .raise e) : acquireChecks s p = .raise e := by
  obtain ⟨⟨⟨⟨hb, hc⟩, hres⟩, hread, hsrc, hsi⟩, hunused⟩ := h
  simp only [laPageinfo] at hread
  simp only [laDestination] at hres
  simp only [acquireChecks, checkedOperand_of_ok hb, checkedOperand_of_ok hc, resolveDestination_eq_ok.2 hres, hread,
    pageinfoPointers_eq_ok.2 ⟨hsrc, hsi, rfl⟩, checkUnusedPageinfo_eq_ok.2 hunused, hr, Check.bind_ok,
    Check.bind_raise]

/-- Where the launch premises hold, an event of the checks is the outcome. -/
theorem exec_of_acquireChecks_raise {e : Event} (h : Admitted s p) (hc : acquireChecks s p = .raise e) :
    exec .enclsEcreate s = .next (s.tick.takeEvent p e) := by
  have ⟨⟨hp, hi, _⟩, _⟩ := h
  rw [exec_of_idle hp hi]
  exact ecreateAcquire_of_raise ((launchRefusal_eq_none_iff hp hi).2 h) hc

/-- Settles O15: the checks before each read pass, and a read raises a page fault on its first byte only. -/
theorem unreadableStructureRaisesPf : Obligations.UnreadableStructureRaisesPf := by
  intro s p pa hadm hdest
  exact ⟨fun e hr => ⟨readOperand_eq_raise hr,
      exec_of_acquireChecks_raise hadm (acquireChecks_of_pageinfo_raise hdest hr)⟩,
    fun b e hpi hr => ⟨readOperand_eq_raise hr,
      exec_of_acquireChecks_raise hadm (acquireChecks_of_secinfo_raise hpi hr)⟩⟩

/-! ### Limits and linear addresses in numbers (R48, R49) -/

theorem configWf_linearAddressBits {c : Config} (h : configWf c = true) :
    1 ≤ c.linearAddressBits ∧ c.linearAddressBits ≤ 64 := by
  simp only [configWf, Bool.and_eq_true, decide_eq_true_eq] at h
  obtain ⟨⟨⟨-, hbits⟩, -⟩, -⟩ := h
  exact hbits

theorem effectiveAddress_of_mode64 (hm : p.mode = .mode64) (v : Word64) : effectiveAddress p v = v := by
  simp only [effectiveAddress, hm, wrapAddress]

theorem effectiveAddress_toNat_of_prot32 (hm : p.mode = .prot32) (v : Word64) :
    (effectiveAddress p v).toNat = v.toNat % 2 ^ 32 := by
  simp only [effectiveAddress, hm, wrapAddress, BitVec.toNat_setWidth]
  omega

theorem linear_of_mode64 (hm : p.mode = .mode64) (v : Word64) : linear p (effectiveAddress p v) = v := by
  simp only [linear, hm, effectiveAddress_of_mode64 hm]

theorem linear_toNat_of_prot32 (hm : p.mode = .prot32) (v : Word64) :
    (linear p (effectiveAddress p v)).toNat = (p.ds.base.toNat + v.toNat % 2 ^ 32) % 2 ^ 32 := by
  have hbase := p.ds.base.isLt
  simp only [linear, hm, wrapAddress, BitVec.toNat_setWidth, BitVec.toNat_add, effectiveAddress_toNat_of_prot32 hm]
  omega

/-- An operand with a byte that is not canonical (`Mode64`) or beyond the DS limit (`Prot32`) is not in order. -/
theorem not_operandOk_of_byte_outside {c : Config} {v : Word64} {n align j : Nat} (hwf : configWf c = true)
    (hn : n ≤ pageBytes) (hj : j < n)
    (h : (p.mode = .mode64 ∧ canonical c.linearAddressBits (v + BitVec.ofNat 64 j) = false) ∨
      (p.mode = .prot32 ∧ p.ds.limit.toNat < (v.setWidth 32 : Word32).toNat + j)) : ¬ OperandOk c p v n align := by
  rintro ⟨hin, -⟩
  rw [insideLimits_every_byte (configWf_linearAddressBits hwf) ⟨by omega, hn⟩] at hin
  rcases h with ⟨hm, hbyte⟩ | ⟨hm, hbyte⟩
  · simp only [hm, effectiveAddress_of_mode64 hm] at hin
    rw [hin j hj] at hbyte
    cases hbyte
  · simp only [hm, effectiveAddress_toNat_of_prot32 hm] at hin
    have := hin j hj
    rw [BitVec.toNat_setWidth] at hbyte
    omega

/-- Settles O13: the limit check of the whole page says the same of each of its bytes. -/
theorem oneByteOutsideLimitsRaisesGp : Obligations.OneByteOutsideLimitsRaisesGp := by
  intro s p j hadm hj h
  have ⟨⟨_, _, hwf, _⟩, _⟩ := hadm
  exact exec_of_acquireChecks_raise hadm
    (acquireChecks_of_misplaced_destination (not_operandOk_of_byte_outside hwf (Nat.le_refl _) hj h))

theorem srcpgeOf_toNat_mod (c : Config) (b : Block) :
    (srcpgeOf c b).toNat % 2 ^ 32 = getField b c.pageinfo.srcpge % 2 ^ 32 := by
  simp only [srcpgeOf, BitVec.toNat_ofNat]
  omega

/-- Settles O22: the ticket's addresses are linear addresses of the registers and of SRCPGE. -/
theorem linearAddressOfOperands : Obligations.LinearAddressOfOperands := by
  refine fun s p v => ⟨fun hm => linear_toNat_of_prot32 hm v, fun hm => linear_of_mode64 hm v, fun k hk hm => ?_,
    fun k hk hm => ?_⟩
  all_goals
    obtain ⟨b, -, ⟨⟨-, hread, -⟩, -⟩, -, -, -, hlaSecs, -, hlaSrc⟩ := acquireChecks_eq_ok_iff_operandsOk.1 hk
    rw [hlaSecs, hlaSrc]
    unfold laDestination
    unfold laPageinfo at hread
  · refine ⟨linear_toNat_of_prot32 hm _, b, _, linear_toNat_of_prot32 hm _, hread, ?_⟩
    rw [linear_toNat_of_prot32 hm, srcpgeOf_toNat_mod]
  · rw [linear_of_mode64 hm] at hread ⊢
    rw [linear_of_mode64 hm]
    exact ⟨rfl, b, hread, rfl⟩

/-! ### Where the operands lie (R59, R63) -/

theorem placementRefusal_of_epc {c : Config} {la : Word64} {n : Nat} (hw : wrapAddress p.mode la = la)
    (hn : 0 < n ∧ n ≤ pageBytes) (h : TouchesRegion c.epc p la n) :
    placementRefusal c p la n = some .operandInEpc := by
  unfold placementRefusal
  rw [if_pos ((translatesInto_iff hw hn).2 h)]

theorem placementRefusal_of_sideEffects {c : Config} {la : Word64} {n : Nat} (hw : wrapAddress p.mode la = la)
    (hn : 0 < n ∧ n ≤ pageBytes) (he : ¬ TouchesRegion c.epc p la n) (h : TouchesRegion c.sideEffects p la n) :
    placementRefusal c p la n = some .operandHasSideEffects := by
  unfold placementRefusal
  rw [if_neg (mt (translatesInto_iff hw hn).1 he), if_pos ((translatesInto_iff hw hn).2 h)]

theorem readOperand_of_placementRefusal {c : Config} {m : Memory} {la : Word64} {n : Nat} {r : Refusal}
    (h : placementRefusal c p la n = some r) : readOperand c p m la n = .refuse r := by
  unfold readOperand
  rw [h]

theorem placementPremise_of_pageinfo {r : Refusal}
    (h : placementRefusal s.cfg p (laPageinfo p) s.cfg.pageinfo.size = some r) : placementPremise s p = some r := by
  unfold laPageinfo at h
  simp only [placementPremise, readOperand_of_placementRefusal h]

/-- Where PAGEINFO can be read, premise P5 asks for the place of the source page, then of SECINFO. -/
theorem placementPremise_of_read {b : Block}
    (h : readOperand s.cfg p (s.view 0) (laPageinfo p) s.cfg.pageinfo.size = .ok b) :
    placementPremise s p =
      (placementRefusal s.cfg p (linear p (effectiveAddress p (srcpgeOf s.cfg b))) pageBytes).or
        (placementRefusal s.cfg p (linear p (effectiveAddress p (secinfoOf s.cfg b))) s.cfg.secinfo.size) := by
  unfold laPageinfo at h
  simp only [placementPremise, h, srcpgeOf, secinfoOf, pointerOf]

/-- With the other launch premises met, P5 alone decides. -/
theorem launchRefusal_eq_placementPremise (hl : Launchable s p) (hlocks : s.LocksHeld) :
    launchRefusal s p = placementPremise s p := by
  have ⟨hp, hi, _⟩ := hl
  unfold launchRefusal
  simp only [(processorRefusal_eq_none_iff hp hi).2 hl, locksHonest_iff.2 hlocks, Bool.true_eq_false, if_false]

theorem ecreateAcquire_of_refusal {r : Refusal} (h : launchRefusal s p = some r) :
    ecreateAcquire s p = .refused r := by
  unfold ecreateAcquire
  simp only [h]

/-- With the other launch premises met, what P5 refuses is refused. -/
theorem exec_of_placementPremise {r : Refusal} (hl : Launchable s p) (hlocks : s.LocksHeld)
    (h : placementPremise s p = some r) : exec .enclsEcreate s = .refused r := by
  have ⟨hp, hi, _⟩ := hl
  rw [exec_of_idle hp hi]
  exact ecreateAcquire_of_refusal ((launchRefusal_eq_placementPremise hl hlocks).trans h)

/-- A byte further in the same page needs no truncation to the width of the mode. -/
theorem wrapAddress_add_of_same_page {m : Mode} {la : Word64} {j : Nat} (hw : wrapAddress m la = la)
    (hj : la.toNat % pageBytes + j < pageBytes) :
    wrapAddress m (la + BitVec.ofNat 64 j) = la + BitVec.ofNat 64 j := by
  cases m with
  | mode64 | other => rfl
  | prot32 =>
    have hwn := congrArg BitVec.toNat hw
    apply BitVec.eq_of_toNat_eq
    simp only [wrapAddress, BitVec.toNat_setWidth, BitVec.toNat_add, BitVec.toNat_ofNat, pageBytes] at *
    omega

/-- A byte of a placed operand translates outside the EPC and outside memory with side effects. -/
theorem Placed.outside {c : Config} {la pa : Word64} {n j : Nat} (h : Placed c p la n) (hj : j < n)
    (ht : translate p (wrapAddress p.mode (la + BitVec.ofNat 64 j)) .nonEnclaveRead = .phys pa) :
    inRegions c.epc (frameOf pa) = false ∧ inRegions c.sideEffects (frameOf pa) = false := by
  obtain ⟨hepc, hside⟩ := h
  exact ⟨Bool.eq_false_iff.2 fun hin => hepc ⟨j, pa, hj, ht, hin⟩,
    Bool.eq_false_iff.2 fun hin => hside ⟨j, pa, hj, ht, hin⟩⟩

/-- Settles O19: the placement premise looks at PAGEINFO, the source page and SECINFO in that order, and the source page of
a ticket is what it looked at. -/
theorem sourceOperandsOutsideEpc : Obligations.SourceOperandsOutsideEpc := by
  refine ⟨fun s p hl hlocks => ?_, fun s p k j pa hadm hk hj ht => ?_⟩
  · have ⟨_, _, hwf, _⟩ := hl
    obtain ⟨hpi, hsi⟩ := configWf_sizes hwf
    have hsrc : 0 < pageBytes ∧ pageBytes ≤ pageBytes := by decide
    have hw := wrapAddress_linear p
    have hexec : ∀ {r}, placementPremise s p = some r → exec .enclsEcreate s = .refused r :=
      exec_of_placementPremise hl hlocks
    refine ⟨fun h => hexec (placementPremise_of_pageinfo (placementRefusal_of_epc (hw _) hpi h)),
      fun hne h => hexec (placementPremise_of_pageinfo (placementRefusal_of_sideEffects (hw _) hpi hne h)), ?_⟩
    rintro b _ _ hread rfl rfl
    rw [placementPremise_of_read hread] at hexec
    refine ⟨fun h => hexec ?_, fun hne h => hexec ?_, fun hpl h => hexec ?_, fun hpl hne h => hexec ?_⟩
    · rw [placementRefusal_of_epc (hw _) hsrc h, Option.some_or]
    · rw [placementRefusal_of_sideEffects (hw _) hsrc hne h, Option.some_or]
    · rw [(placementRefusal_eq_none_iff (hw _) hsrc).2 hpl, Option.none_or, placementRefusal_of_epc (hw _) hsi h]
    · rw [(placementRefusal_eq_none_iff (hw _) hsrc).2 hpl, Option.none_or,
        placementRefusal_of_sideEffects (hw _) hsi hne h]
  · obtain ⟨-, -, -, hplaced⟩ := hadm
    obtain ⟨b, -, ⟨⟨-, hread, ⟨-, halign⟩, -⟩, -⟩, -, -, -, -, -, hlaSrc⟩ := hk
    rw [← hlaSrc] at halign
    have hw : wrapAddress p.mode k.laSrc = k.laSrc := hlaSrc ▸ wrapAddress_linear p _
    rw [← wrapAddress_add_of_same_page hw (by omega)] at ht
    exact (Placed.outside (hlaSrc ▸ (hplaced b hread).1) hj ht).1

/-! ### A page that is already valid (R93) -/

theorem OutsideUntouched.trans (h : OutsideUntouched s t) (h' : OutsideUntouched t u) : OutsideUntouched s u := by
  obtain ⟨hcfg, hmem, hracing, hwindows, hactive, hturns, hlen, hother⟩ := h
  obtain ⟨hcfg', hmem', hracing', hwindows', hactive', hturns', hlen', hother'⟩ := h'
  exact ⟨hcfg'.trans hcfg, hmem'.trans hmem, hracing'.trans hracing, hwindows'.trans hwindows,
    hactive'.trans hactive, hturns'.trans hturns, hlen'.trans hlen,
    fun i hi => (hother' i (hactive ▸ hi)).trans (hother i hi)⟩

/-- A free entry whose lock is taken and released is what it was. -/
theorem State.entry_setLock_free_setLock {page : Nat} (l : EntryLock) (h : (s.entry page).lock = .free) (n : Nat) :
    ((s.setLock page l).setLock page .free).entry n = s.entry n := by
  by_cases hn : n = page
  · subst hn
    rw [State.entry_setLock_same, State.entry_setLock_same, ← h]
  · rw [State.entry_setLock_other _ _ hn, State.entry_setLock_other _ _ hn]

/-- Settles O31: the acquire takes the entry, and the commit finds the page valid and releases it. -/
theorem secondEcreateRaisesPf : Obligations.SecondEcreateRaisesPf := by
  intro s p k hadm hk hfree hvalid
  have ⟨⟨hp, hi, _⟩, _⟩ := hadm
  have hfirst := (exec_of_idle hp hi).trans (ecreateAcquire_eq_next_iff.2 (.entryTaken
    ((launchRefusal_eq_none_iff hp hi).2 hadm) (acquireChecks_eq_ok_iff_operandsOk.2 hk) hfree))
  have hinside := State.current_setCurrent (p := { p with phase := .ecreate k })
    (s.tick.setLock k.page (.held [s.active])) hp
  have hsecond := (exec_of_inside hinside rfl).trans
    (ecreateCommit_eq_next_iff.2 (.alreadyValid (by simpa using hvalid)))
  refine ⟨_, _, hfirst, hsecond, ?_, rfl,
    (exec_outsideUntouched hfirst).trans (exec_outsideUntouched hsecond),
    fun n => ⟨s.tick.entry_setLock_free_setLock _ hfree n, rfl, rfl⟩⟩
  refine (State.current_setCurrent _ hinside).trans ?_
  rw [← hi]
  rfl

/-! ### Reading an operand byte by byte (R50, R55) -/

/-- A block has 4096 bytes. -/
theorem blockByte_of_ge (b : Block) {j : Nat} (h : pageBytes ≤ j) : blockByte b j = 0 := by
  apply BitVec.eq_of_getLsbD_eq
  intro i _
  unfold pageBytes at h
  rw [blockByte_getLsbD, BitVec.getLsbD_of_ge b _ (by omega)]
  simp

theorem blockByte_or (a b : Block) (j : Nat) : blockByte (a ||| b) j = blockByte a j ||| blockByte b j := by
  apply BitVec.eq_of_getLsbD_eq
  intro i hi
  rw [BitVec.getLsbD_or, blockByte_getLsbD, blockByte_getLsbD, blockByte_getLsbD, BitVec.getLsbD_or,
    Bool.and_or_distrib_left]

/-- A block moved up by `n` bytes. -/
theorem blockByte_shiftLeft (b : Block) (n : Nat) {j : Nat} (h : j < pageBytes) :
    blockByte (b <<< (8 * n)) j = if j < n then 0 else blockByte b (j - n) := by
  apply BitVec.eq_of_getLsbD_eq
  intro i hi
  unfold pageBytes at h
  have hb : 8 * j + i < 32768 := by omega
  rw [blockByte_getLsbD, BitVec.getLsbD_shiftLeft]
  split
  · have hlt : 8 * j + i < 8 * n := by omega
    simp [hlt]
  · have hlt : ¬ 8 * j + i < 8 * n := by omega
    have hsub : 8 * j + i - 8 * n = 8 * (j - n) + i := by omega
    rw [blockByte_getLsbD, hsub]
    simp only [hb, hlt, decide_true, decide_false, Bool.not_false, Bool.true_and]

/-- What is gathered holds the bytes of its first part, and behind them those of the rest. -/
theorem blockByte_gather_cons (m : Memory) (pa : Word64) {n : Nat} (ts : List (Translation × Nat)) (hn : n ≤ pageBytes)
    {j : Nat} (hj : j < pageBytes) :
    blockByte (gather m ((.phys pa, n) :: ts)) j =
      if j < n then m.read (pa.toNat + j) else blockByte (gather m ts) (j - n) := by
  rw [gather, blockByte_or, blockByte_shiftLeft _ _ hj, Memory.blockByte_load _ _ hn]
  split <;> simp

/-- Where no part faults, the first part translates and no part of the rest faults. -/
theorem firstPageFault_cons_eq_none {x : Translation} {n : Nat} {ts : List (Translation × Nat)}
    (h : firstPageFault ((x, n) :: ts) = none) : ∃ pa, x = .phys pa ∧ firstPageFault ts = none := by
  cases x with
  | phys pa => exact ⟨pa, rfl, h⟩
  | fault c => cases h

/-- A read that passes is of a placed operand whose parts all translate; it answers their bytes. -/
theorem readOperand_eq_ok {c : Config} {m : Memory} {la : Word64} {n : Nat} {b : Block} :
    readOperand c p m la n = .ok b ↔
      placementRefusal c p la n = none ∧ firstPageFault (operandTranslations p la n) = none ∧
        b = gather m (operandTranslations p la n) := by
  unfold readOperand
  split
  · rename_i hr
    simp [hr]
  · rename_i hr
    split
    · rename_i hf
      simp [hf]
    · rename_i hf
      simp [hr, hf, eq_comm]

/-- The second part of an operand that crosses a page begins with a page. -/
theorem wrapAddress_next_page (m : Mode) (la : Word64) :
    (wrapAddress m (la + BitVec.ofNat 64 (pageBytes - la.toNat % pageBytes))).toNat % pageBytes = 0 := by
  cases m <;>
    simp only [wrapAddress, BitVec.toNat_setWidth, BitVec.toNat_add, BitVec.toNat_ofNat, pageBytes] <;> omega

theorem operandTranslations_of_one_page {la : Word64} {n : Nat} (h : n ≤ pageBytes - la.toNat % pageBytes) :
    operandTranslations p la n = [(translate p la .nonEnclaveRead, n)] := by
  simp only [operandTranslations, operandPieces, if_pos h, List.map_cons, List.map_nil]

theorem operandTranslations_of_two_pages {la : Word64} {n : Nat} (h : ¬ n ≤ pageBytes - la.toNat % pageBytes) :
    operandTranslations p la n =
      [(translate p la .nonEnclaveRead, pageBytes - la.toNat % pageBytes),
        (translate p (wrapAddress p.mode (la + BitVec.ofNat 64 (pageBytes - la.toNat % pageBytes))) .nonEnclaveRead,
          n - (pageBytes - la.toNat % pageBytes))] := by
  simp only [operandTranslations, operandPieces, if_neg h, List.map_cons, List.map_nil]

/-- Byte `j` of what is gathered is the byte at the translation of the `j`-th linear address. -/
theorem blockByte_gather_operandTranslations (m : Memory) {la : Word64} {n : Nat} (hn : n ≤ pageBytes)
    (hw : wrapAddress p.mode la = la) (hf : firstPageFault (operandTranslations p la n) = none) {j : Nat} (hj : j < n) :
    ∃ pa, translate p (wrapAddress p.mode (la + BitVec.ofNat 64 j)) .nonEnclaveRead = .phys pa ∧
      blockByte (gather m (operandTranslations p la n)) j = m.read pa.toNat := by
  have hmod : la.toNat % pageBytes < pageBytes := Nat.mod_lt _ (by decide)
  by_cases hr : n ≤ pageBytes - la.toNat % pageBytes
  · rw [operandTranslations_of_one_page hr] at hf ⊢
    obtain ⟨pa, hpa, -⟩ := firstPageFault_cons_eq_none hf
    obtain ⟨pb, hpb, hadd, -⟩ := translate_same_page hpa hw (k := j) (by omega)
    refine ⟨pb, hpb, ?_⟩
    rw [hpa, blockByte_gather_cons _ _ _ hn (by omega), if_pos hj, hadd]
  · rw [operandTranslations_of_two_pages hr] at hf ⊢
    have hnext := wrapAddress_next_page p.mode la
    generalize hroom : pageBytes - la.toNat % pageBytes = room at *
    obtain ⟨pa, hpa, hf⟩ := firstPageFault_cons_eq_none hf
    obtain ⟨pc, hpc, -⟩ := firstPageFault_cons_eq_none hf
    rw [hpa, hpc, blockByte_gather_cons _ _ _ (by omega) (by omega)]
    by_cases hjr : j < room
    · obtain ⟨pb, hpb, hadd, -⟩ := translate_same_page hpa hw (k := j) (by omega)
      exact ⟨pb, hpb, by rw [if_pos hjr, hadd]⟩
    · obtain ⟨pb, hpb, hadd, -⟩ := translate_same_page hpc (wrapAddress_wrapAddress _ _) (k := j - room) (by omega)
      rw [wrapAddress_add_add, Nat.add_sub_cancel' (by omega)] at hpb
      refine ⟨pb, hpb, ?_⟩
      rw [if_neg hjr, blockByte_gather_cons _ _ _ (by omega) (by omega), if_pos (by omega), hadd]

/-- Above the operand there is nothing. -/
theorem blockByte_gather_operandTranslations_of_ge (m : Memory) {la : Word64} {n : Nat} (hn : n ≤ pageBytes)
    (hf : firstPageFault (operandTranslations p la n) = none) {j : Nat} (hj : n ≤ j) :
    blockByte (gather m (operandTranslations p la n)) j = 0 := by
  by_cases hpage : pageBytes ≤ j
  · exact blockByte_of_ge _ hpage
  by_cases hr : n ≤ pageBytes - la.toNat % pageBytes
  · rw [operandTranslations_of_one_page hr] at hf ⊢
    obtain ⟨pa, hpa, -⟩ := firstPageFault_cons_eq_none hf
    rw [hpa, blockByte_gather_cons _ _ _ hn (by omega), if_neg (by omega)]
    exact blockByte_zero _
  · rw [operandTranslations_of_two_pages hr] at hf ⊢
    obtain ⟨pa, hpa, hf⟩ := firstPageFault_cons_eq_none hf
    obtain ⟨pc, hpc, -⟩ := firstPageFault_cons_eq_none hf
    rw [hpa, hpc, blockByte_gather_cons _ _ _ (by omega) (by omega), if_neg (by omega),
      blockByte_gather_cons _ _ _ (by omega) (by omega), if_neg (by omega)]
    exact blockByte_zero _

/-- Settles O43: the parts of the operand lie in one page each, so each byte is that much further in a frame. -/
theorem memReadIsByteByByte : Obligations.MemReadIsByteByByte := by
  intro c p m la n b hn hw hread
  obtain ⟨hplace, hf, rfl⟩ := readOperand_eq_ok.1 hread
  refine ⟨fun j hj => ?_, fun j => blockByte_gather_operandTranslations_of_ge m hn hf⟩
  obtain ⟨pa, hpa, hbyte⟩ := blockByte_gather_operandTranslations m hn hw hf hj
  have hplaced := (placementRefusal_eq_none_iff hw ⟨by omega, hn⟩).1 hplace
  exact ⟨pa, hpa, hbyte, hplaced.outside hj hpa⟩

end Sys2Proof.Machine
end

section
/-! PROOFS. Scope: encoding. The words written out; which leaf EAX selects; the bytes placed at the instruction pointer are
what the fetch reads. -/

namespace Sys2Proof.Machine

variable {s : State} {p : Processor}

/-! ### Bytes that do not decode (R73, R78) -/

theorem decode_of_length_lt {opcode bytes : List Byte} (h : bytes.length < opcode.length) :
    decode opcode bytes = .error .truncated := by
  rw [decode, if_pos h]

theorem decode_of_take_ne {opcode bytes : List Byte} (hlen : opcode.length ≤ bytes.length)
    (h : bytes.take opcode.length ≠ opcode) : decode opcode bytes = .error .notEncls := by
  rw [decode, if_neg (Nat.not_lt.2 hlen), if_neg h]

/-- The opcode table's word of 24 bits is the three bytes of ENCLS. -/
theorem tableBytes_encls : tableBytes 24 0xCF010F = tableOpcode := by decide

/-- Settles O1: the front of each list is compared with the three bytes of G1. -/
theorem decodeReadsEnclsBytesOnly : Obligations.DecodeReadsEnclsBytesOnly := by
  refine ⟨decode_eq_ok.2 rfl, decode_of_take_ne (by decide) (by decide), decode_of_take_ne (by decide) (by decide),
    decode_of_length_lt (by decide), ?_, ?_⟩
  · have hok : decode tableOpcode (tableBytes 24 0xCF010F) = .ok (.enclsEcreate, []) :=
      decode_eq_ok.2 tableBytes_encls
    rw [decodeTableWord, hok]
  · have herror : decode tableOpcode (tableBytes 24 0xCE010F) = .error .notEncls :=
      decode_of_take_ne (by decide) (by decide)
    rw [decodeTableWord, herror]

/-! ### The leaf that EAX selects (R75, R77) -/

theorem enclsPermitted_eq_true {c : Config} :
    enclsPermitted c p = true ↔ c.sgx1 = true ∧ standing p ∈ c.permitted := by
  simp [enclsPermitted]

/-- With P1 and P3 met, another leaf is refused under its own name, whatever DS is. -/
theorem processorRefusal_of_other_leaf (hl : Launchable s p) {rax : Word64} (h : rax.setWidth 32 ≠ (0 : Word32)) :
    processorRefusal s.cfg { p with rax := rax } = some .leafNotInSpec := by
  obtain ⟨-, -, hwf, hmode, hpermitted, -⟩ := hl
  have hadmitted : p.mode ≠ .other := by rcases hmode with hm | hm <;> simp [hm]
  have hpermitted : enclsPermitted s.cfg { p with rax := rax } = true := enclsPermitted_eq_true.2 hpermitted
  simp only [processorRefusal, hwf, hadmitted, hpermitted, eax, ne_eq, h, not_false_eq_true, Bool.true_eq_false,
    if_false, if_true]

/-- RAX is looked at by no launch premise but that of the leaf, and there in its low half only. -/
theorem Admitted.setRax (h : Admitted s p) {rax : Word64} (hrax : rax.setWidth 32 = (0 : Word32)) :
    Admitted (s.setCurrent { p with rax := rax }) { p with rax := rax } := by
  obtain ⟨⟨hp, hi, hwf, hmode, hpermitted, -, hds⟩, hlocks, hplaced⟩ := h
  have hlocks' : (s.setCurrent { p with rax := rax }).LocksHeld := by
    rw [← locksHonest_iff, State.locksHonest_setCurrent (q := { p with rax := rax }) hp rfl]
    exact locksHonest_iff.2 hlocks
  exact ⟨⟨State.current_setCurrent s hp, hi, hwf, hmode, hpermitted, hrax, hds⟩, hlocks', hplaced⟩

theorem exec_ne_refused_of_admitted (h : Admitted s p) (r : Refusal) : exec .enclsEcreate s ≠ .refused r := by
  rcases exec_admitted h with ⟨e, -, hx⟩ | ⟨k, -, hx⟩ <;> rw [hx] <;> exact nofun

/-- Settles O7: with the low half 0 the invocation is admitted, and an admitted one is refused nowhere. -/
theorem leafSelectedByEaxAlone : Obligations.LeafSelectedByEaxAlone := by
  intro s p rax hadm
  have ⟨hl, _⟩ := hadm
  have ⟨hp, hi, _⟩ := hl
  constructor
  · intro hrefused hrax
    exact exec_ne_refused_of_admitted (hadm.setRax hrax) _ hrefused
  · intro hrax
    have hlaunch : launchRefusal (s.setCurrent { p with rax := rax }) { p with rax := rax } = some .leafNotInSpec := by
      simp only [launchRefusal, State.setCurrent_cfg, processorRefusal_of_other_leaf hl hrax]
    rw [exec_of_idle (p := { p with rax := rax }) (State.current_setCurrent s hp) hi]
    exact ecreateAcquire_of_refusal hlaunch

/-! ### Fetching in one page of ordinary memory (log 2) -/

/-- A linear address of the fetch has the width of the mode. -/
@[simp] theorem wrapAddress_fetchAddress (p : Processor) (k : Nat) :
    wrapAddress p.mode (fetchAddress p k) = fetchAddress p k :=
  wrapAddress_wrapAddress _ _

theorem fetchAddress_eq_add (p : Processor) (k : Nat) :
    fetchAddress p k = wrapAddress p.mode (fetchAddress p 0 + BitVec.ofNat 64 k) := by
  simp only [fetchAddress, wrapAddress_add_add, Nat.zero_add]

section
variable {pa : Word64} (hpa : translate p (fetchAddress p 0) .nonEnclaveRead = .phys pa)
include hpa

/-- A byte behind the instruction pointer in the same page is that much further in the same frame. -/
theorem translate_fetchAddress {k : Nat} (hk : (fetchAddress p 0).toNat % pageBytes + k < pageBytes) :
    ∃ pb, translate p (fetchAddress p k) .nonEnclaveRead = .phys pb ∧ pb.toNat = pa.toNat + k := by
  obtain ⟨pb, hpb, hadd, -⟩ := translate_same_page hpa (wrapAddress_fetchAddress p 0) hk
  exact ⟨pb, fetchAddress_eq_add p k ▸ hpb, hadd⟩

/-- Placing bytes from the `k`-th on leaves those before it alone. -/
theorem placeBytes_read_before {bytes : List Byte} {m : Memory} {j k : Nat} (hj : j < k)
    (hroom : (fetchAddress p 0).toNat % pageBytes + (k + bytes.length) ≤ pageBytes) :
    (placeBytes p m k bytes).read (pa.toNat + j) = m.read (pa.toNat + j) := by
  induction bytes generalizing m k with
  | nil => rfl
  | cons b t ih =>
    rw [List.length_cons] at hroom
    obtain ⟨pb, hpb, hadd⟩ := translate_fetchAddress hpa (k := k) (by omega)
    simp only [placeBytes, hpb]
    rw [ih (by omega) (by omega), Memory.read_write_other _ _ (by omega)]

/-- Bytes placed from the `k`-th on read back in order: none is overwritten by a later one. -/
theorem placeBytes_read_placed {bytes : List Byte} {m : Memory} {k : Nat}
    (hroom : (fetchAddress p 0).toNat % pageBytes + (k + bytes.length) ≤ pageBytes) {j : Nat} (hj : j < bytes.length) :
    (placeBytes p m k bytes).read (pa.toNat + (k + j)) = bytes[j] := by
  induction bytes generalizing m k j with
  | nil => cases hj
  | cons b t ih =>
    rw [List.length_cons] at hroom hj
    obtain ⟨pb, hpb, hadd⟩ := translate_fetchAddress hpa (k := k) (by omega)
    simp only [placeBytes, hpb]
    cases j with
    | zero =>
      rw [placeBytes_read_before hpa (by omega) (by omega), Nat.add_zero, ← hadd, Memory.read_write_same]
      rfl
    | succ j =>
      have hnext : k + (j + 1) = k + 1 + j := by omega
      rw [hnext]
      exact ih (by omega) (by omega)

/-- A fetch that stays in one page of ordinary memory reads that page's bytes. -/
theorem fetchBytes_of_one_page (ho : s.ordinary pa = true)
    (hroom : (fetchAddress p 0).toNat % pageBytes + s.cfg.enclsOpcode.length ≤ pageBytes) :
    fetchBytes s p = .ok ((List.range s.cfg.enclsOpcode.length).map fun j => s.mem.read (pa.toNat + j)) := by
  have hts : operandTranslations p (fetchAddress p 0) s.cfg.enclsOpcode.length =
      [(.phys pa, s.cfg.enclsOpcode.length)] := by
    rw [operandTranslations_of_one_page (by omega), hpa]
  obtain ⟨hepc, hside⟩ : inRegions s.cfg.epc (frameOf pa) = false ∧ inRegions s.cfg.sideEffects (frameOf pa) = false := by
    simpa [State.ordinary] using ho
  have hplace : placementRefusal s.cfg p (fetchAddress p 0) s.cfg.enclsOpcode.length = none := by
    simp [placementRefusal, hts, translatesInto, landsIn, hepc, hside]
  rw [fetchBytes, readOperand_eq_ok.2 ⟨hplace, by rw [hts]; rfl, rfl⟩, Check.bind_ok, hts]
  congr 1
  refine List.map_congr_left fun j hj => ?_
  rw [List.mem_range] at hj
  rw [blockByte_gather_cons _ _ _ (by omega) (by omega), if_pos hj]

end

/-! ### Placed bytes are executed (log 36) -/

/-- The processor that `State.withFetchBytes` leaves: between instructions, no event recorded. -/
def Processor.readyToFetch (p : Processor) : Processor := { p with phase := .idle, event := none }

/-- Bytes placed at the instruction pointer of the active processor: they are in memory, it is ready, no turn is pending. -/
theorem State.withFetchBytes_spec (hp : s.current = some p) (bytes : List Byte) :
    (s.withFetchBytes bytes).current = some p.readyToFetch ∧ (s.withFetchBytes bytes).cfg = s.cfg ∧
      (s.withFetchBytes bytes).mem = placeBytes p s.mem 0 bytes ∧ (s.withFetchBytes bytes).turns = [] := by
  rw [State.withFetchBytes, hp]
  exact ⟨State.current_setCurrent s hp, rfl, rfl, rfl⟩

/-- As many bytes as ENCLS has, placed in one page of ordinary memory, are what the fetch reads. -/
theorem fetchBytes_withFetchBytes {pa : Word64} {bytes : List Byte} (hp : s.current = some p)
    (hpa : translate p (fetchAddress p 0) .nonEnclaveRead = .phys pa) (ho : s.ordinary pa = true)
    (hlen : bytes.length = s.cfg.enclsOpcode.length)
    (hroom : (fetchAddress p 0).toNat % pageBytes + bytes.length ≤ pageBytes) :
    fetchBytes (s.withFetchBytes bytes) p.readyToFetch = .ok bytes := by
  obtain ⟨-, hcfg, hmem, -⟩ := s.withFetchBytes_spec hp bytes
  have hordinary : (s.withFetchBytes bytes).ordinary pa = true := by
    unfold State.ordinary at *
    rwa [hcfg]
  rw [fetchBytes_of_one_page (p := p.readyToFetch) hpa hordinary (by rw [hcfg, ← hlen]; exact hroom), hcfg, hmem, ← hlen]
  congr 1
  refine List.ext_getElem (by simp) fun j _ hj => ?_
  have hplaced := placeBytes_read_placed hpa (m := s.mem) (k := 0) (by omega) hj
  simpa using hplaced

/-- The configuration's own bytes for ENCLS, placed in one page of ordinary memory, are executed by the next step. -/
theorem step_withFetchBytes_opcode {pa : Word64} (hp : s.current = some p)
    (hpa : translate p (fetchAddress p 0) .nonEnclaveRead = .phys pa) (ho : s.ordinary pa = true)
    (hroom : (fetchAddress p 0).toNat % pageBytes + s.cfg.enclsOpcode.length ≤ pageBytes) :
    step (s.withFetchBytes s.cfg.enclsOpcode) =
      settled (s.withFetchBytes s.cfg.enclsOpcode) (exec .enclsEcreate (s.withFetchBytes s.cfg.enclsOpcode)) := by
  obtain ⟨hcurrent, hcfg, -, hturns⟩ := s.withFetchBytes_spec hp s.cfg.enclsOpcode
  have hdecode : decode (s.withFetchBytes s.cfg.enclsOpcode).cfg.enclsOpcode s.cfg.enclsOpcode = .ok (.enclsEcreate, []) := by
    rw [hcfg]
    exact decode_eq_ok.2 (List.append_nil _).symm
  have hfetch := fetchInstr_of_decode (fetchBytes_withFetchBytes hp hpa ho rfl hroom) hdecode
  rw [step, stepWith_eq_processorMove fetchInstr (j := 0) (more := []) (.inl ⟨hturns, rfl⟩)]
  exact processorMove_of_fetch_ok hcurrent rfl rfl hfetch

/-- Settles O6: the table's word is the configuration's own bytes for ENCLS. -/
theorem placedWordIsExecuted : Obligations.PlacedWordIsExecuted := by
  intro s p pa hopcode hp hroom hpa ho
  have hlen : s.cfg.enclsOpcode.length = 3 := by rw [hopcode]; rfl
  rw [State.withFetchWord, tableBytes_encls, ← hopcode]
  exact step_withFetchBytes_opcode hp hpa ho (by omega)

end Sys2Proof.Machine
end

section
/-! PROOFS. Scope: ECREATE, the content of a copied SECS: its checks in numbers, the block that is hashed, and the created
SECS field by field. -/

namespace Sys2Proof.Machine

variable {c : Config} {b : Block}

/-! ### The content checks in numbers (R96 to R110) -/

/-- At most one of the 64 bits is set exactly if any two set ones are the same. -/
theorem popcnt_le_one_iff {v : Nat} :
    popcnt v ≤ 1 ↔ ∀ i < 64, v.testBit i = true → ∀ j < 64, v.testBit j = true → i = j := by
  have hcard : popcnt v = ((Finset.range 64).filter fun i => v.testBit i = true).card := by
    rw [popcnt, List.countP_eq_length_filter, ← List.toFinset_card_of_nodup (List.nodup_range.filter _),
      List.toFinset_filter, List.toFinset_range]
  simp only [hcard, Finset.card_le_one, Finset.mem_filter, Finset.mem_range, and_imp]

theorem popcnt_two_pow_le_one (n : Nat) : popcnt (2 ^ n) ≤ 1 := by
  rw [popcnt_le_one_iff]
  intro i _ hi j _ hj
  rw [Nat.testBit_two_pow, decide_eq_true_eq] at hi hj
  rw [← hi, hj]

theorem eq_two_pow_of_popcnt_le_one {v : Nat} (hlt : v < 2 ^ 64) (h0 : v ≠ 0) (h : popcnt v ≤ 1) : ∃ n, v = 2 ^ n := by
  have hbound : ∀ {i}, v.testBit i = true → i < 64 := fun {i} hi => by
    by_contra hge
    have hv : v < 2 ^ i := hlt.trans_le (Nat.pow_le_pow_right (by decide) (by omega))
    rw [Nat.testBit_lt_two_pow hv] at hi
    cases hi
  obtain ⟨n, hn⟩ := Nat.exists_testBit_of_ne_zero h0
  refine ⟨n, Nat.eq_of_testBit_eq fun i => ?_⟩
  rw [Nat.testBit_two_pow, Bool.eq_iff_iff, decide_eq_true_eq]
  exact ⟨fun hi => popcnt_le_one_iff.1 h n (hbound hn) hn i (hbound hi) hi, fun he => he ▸ hn⟩

/-- R106 passes exactly for the powers of two from 2^13 on. -/
theorem sizeShape_iff {v : Nat} (hlt : v < 2 ^ 64) : ¬ v < 8192 ∧ ¬ 1 < popcnt v ↔ ∃ n, 13 ≤ n ∧ v = 2 ^ n := by
  constructor
  · rintro ⟨hmin, hpop⟩
    obtain ⟨n, rfl⟩ := eq_two_pow_of_popcnt_le_one hlt (by omega) (by omega)
    exact ⟨n, (Nat.pow_le_pow_iff_right (a := 2) (by decide)).1 (by omega), rfl⟩
  · rintro ⟨n, hn, rfl⟩
    have hmin : 2 ^ 13 ≤ 2 ^ n := Nat.pow_le_pow_right (by decide) hn
    have hpop := popcnt_two_pow_le_one n
    omega

/-- The mask of R107 is the remainder, where SIZE is a power of two. -/
theorem and_pred_eq_zero_iff (a : Word64) {n : Nat} (hn : n < 64) :
    a &&& BitVec.ofNat 64 (2 ^ n - 1) = 0 ↔ a.toNat % 2 ^ n = 0 := by
  have hlt : 2 ^ n < 2 ^ 64 := Nat.pow_lt_pow_right (by decide) hn
  rw [← BitVec.toNat_inj, BitVec.toNat_and, BitVec.toNat_ofNat, Nat.mod_eq_of_lt (by omega),
    Nat.and_two_pow_sub_one_eq_mod]
  rfl

/-- The mask of R103 is that of bits 63 to 32. -/
theorem and_high_eq_zero_iff (a : Word64) : a &&& 0xFFFFFFFF00000000 = 0 ↔ a.toNat < 2 ^ 32 := by
  have hmask : ∀ i < 64, (0xFFFFFFFF00000000 : Word64).getLsbD i = decide (32 ≤ i) := by decide
  rw [and_eq_zero_iff]
  constructor
  · intro h
    refine Nat.lt_pow_two_of_testBit _ fun i hi => ?_
    rw [BitVec.testBit_toNat]
    by_cases h64 : i < 64
    · exact h i h64 ((hmask i h64).trans (decide_eq_true hi))
    · exact BitVec.getLsbD_of_ge a i (by omega)
  · intro h i hi hm
    rw [hmask i hi, decide_eq_true_eq] at hm
    exact Nat.testBit_lt_two_pow (h.trans_le (Nat.pow_le_pow_right (by decide) hm))

/-- The mask of R108, bit by bit. -/
theorem and_not_eq_zero_iff {w a m : Nat} :
    BitVec.ofNat w a &&& ~~~(BitVec.ofNat w m) = 0 ↔ ∀ i, i < w → a.testBit i = true → m.testBit i = true := by
  rw [and_eq_zero_iff]
  refine forall_congr' fun i => forall_congr' fun hi => ?_
  simp only [BitVec.getLsbD_not, BitVec.getLsbD_ofNat, hi, decide_true, Bool.true_and, Bool.not_eq_true']
  cases a.testBit i <;> cases m.testBit i <;> decide

/-! ### Which checks fail (R82) -/

/-- R98 with the literal line added where the configuration asks for it (log 26). -/
theorem miscselect_passes_iff :
    secsCheckFails c b .miscselect = false ↔
      (BitVec.ofNat 32 (secsMiscselect c b) &&& ~~~c.cpuidEbx) = 0 ∧
        (c.miscselectLiteral = true → (c.cpuidEbx &&& BitVec.ofNat 32 (secsMiscselect c b)) ≠ 0) := by
  simp [secsCheckFails]

/-- The checks whose conditions `SecsFault` writes out: all but those of R97 and R98. -/
def secsFaultChecks : List SecsCheck :=
  [.xfrmLowBits, .ssaframesize, .baseCanonical, .base32, .size32, .size64, .sizeShape, .baseAligned, .attributesMask,
   .reserved, .configNeedsKss]

theorem mem_secsChecks_iff (k : SecsCheck) :
    k ∈ secsChecks ↔ k ∈ secsFaultChecks ∨ k = .xfrmLegal ∨ k = .miscselect := by
  cases k <;> decide

theorem secsFault_iff : SecsFault c b ↔ ∃ k ∈ secsFaultChecks, secsCheckFails c b k = true := by
  have hmask : (∃ i, i < c.secs.attributes.len ∧ (secsAttributes c b).testBit i = true ∧
      c.attributesMask.testBit i = false) ↔
      (BitVec.ofNat c.secs.attributes.len (secsAttributes c b) &&&
        ~~~(BitVec.ofNat c.secs.attributes.len c.attributesMask)) ≠ 0 := by
    simp only [ne_eq, and_not_eq_zero_iff, not_forall, exists_prop, Bool.not_eq_true]
  simp only [SecsFault, hmask, secsFaultChecks, List.mem_cons, List.not_mem_nil, or_false, exists_eq_or_imp,
    exists_eq_left, secsCheckFails, decide_eq_true_eq, Bool.and_eq_true, Bool.not_eq_true', or_assoc]
  simp only [ssaFrameNeeded]

/-- No content check fails exactly if no condition of R96 or R101 to R110 holds, XFRM is legal (R97) and MISCSELECT passes
(R98). -/
theorem firstFailure_eq_none_iff :
    firstFailure c b = none ↔
      ¬ SecsFault c b ∧ secsXfrm c b ∈ c.xfrmLegal ∧ secsCheckFails c b .miscselect = false := by
  have hlegal : secsXfrm c b ∈ c.xfrmLegal ↔ secsCheckFails c b .xfrmLegal = false := by simp [secsCheckFails]
  rw [secsFault_iff, hlegal]
  simp only [firstFailure, List.find?_eq_none, mem_secsChecks_iff, or_imp, forall_and, forall_eq, not_exists, not_and,
    Bool.not_eq_true]

/-- R106 and R107 together: SIZE is a power of two from 2^13 on, and BASEADDR a multiple of it. -/
theorem size_and_alignment_iff (hlt : secsSize c b < 2 ^ 64) :
    ¬ secsSize c b < 8192 ∧ ¬ 1 < popcnt (secsSize c b) ∧
        ¬ (secsBase c b &&& BitVec.ofNat 64 (secsSize c b - 1)) ≠ 0 ↔
      (∃ n, 13 ≤ n ∧ secsSize c b = 2 ^ n) ∧ (secsBase c b).toNat % secsSize c b = 0 := by
  rw [← and_assoc, sizeShape_iff hlt, not_not]
  refine and_congr_right fun ⟨n, _, hn⟩ => ?_
  rw [hn] at hlt ⊢
  exact and_pred_eq_zero_iff _ ((Nat.pow_lt_pow_iff_right (by decide)).1 hlt)

/-- `secs_ok` is what the content checks ask. -/
theorem secsOk_iff (hlt : secsSize c b < 2 ^ 64) :
    SecsOk c b ↔ ¬ SecsFault c b ∧ secsXfrm c b ∈ c.xfrmLegal ∧ secsCheckFails c b .miscselect = false := by
  have hshape := size_and_alignment_iff hlt
  have hhigh := and_high_eq_zero_iff (secsBase c b)
  have hreserved := and_eq_zero_iff b c.secs.reserved
  have hconfig : ¬ ((getField b c.secs.configid ≠ 0 ∨ getField b c.secs.configsvn ≠ 0) ∧ secsKss c b = 0) ↔
      (secsKss c b = 0 → getField b c.secs.configid = 0 ∧ getField b c.secs.configsvn = 0) := by
    rw [not_and']
    simp only [not_or, ne_eq, not_not]
  unfold SecsOk SecsFault
  rw [miscselect_passes_iff]
  simp only [not_or, hconfig]
  simp only [not_and, not_exists, Bool.not_eq_false, Nat.not_lt, Nat.not_le, not_not, ne_eq] at *
  constructor
  · rintro ⟨hxfrm, hlegal, hmisc, hliteral, hframe, h64, h32, hsize, hbase, hmask, hres, hkss⟩
    obtain ⟨hmin, hpop, halign⟩ := hshape.2 ⟨hsize, hbase⟩
    exact ⟨⟨hxfrm, hframe, fun hm => (h64 hm).1, fun hm => hhigh.2 (h32 hm).1, fun hm => (h32 hm).2,
      fun hm => (h64 hm).2, hmin, hpop, halign, hmask, hreserved.2 hres, hkss⟩, hlegal, hmisc, hliteral⟩
  · rintro ⟨⟨hxfrm, hframe, hcanonical, hbase32, hsize32, hsize64, hmin, hpop, halign, hmask, hres, hkss⟩, hlegal, hmisc,
      hliteral⟩
    obtain ⟨hsize, hbase⟩ := hshape.1 ⟨hmin, hpop, halign⟩
    exact ⟨hxfrm, hlegal, hmisc, hliteral, hframe, fun hm => ⟨hcanonical hm, hsize64 hm⟩,
      fun hm => ⟨hhigh.1 (hbase32 hm), hsize32 hm⟩, hsize, hbase, hmask, hreserved.1 hres, hkss⟩

/-- The SECS layout of a well-formed configuration: the widths that R30 fixes, and its fields partition the page. -/
theorem configWf_secs (h : configWf c = true) :
    (c.secs.size.len = 64 ∧ c.secs.baseaddr.len = 64 ∧ c.secs.ssaframesize.len = 32 ∧ 32 ≤ c.secs.miscselect.len ∧
        c.secs.mrenclave.len = 256) ∧
      partitions (8 * pageBytes) (secsFields c.secs ++ c.secs.others) c.secs.reserved.toNat = true := by
  simp only [configWf, secsWf, Bool.and_eq_true, decide_eq_true_eq] at h
  obtain ⟨⟨⟨⟨⟨⟨-, hsecs⟩, -⟩, -⟩, -⟩, -⟩, -⟩ := h
  exact hsecs

theorem secsSize_lt (h : configWf c = true) : secsSize c b < 2 ^ 64 := by
  obtain ⟨⟨hsize, -⟩, -⟩ := configWf_secs h
  exact hsize ▸ getField_lt b c.secs.size

/-- Settles O27: check by check; SIZE has 64 bits, so that a single one is counted. -/
theorem noCheckFailsIffSecsOk : Obligations.NoCheckFailsIffSecsOk := fun _ _ hwf =>
  firstFailure_eq_none_iff.trans (secsOk_iff (secsSize_lt hwf)).symm

/-! ### The block that is hashed (R115) -/

/-- Bit `j` of the block: the string, SSAFRAMESIZE from bit 64 on, SIZE from bit 96 on. -/
theorem updateField_getLsbD (ssa : Word32) (size : Word64) (j : Nat) :
    (updateField ssa size).getLsbD j =
      if j < 64 then (0x0045544145524345 : Word64).getLsbD j
      else if j < 96 then ssa.getLsbD (j - 64)
      else size.getLsbD (j - 96) := by
  simp only [updateField, BitVec.getLsbD_append]
  by_cases hstring : j < 64
  · rw [if_pos hstring, if_pos hstring]
  · have hframe : j - 64 < 32 ↔ j < 96 := by omega
    rw [if_neg hstring, if_neg hstring, if_congr hframe rfl rfl, Nat.sub_sub]
    by_cases hsize : j - (64 + 32) < 64
    · rw [if_pos hsize]
    · rw [if_neg hsize, BitVec.getLsbD_of_ge size _ (by omega)]
      exact if_congr Iff.rfl rfl BitVec.getLsbD_zero

theorem bufferByte_getLsbD (t : BitVec 512) (i j : Nat) :
    (bufferByte t i).getLsbD j = (decide (j < 8) && t.getLsbD (8 * i + j)) := by
  simp only [bufferByte, BitVec.getLsbD_ofNat, Nat.testBit_shiftRight, BitVec.testBit_toNat]

/-- A byte of the block, bit by bit. -/
theorem bufferByte_updateField_eq {ssa : Word32} {size : Word64} {i : Nat} {v : Byte}
    (h : ∀ j < 8, (updateField ssa size).getLsbD (8 * i + j) = v.getLsbD j) :
    bufferByte (updateField ssa size) i = v :=
  BitVec.eq_of_getLsbD_eq fun j hj => by rw [bufferByte_getLsbD, decide_eq_true hj, Bool.true_and, h j hj]

/-- Bit `j` of byte `i` of a number. -/
theorem byteOf_getLsbD (v i : Nat) {j : Nat} (hj : j < 8) :
    (BitVec.ofNat 8 (v >>> (8 * i))).getLsbD j = v.testBit (8 * i + j) := by
  rw [BitVec.getLsbD_ofNat, Nat.testBit_shiftRight, decide_eq_true hj, Bool.true_and]

/-- The first eight bytes are the string, whatever the SECS. -/
theorem bufferByte_updateField_string (ssa : Word32) (size : Word64) {i : Nat} (hi : i < 8) :
    bufferByte (updateField ssa size) i = BitVec.ofNat 8 ((0x0045544145524345 : Word64).toNat >>> (8 * i)) :=
  bufferByte_updateField_eq fun j hj => by
    rw [updateField_getLsbD, if_pos (by omega), byteOf_getLsbD _ _ hj, BitVec.testBit_toNat]

/-- Settles O33: each byte lies in one of the four parts. -/
theorem hashBlockBytes : Obligations.HashBlockBytes := by
  refine fun ssa size => ⟨?_, fun i hi => bufferByte_updateField_eq fun j hj => ?_,
    fun i hi => bufferByte_updateField_eq fun j hj => ?_, fun i hi => bufferByte_updateField_eq fun j hj => ?_⟩
  · rw [List.map_congr_left fun i hi => bufferByte_updateField_string ssa size (List.mem_range.1 hi)]
    decide
  · rw [updateField_getLsbD, if_neg (by omega), if_pos (by omega), byteOf_getLsbD _ _ hj, BitVec.testBit_toNat]
    congr 1
    omega
  · rw [updateField_getLsbD, if_neg (by omega), if_neg (by omega), byteOf_getLsbD _ _ hj, BitVec.testBit_toNat]
    congr 1
    omega
  · rw [updateField_getLsbD, if_neg (by omega), if_neg (by omega), BitVec.getLsbD_of_ge size _ (by omega)]
    exact BitVec.getLsbD_zero.symm

/-- Settles O34: one compression each, evaluated. -/
theorem measurementExamples : Obligations.MeasurementExamples := by
  refine ⟨?_, ?_, ?_⟩ <;> decide +kernel

/-! ### Writing several fields -/

/-- Two fields share no bit. -/
def FieldsApart (f g : Field) : Prop := f.lo + f.len ≤ g.lo ∨ g.lo + g.len ≤ f.lo

/-- Several fields written one after the other. -/
def writeFields (b : Block) (ws : List (Field × Nat)) : Block := ws.foldl (fun s w => setField s w.1 w.2) b

/-- A bit outside every field written is as before. -/
theorem writeFields_getLsbD_outside {ws : List (Field × Nat)} {i : Nat}
    (h : ∀ w ∈ ws, i < w.1.lo ∨ w.1.lo + w.1.len ≤ i) : (writeFields b ws).getLsbD i = b.getLsbD i := by
  induction ws generalizing b with
  | nil => rfl
  | cons w ws ih =>
    rw [List.forall_mem_cons] at h
    exact (ih h.2).trans (setField_getLsbD_outside b w.2 h.1)

/-- A field apart from every field written reads as before. -/
theorem getField_writeFields_other {ws : List (Field × Nat)} {f : Field} (h : ∀ w ∈ ws, FieldsApart f w.1) :
    getField (writeFields b ws) f = getField b f := by
  induction ws generalizing b with
  | nil => rfl
  | cons w ws ih =>
    rw [List.forall_mem_cons] at h
    exact (ih h.2).trans (getField_setField_other b w.2 h.1)

/-- A field written reads as its value, where the fields are apart. -/
theorem getField_writeFields {ws : List (Field × Nat)} (hapart : ws.Pairwise fun v w => FieldsApart v.1 w.1)
    (hin : ∀ w ∈ ws, w.1.lo + w.1.len ≤ 32768) {f : Field} {v : Nat} (hw : (f, v) ∈ ws) :
    getField (writeFields b ws) f = v % 2 ^ f.len := by
  induction ws generalizing b with
  | nil => cases hw
  | cons w ws ih =>
    rw [List.pairwise_cons] at hapart
    rw [List.forall_mem_cons] at hin
    rcases List.mem_cons.1 hw with rfl | hw
    · exact (getField_writeFields_other hapart.1).trans (getField_setField_same b v hin.1)
    · exact ih hapart.2 hin.2 hw

/-! ### The created SECS (R111 to R118) -/

/-- R111: what is written of the bit that records initialisation, where the layout has one. -/
def initWrites (c : Config) : List (Field × Nat) :=
  c.attributes.init.toList.map fun f => (subField c.secs.attributes f, 0)

/-- R112 to R118: the fields that ECREATE writes in every layout. -/
def hardwareWrites (c : Config) (b : Block) (eid ctx : Word64) : List (Field × Nat) :=
  [(c.secs.mrenclave, mrenclaveImage c.mrenclaveOrder (secsMeasurement c b)), (c.secs.isvsvn, 0),
   (c.secs.isvprodid, 0), (c.secs.eid, eid.toNat), (c.secs.virtchildcnt, 0), (c.secs.enclavecontext, ctx.toNat)]

theorem initializedSecs_eq_writeFields (eid ctx : Word64) :
    initializedSecs c b eid ctx = writeFields b (initWrites c ++ hardwareWrites c b eid ctx) := by
  unfold initializedSecs clearInitialized initWrites
  cases c.attributes.init <;> rfl

/-- A bit that records initialisation lies inside ATTRIBUTES. -/
theorem configWf_init_inside (h : configWf c = true) {f : Field} (hf : c.attributes.init = some f) :
    f.lo + f.len ≤ c.secs.attributes.len := by
  simp only [configWf, attributesWf, Bool.and_eq_true] at h
  obtain ⟨⟨⟨⟨⟨-, -, hattributes⟩, -⟩, -⟩, -⟩, -⟩ := h
  obtain ⟨hin, -⟩ := partitions_eq_true hattributes
  exact (hin f (by simp [hf])).2

/-- ATTRIBUTES and the fields that ECREATE writes are apart from each other, and lie inside the page. -/
theorem configWf_secs_apart (h : configWf c = true) (eid ctx : Word64) :
    ((c.secs.attributes, 0) :: hardwareWrites c b eid ctx).Pairwise (fun v w => FieldsApart v.1 w.1) ∧
      ∀ w ∈ (c.secs.attributes, 0) :: hardwareWrites c b eid ctx, w.1.lo + w.1.len ≤ 32768 := by
  have hsub : (((c.secs.attributes, 0) :: hardwareWrites c b eid ctx).map (·.1)).Sublist
      (secsFields c.secs ++ c.secs.others) := by
    refine List.sublist_append_of_sublist_left ?_
    exact (((List.sublist_cons_self _ _).trans (List.sublist_cons_self _ _)).cons_cons c.secs.attributes).trans
      (List.drop_sublist 4 (secsFields c.secs))
  obtain ⟨hin, hapart, -⟩ := acceptedLayoutPartitionsBits.2 _ _ _ (configWf_secs h).2
  exact ⟨List.pairwise_map.1 (hapart.sublist hsub), fun w hw => hin _ (hsub.subset (List.mem_map_of_mem hw))⟩

/-- The fields that ECREATE writes are apart from each other, and lie inside the page. -/
theorem initializedSecs_writes_apart (h : configWf c = true) (eid ctx : Word64) :
    (initWrites c ++ hardwareWrites c b eid ctx).Pairwise (fun v w => FieldsApart v.1 w.1) ∧
      ∀ w ∈ initWrites c ++ hardwareWrites c b eid ctx, w.1.lo + w.1.len ≤ 32768 := by
  obtain ⟨hapart, hin⟩ := configWf_secs_apart (b := b) h eid ctx
  rw [List.pairwise_cons] at hapart
  rw [List.forall_mem_cons] at hin
  unfold initWrites
  cases hinit : c.attributes.init with
  | none => exact ⟨hapart.2, hin.2⟩
  | some f =>
    have hf := configWf_init_inside h hinit
    refine ⟨List.pairwise_cons.2 ⟨fun w hw => ?_, hapart.2⟩, List.forall_mem_cons.2 ⟨?_, hin.2⟩⟩
    · have := hapart.1 w hw
      simp only [FieldsApart, subField] at this ⊢
      omega
    · have := hin.1
      simp only [subField] at this ⊢
      omega

/-- A field that ECREATE writes reads as what it writes, truncated to the field. -/
theorem getField_initializedSecs (h : configWf c = true) {eid ctx : Word64} {f : Field} {v : Nat}
    (hw : (f, v) ∈ initWrites c ++ hardwareWrites c b eid ctx) :
    getField (initializedSecs c b eid ctx) f = v % 2 ^ f.len := by
  obtain ⟨hapart, hin⟩ := initializedSecs_writes_apart (b := b) h eid ctx
  rw [initializedSecs_eq_writeFields]
  exact getField_writeFields hapart hin hw

/-- The bytes of MRENCLAVE are one for each entry of the order. -/
theorem mrenclaveImage_lt (order : List Nat) (x : Sha256State) : mrenclaveImage order x < 256 ^ order.length := by
  induction order with
  | nil => exact Nat.one_pos
  | cons i order ih =>
    have hmod := Nat.mod_lt ((shaBytes x).toNat >>> (8 * (31 - i))) (show 256 > 0 by decide)
    simp only [mrenclaveImage, List.foldr_cons, List.length_cons, Nat.pow_succ] at *
    omega

theorem configWf_order (h : configWf c = true) : c.mrenclaveOrder.length = 32 := by
  simp only [configWf, orderWf, Bool.and_eq_true, decide_eq_true_eq] at h
  obtain ⟨⟨⟨⟨-, horder, -⟩, -⟩, -⟩, -⟩ := h
  exact horder

/-- Settles O32: the fields written are apart, so that each holds what was written of it. -/
theorem createdSecsFieldByField : Obligations.CreatedSecsFieldByField := by
  intro c b eid ctx hwf
  have hfield : ∀ {f v}, (f, v) ∈ initWrites c ++ hardwareWrites c b eid ctx →
      getField (initializedSecs c b eid ctx) f = v % 2 ^ f.len := getField_initializedSecs hwf
  have hzero : ∀ {f : Field}, (f, 0) ∈ initWrites c ++ hardwareWrites c b eid ctx →
      getField (initializedSecs c b eid ctx) f = 0 := fun hw => (hfield hw).trans (Nat.zero_mod _)
  have himage : mrenclaveImage c.mrenclaveOrder (secsMeasurement c b) < 2 ^ c.secs.mrenclave.len := by
    obtain ⟨⟨-, -, -, -, hlen⟩, -⟩ := configWf_secs hwf
    have := mrenclaveImage_lt c.mrenclaveOrder (secsMeasurement c b)
    rw [configWf_order hwf] at this
    rw [hlen]
    exact this
  refine ⟨hfield (by simp [hardwareWrites]), hzero (by simp [hardwareWrites]), hzero (by simp [hardwareWrites]),
    hzero (by simp [hardwareWrites]), hfield (by simp [hardwareWrites]),
    (hfield (by simp [hardwareWrites])).trans (Nat.mod_eq_of_lt himage), fun f hf => hzero (by simp [initWrites, hf]),
    fun i _ hhardware hinit => ?_⟩
  rw [initializedSecs_eq_writeFields]
  refine writeFields_getLsbD_outside (List.forall_mem_append.2 ⟨fun w hw => ?_, fun w hw => ?_⟩)
  · obtain ⟨f, hf, rfl⟩ := List.mem_map.1 hw
    exact hinit f (Option.mem_toList.1 hf)
  · refine hhardware w.1 ?_
    simp only [hardwareWrites, List.mem_cons, List.not_mem_nil, or_false] at hw ⊢
    rcases hw with rfl | rfl | rfl | rfl | rfl | rfl <;> simp only [true_or, or_true]

end Sys2Proof.Machine
end

section
/-! PROOFS. Scope: ECREATE, its two transitions. Which check of the acquire ends it, the entry in use or taken, and the ends of
the commit. -/

namespace Sys2Proof.Machine

variable {s t : State} {p : Processor} {k : Ticket}

/-! ### The checks of the acquire that end in an event (R83 to R89) -/

/-- Settles O11: the first check of all, so no memory is read. -/
theorem misplacedPageinfoRaisesGp : Obligations.MisplacedPageinfoRaisesGp := by
  intro s p hadm h
  refine exec_of_acquireChecks_raise hadm ?_
  rw [acquireChecks, checkedOperand_of_not_ok h, Check.bind_raise]

/-- Settles O12: before R85, so wherever the destination maps. -/
theorem misplacedDestinationRaisesGp : Obligations.MisplacedDestinationRaisesGp := fun _ _ hadm h =>
  exec_of_acquireChecks_raise hadm (acquireChecks_of_misplaced_destination h)

theorem resolveDestination_of_fault {c : Config} {la : Word64} {cause : PfCause}
    (h : translate p la .enclaveWrite = .fault cause) :
    resolveDestination c p la = .raise (.pf la .enclaveWrite cause) := by
  rw [resolveDestination, h]

theorem resolveDestination_of_outside {c : Config} {la pa : Word64} (h : translate p la .enclaveWrite = .phys pa)
    (hout : inRegions c.epc (frameOf pa) = false) :
    resolveDestination c p la = .raise (.pf la .enclaveWrite .notEpc) := by
  simp only [resolveDestination, h, hout, if_true]

/-- With both register operands in order, what R85 raises is the outcome. -/
theorem acquireChecks_of_destination_raise {e : Event} (h : RegistersOk s p)
    (hr : resolveDestination s.cfg p (laDestination p) = .raise e) : acquireChecks s p = .raise e := by
  obtain ⟨hb, hc⟩ := h
  rw [laDestination] at hr
  simp only [acquireChecks, checkedOperand_of_ok hb, checkedOperand_of_ok hc, hr, Check.bind_ok, Check.bind_raise]

/-- Settles O14: R85 comes before PAGEINFO is read. -/
theorem destinationNotInEpcRaisesPf : Obligations.DestinationNotInEpcRaisesPf := fun _ _ hadm hregs =>
  ⟨fun _ ht => exec_of_acquireChecks_raise hadm
      (acquireChecks_of_destination_raise hregs (resolveDestination_of_fault ht)),
    fun _ ht hout => exec_of_acquireChecks_raise hadm
      (acquireChecks_of_destination_raise hregs (resolveDestination_of_outside ht hout))⟩

/-- With a good destination and a readable PAGEINFO, the rest of the checks decides. -/
theorem acquireChecks_of_pageinfo {pa : Word64} {b : Block} (h : DestinationOk s p pa)
    (hread : readOperand s.cfg p (s.view 0) (laPageinfo p) s.cfg.pageinfo.size = .ok b) :
    acquireChecks s p =
      (pageinfoPointers s.cfg p b).bind fun ptrs =>
      (checkUnusedPageinfo s.cfg b).bind fun _ =>
      (readOperand s.cfg p (s.view 1) ptrs.2 s.cfg.secinfo.size).bind fun secinfo =>
      (checkSecinfo s.cfg secinfo).bind fun _ =>
      .ok { laSecs := laDestination p, phys := pa, page := frameOf pa, laSrc := ptrs.1 } := by
  obtain ⟨⟨hb, hc⟩, hres⟩ := h
  rw [laPageinfo] at hread
  rw [laDestination] at *
  simp only [acquireChecks, checkedOperand_of_ok hb, checkedOperand_of_ok hc, resolveDestination_eq_ok.2 hres, hread,
    Check.bind_ok]

theorem pageinfoPointers_of_misplaced {c : Config} {b : Block}
    (h : ¬ OperandOk c p (srcpgeOf c b) pageBytes pageBytes ∨ ¬ OperandOk c p (secinfoOf c b) c.secinfo.size 64) :
    pageinfoPointers c p b = .raise .gp0 := by
  rw [pageinfoPointers]
  rcases checkedOperand_cases c p (srcpgeOf c b) pageBytes pageBytes with hsrc | ⟨la, hsrc⟩
  · exact congrArg (Check.bind · _) hsrc
  · have hsi : ¬ OperandOk c p (secinfoOf c b) c.secinfo.size 64 := by
      obtain ⟨hin, halign, rfl⟩ := checkedOperand_eq_ok.1 hsrc
      exact h.resolve_left (not_not.2 ⟨hin, halign⟩)
    rw [srcpgeOf] at hsrc
    rw [pointerOf, hsrc, Check.bind_ok]
    exact congrArg (Check.bind · _) (checkedOperand_of_not_ok hsi)

/-- Settles O16: both pointers are checked before SECINFO or the source page is read. -/
theorem misplacedPointersRaiseGp : Obligations.MisplacedPointersRaiseGp := by
  intro s p pa b hadm hdest hread h
  refine exec_of_acquireChecks_raise hadm ?_
  rw [acquireChecks_of_pageinfo hdest hread, pageinfoPointers_of_misplaced h, Check.bind_raise]

theorem checkUnusedPageinfo_of_used {c : Config} {b : Block}
    (h : getField b c.pageinfo.linaddr ≠ 0 ∨ getField b c.pageinfo.secs ≠ 0) :
    checkUnusedPageinfo c b = .raise .gp0 := if_pos h

theorem checkSecinfo_of_misconfigured {c : Config} {b : Block}
    (h : (b &&& c.secinfo.reserved) ≠ 0 ∨ getField b (subField c.secinfo.flags c.secinfo.pt) ≠ c.ptSecs) :
    checkSecinfo c b = .raise .gp0 := if_pos h

/-- Settles O17: the two fields are tested behind the pointers. -/
theorem unusedPageinfoFieldsRaiseGp : Obligations.UnusedPageinfoFieldsRaiseGp := by
  rintro s p pa b hadm ⟨hdest, hread, hsrc, hsi⟩ h
  refine exec_of_acquireChecks_raise hadm ?_
  rw [acquireChecks_of_pageinfo hdest hread, pageinfoPointers_eq_ok.2 ⟨hsrc, hsi, rfl⟩, Check.bind_ok,
    checkUnusedPageinfo_of_used h, Check.bind_raise]

/-- With PAGEINFO in order, a readable SECINFO that fails R89 ends in `GP(0)`. -/
theorem acquireChecks_of_secinfo_misconfigured {pa : Word64} {b si : Block} (h : PageinfoOk s p pa b)
    (hread : readOperand s.cfg p (s.view 1) (linear p (effectiveAddress p (secinfoOf s.cfg b))) s.cfg.secinfo.size =
      .ok si) (hbad : checkSecinfo s.cfg si = .raise .gp0) : acquireChecks s p = .raise .gp0 := by
  obtain ⟨⟨hdest, hpi, hsrc, hsi⟩, hunused⟩ := h
  rw [acquireChecks_of_pageinfo hdest hpi, pageinfoPointers_eq_ok.2 ⟨hsrc, hsi, rfl⟩, Check.bind_ok,
    checkUnusedPageinfo_eq_ok.2 hunused, Check.bind_ok, hread, Check.bind_ok, hbad, Check.bind_raise]

/-- Settles O18: the read of SECINFO, and R89 behind it, is all that is left of the checks. -/
theorem misconfiguredSecinfoRaisesGp : Obligations.MisconfiguredSecinfoRaisesGp := by
  intro s p pa b hadm hpi
  have ⟨⟨hdest, _⟩, _⟩ := hpi
  refine ⟨fun e hread => ?_, fun si hread hbad => ?_, fun si hread hres hpt => ?_⟩
  · obtain ⟨⟨cause, he⟩, hexec⟩ := (unreadableStructureRaisesPf s p pa hadm hdest).2 b e hpi hread
    exact ⟨⟨_, cause, he⟩, hexec⟩
  · exact exec_of_acquireChecks_raise hadm
      (acquireChecks_of_secinfo_misconfigured hpi hread (checkSecinfo_of_misconfigured hbad))
  · exact ⟨⟨_, pa, frameOf pa, _⟩, acquireChecks_eq_ok_iff_operandsOk.2 ⟨b, si, hpi, hread, hres, hpt, rfl, rfl, rfl⟩⟩

/-! ### The entry in use or taken (R91) -/

/-- With the operands in order, the entry decides. -/
theorem exec_of_operandsOk (h : Admitted s p) (hk : OperandsOk s p k) :
    exec .enclsEcreate s = .next (acquireEntry s.tick p k) := by
  have ⟨⟨hp, hi, _⟩, _⟩ := h
  rw [exec_of_idle hp hi]
  exact ecreateAcquire_of_ok ((launchRefusal_eq_none_iff hp hi).2 h) (acquireChecks_eq_ok_iff_operandsOk.2 hk)

/-- An event taken by a processor between instructions leaves it there. -/
theorem State.takeEvent_of_idle (hi : p.phase = .idle) (e : Event) :
    s.takeEvent p e =
      s.setCurrent { p with event := some { event := e, pc := p.pc }, vmcs := vmcsAfter p.vmcs e } := by
  unfold State.takeEvent
  rw [← hi]

/-- Settles O20: the five fields of the VM exit carry the ticket's addresses. -/
theorem entryInUseOrTaken : Obligations.EntryInUseOrTaken := by
  intro s p k hadm hk
  have ⟨⟨_, hi, _⟩, _⟩ := hadm
  rw [exec_of_operandsOk hadm hk]
  refine ⟨fun hlock => ?_, fun hlock => congrArg _ (acquireEntry_of_free hlock)⟩
  rw [acquireEntry_of_not_free hlock, State.takeEvent_of_idle hi]
  refine ⟨fun ⟨hv, hx⟩ => ?_, fun hcontrol => ?_⟩
  · rw [conflictEvent, hv, hx]
    rfl
  · rw [conflictEvent, Bool.and_eq_false_iff.2 hcontrol]
    rfl

/-! ### The ends of the commit (R93 to R123) -/

theorem exec_of_commitNext (h : InCommit s p k) (hn : CommitNext s p k t) : exec .enclsEcreate s = .next t :=
  (exec_of_inside h.1 h.2).trans (ecreateCommit_eq_next_iff.2 hn)

/-- Settles O23: R93 is the first test of the commit. -/
theorem alreadyValidRaisesPf : Obligations.AlreadyValidRaisesPf := fun _ _ _ h hv =>
  exec_of_commitNext h (.alreadyValid hv)

/-- Settles O24: a read raises a page fault on its first byte only, before the copy is made. -/
theorem unreadableSourcePageRaisesPf : Obligations.UnreadableSourcePageRaisesPf := by
  intro s p k e h hv hr
  obtain ⟨cause, rfl⟩ := readOperand_eq_raise hr
  exact ⟨⟨cause, rfl⟩, exec_of_commitNext h (.sourceUnreadable hv hr)⟩

/-- The lock of the ticket's entry is free behind every end of the commit. -/
theorem CommitNext.lock_free (h : CommitNext s p k t) : (t.entry k.page).lock = .free := by
  cases h with
  | alreadyValid | sourceUnreadable | secsRejected =>
    rw [State.releaseAndTake, State.entry_takeEvent, State.entry_setLock_same]
  | completed => rw [completeEcreate_entry_same]; rfl

/-- Settles O35: every end of the commit writes the lock free and the processor idle. -/
theorem commitReleasesLock : Obligations.CommitReleasesLock := by
  rintro s t p k ⟨hp, hk⟩ h
  have hn := commitNext_of_exec hp hk h
  obtain ⟨q, hidle, hprocs⟩ := hn.ends
  obtain ⟨-, -, -, -, hactive, -⟩ := hn.frame
  refine ⟨hn.lock_free, q, ?_, hidle⟩
  have hcurrent : t.current = (s.setCurrent q).current := by
    rw [State.current, hprocs, hactive]
    rfl
  exact hcurrent.trans (s.current_setCurrent hp)

/-- A copy that a content check rejects: the end of the commit in `GP(0)` (R123). -/
theorem exec_of_firstFailure {b : Block} (h : InCommit s p k) (hv : (s.entry k.page).valid = false)
    (hr : readOperand s.cfg p (s.view 2) k.laSrc pageBytes = .ok b) (hf : firstFailure s.cfg b ≠ none) :
    ∃ t, exec .enclsEcreate s = .next t ∧
      t.current = some { p with phase := .idle, event := some { event := .gp0, pc := p.pc } } ∧
      t.entry k.page = { s.entry k.page with lock := .free } ∧ t.nextEid = s.nextEid ∧
      t.page k.page = Config.freePage (s.freeIndex + 1) ∧
      (∀ n, n ≠ k.page → t.page n = s.page n ∧ t.hiddenAt n = s.hiddenAt n ∧ t.entry n = s.entry n) := by
  have hn : CommitNext s p k _ := .secsRejected hv hr hf
  refine ⟨_, exec_of_commitNext h hn, State.current_setCurrent _ h.1, State.entry_setLock_same _ _ _, rfl,
    State.page_scramble_same _ _, fun n hne => ?_⟩
  obtain ⟨hpage, hentry, hhidden⟩ := hn.other_page hne
  exact ⟨hpage, hhidden, hentry⟩

/-- Settles O25: a condition of `SecsFault` is a check that fails. -/
theorem failedSecsCheckRaisesGp : Obligations.FailedSecsCheckRaisesGp := by
  intro s p k b h hv hr hfault
  have hf : firstFailure s.cfg b ≠ none := fun hnone => (firstFailure_eq_none_iff.1 hnone).1 hfault
  obtain ⟨t, hx, hcurrent, hentry, heid, -⟩ := exec_of_firstFailure h hv hr hf
  exact ⟨t, hx, hcurrent, hentry, heid⟩

/-- Settles O28: a copy outside `secs_ok` fails a check. -/
theorem badSecsRaisesGpAfterCopy : Obligations.BadSecsRaisesGpAfterCopy := fun s _ _ b h hwf hv hr hbad =>
  exec_of_firstFailure h hv hr (mt (noCheckFailsIffSecsOk s.cfg b hwf).1 hbad)

/-- A copy that no content check rejects: the commit completes (R122). -/
theorem exec_of_no_firstFailure {b : Block} (h : InCommit s p k) (hv : (s.entry k.page).valid = false)
    (hr : readOperand s.cfg p (s.view 2) k.laSrc pageBytes = .ok b) (hf : firstFailure s.cfg b = none) :
    ∃ t, exec .enclsEcreate s = .next t ∧ t.current = some (completedProcessor s.cfg p) ∧
      t.page k.page = initializedSecs s.cfg b s.nextEid k.phys ∧ t.hiddenAt k.page = initializedHidden s.cfg b ∧
      t.entry k.page = createdEntry s.cfg ∧ t.nextEid = s.nextEid + 1 :=
  ⟨_, exec_of_commitNext h (.completed hv hr hf), State.current_setCurrent _ h.1, completeEcreate_page_same _ _,
    completeEcreate_hiddenAt_same _ _, completeEcreate_entry_same _ _, rfl⟩

/-- Settles O26: with R97 and R98 passed, no check fails. -/
theorem passingSecsChecksCompletes : Obligations.PassingSecsChecksCompletes := by
  intro s p k b h hv hr hfault hlegal hmisc
  obtain ⟨t, hx, hcurrent, -, -, hentry, heid⟩ :=
    exec_of_no_firstFailure h hv hr (firstFailure_eq_none_iff.2 ⟨hfault, hlegal, hmisc⟩)
  exact ⟨t, _, hx, hcurrent, rfl, rfl, hentry, heid⟩

/-- Settles O29: what the completion writes, and what no commit does. -/
theorem commitCompletes : Obligations.CommitCompletes := by
  intro s p k b h hwf hv hr hok
  obtain ⟨t, hx, hcurrent, hpage, hhidden, hentry, heid⟩ :=
    exec_of_no_firstFailure h hv hr ((noCheckFailsIffSecsOk s.cfg b hwf).2 hok)
  have hn := commitNext_of_exec h.1 h.2 hx
  refine ⟨t, _, hx, hcurrent, rfl, rfl, rfl, hn.frame.sameRegisters h.1 hcurrent, rfl, hpage, hhidden, hentry, heid,
    exec_outsideUntouched hx, fun a ha => ?_, fun n hne => (hn.other_page hne).2⟩
  unfold State.epcByte
  rw [(hn.other_page ha).1]

/-- Settles O30: the commit completes from the state in which the acquire has taken the entry. -/
theorem ecreateCompletes : Obligations.EcreateCompletes := by
  intro s p k b hadm hk hentry hr hok
  have ⟨⟨hp, hi, hwf, _⟩, _⟩ := hadm
  have hfree : (s.entry k.page).lock = .free := congrArg EpcmEntry.lock hentry
  have hv : (s.entry k.page).valid = false := congrArg EpcmEntry.valid hentry
  have hfirst := (exec_of_operandsOk hadm hk).trans (congrArg _ (acquireEntry_of_free hfree))
  obtain ⟨u, q, hx, hcurrent, hphase, hevent, hpc, hregs, -, hpage, hhidden, hentry', heid, hout, hepc, hother⟩ :=
    commitCompletes ((s.tick.setLock k.page (.held [s.active])).setCurrent { p with phase := .ecreate k })
      { p with phase := .ecreate k } k b ⟨State.current_setCurrent _ hp, rfl⟩ hwf (by simpa using hv) hr hok
  refine ⟨_, u, q, hfirst, by simp, hx, hcurrent, hphase, hevent, hpc, hregs, hpage, hhidden, hentry', heid,
    (exec_outsideUntouched hfirst).trans hout, hepc, fun n hne => ?_⟩
  obtain ⟨hentryn, hhiddenn⟩ := hother n hne
  exact ⟨hentryn.trans (State.entry_setLock_other s.tick _ hne), hhiddenn⟩

end Sys2Proof.Machine
end

section
/-! PROOFS. Scope: ECREATE, the pages it makes valid. Which step makes a page valid and draws an identifier, and who is inside
an ECREATE after a step. -/

namespace Sys2Proof.Machine

variable {s t : State} {p q : Processor} {k : Ticket} {n : Nat}

/-! ### A page that becomes valid (R119) -/

/-- The commit of the ticket `k` completed with the checked copy `b`: what it writes of the EPC, the EPCM and `CR_NEXT_EID`
(R111 to R121), and that it writes no other entry. -/
structure Created (s t : State) (k : Ticket) (b : Block) : Prop where
  not_valid : (s.entry k.page).valid = false
  passed    : firstFailure s.cfg b = none
  page      : t.page k.page = initializedSecs s.cfg b s.nextEid k.phys
  hidden    : t.hiddenAt k.page = initializedHidden s.cfg b
  entry     : t.entry k.page = createdEntry s.cfg
  nextEid   : t.nextEid = s.nextEid + 1
  others    : ∀ n, n ≠ k.page → t.entry n = s.entry n

/-- The page that became valid is the ticket's. -/
theorem Created.eq_page {b : Block} (h : Created s t k b) (hv : (s.entry n).valid = false)
    (hv' : (t.entry n).valid = true) : n = k.page := by
  by_contra hne
  rw [h.others n hne, hv] at hv'
  cases hv'

theorem SameButLock.valid_eq {e f : EpcmEntry} (h : SameButLock e f) : f.valid = e.valid := by
  rw [h]

/-- The acquire marks no page valid and draws no identifier. -/
theorem AcquireNext.valid_eid (h : AcquireNext s p t) (n : Nat) :
    (t.entry n).valid = (s.entry n).valid ∧ t.nextEid = s.nextEid := by
  cases h with
  | checkFailed | entryInUse => exact ⟨rfl, rfl⟩
  | entryTaken => exact ⟨State.valid_setLock s.tick _ n _, rfl⟩

/-- The commit creates an SECS, or it marks no page valid and draws no identifier. -/
theorem CommitNext.created_or (h : CommitNext s p k t) :
    (∃ b, Created s t k b) ∨ ((∀ n, (t.entry n).valid = (s.entry n).valid) ∧ t.nextEid = s.nextEid) := by
  cases h with
  | alreadyValid | sourceUnreadable | secsRejected => exact .inr ⟨fun n => State.valid_setLock _ _ n _, rfl⟩
  | @completed b hv hr hf =>
    exact .inl ⟨b, hv, hf, completeEcreate_page_same _ _, completeEcreate_hiddenAt_same _ _,
      completeEcreate_entry_same _ _, rfl, fun _ => completeEcreate_entry_other _ _⟩

/-- ECREATE creates the SECS of the ticket the executing processor has, or it marks no page valid and draws no identifier. -/
theorem exec_created_or (h : exec .enclsEcreate s = .next t) :
    (∃ p k b, s.current = some p ∧ p.phase = .ecreate k ∧ Created s t k b) ∨
      ((∀ n, (t.entry n).valid = (s.entry n).valid) ∧ t.nextEid = s.nextEid) := by
  obtain ⟨p, hp, ⟨-, hn⟩ | ⟨k, hk, hn⟩⟩ := exec_next h
  · exact .inr ⟨fun n => (hn.valid_eid n).1, (hn.valid_eid 0).2⟩
  · exact hn.created_or.imp_left fun ⟨b, hb⟩ => ⟨p, k, b, hp, hk, hb⟩

/-- A page that an ECREATE makes valid is the ticket's, holding the created SECS. -/
theorem exec_newly_valid (h : exec .enclsEcreate s = .next t) (hv : (s.entry n).valid = false)
    (hv' : (t.entry n).valid = true) : ∃ k b, Created s t k b ∧ n = k.page := by
  rcases exec_created_or h with ⟨-, k, b, -, -, hb⟩ | ⟨hvalid, -⟩
  · exact ⟨k, b, hb, hb.eq_page hv hv'⟩
  · rw [hvalid n, hv] at hv'
    cases hv'

/-- Settles O48: the entry is the one that R119 to R121 write. -/
theorem newlyValidEntryIsSecsEntry : Obligations.NewlyValidEntryIsSecsEntry := by
  intro s t n h hv hv'
  obtain ⟨k, b, hb, rfl⟩ := exec_newly_valid h hv hv'
  rw [hb.entry]
  exact ⟨rfl, rfl, rfl, rfl, rfl, rfl, rfl, rfl, rfl⟩

/-- Settles O49: the three fields of a created SECS, under every well-formed layout. -/
theorem newlyValidSecsCountsAreZero : Obligations.NewlyValidSecsCountsAreZero := by
  intro s t n hwf h hv hv'
  obtain ⟨k, b, hb, rfl⟩ := exec_newly_valid h hv hv'
  obtain ⟨-, hsvn, hprodid, hcount, -⟩ := createdSecsFieldByField s.cfg b s.nextEid k.phys hwf
  rw [hb.page]
  exact ⟨hsvn, hprodid, hcount⟩

/-! ### Every step (log 13) -/

/-- Another agent's move marks no page valid and draws no identifier. -/
theorem agentMove_valid_eid {m : Move} (h : agentMove s m = .next t) (n : Nat) :
    (t.entry n).valid = (s.entry n).valid ∧ t.nextEid = s.nextEid := by
  obtain ⟨⟨-, -, -, heid⟩, -, hlock⟩ := softwareCannotTouchEpc s t m h
  exact ⟨(hlock n).valid_eq, heid⟩

/-- Settling leaves what a completed commit wrote as it is. -/
theorem Created.settle {b : Block} (h : Created s t k b) (u : State) : Created s (settle u t) k b := by
  have hentry := State.entry_congr (settle_epcm u t)
  exact {
    not_valid := h.not_valid
    passed := h.passed
    page := (State.page_congr (settle_epc u t) (settle_scrambled u t) _).trans h.page
    hidden := (State.hiddenAt_congr (settle_hidden u t) (settle_scrambled u t) _).trans h.hidden
    entry := (hentry _).trans h.entry
    nextEid := (settle_nextEid u t).trans h.nextEid
    others := fun n hn => (hentry n).trans (h.others n hn) }

/-- Whose turn it is plays no part in what was created. -/
theorem Created.of_turn {b : Block} {i : Nat} {rest : List Turn}
    (h : Created { s with active := i, turns := rest } t k b) : Created s t k b :=
  ⟨h.not_valid, h.passed, h.page, h.hidden, h.entry, h.nextEid, h.others⟩

/-- A step creates the SECS of a ticket that some processor has, or it marks no page valid and draws no identifier. -/
theorem step_created_or (h : step s = .next t) :
    (∃ (i : Nat) (p : Processor) (k : Ticket) (b : Block),
        s.procs[i]? = some p ∧ p.phase = .ecreate k ∧ Created s t k b) ∨
      ((∀ n, (t.entry n).valid = (s.entry n).valid) ∧ t.nextEid = s.nextEid) := by
  rcases step_cases h with ⟨i, rest, -, x, -, -, hx, rfl⟩ | ⟨m, rest, hm⟩
  · rcases exec_created_or hx with ⟨p, k, b, hp, hk, hb⟩ | ⟨hvalid, heid⟩
    · exact .inl ⟨i, p, k, b, hp, hk, (hb.settle _).of_turn⟩
    · refine .inr ⟨fun n => ?_, (settle_nextEid _ x).trans heid⟩
      rw [State.entry_congr (settle_epcm _ x)]
      exact hvalid n
  · exact .inr ⟨fun n => (agentMove_valid_eid hm n).1, (agentMove_valid_eid hm 0).2⟩

/-- Settles O36: an identifier is drawn where an SECS is created. -/
theorem eidConsumedOnlyByCompletion : Obligations.EidConsumedOnlyByCompletion := by
  intro s t h
  rcases step_created_or h with ⟨-, -, k, b, -, -, hb⟩ | ⟨-, heid⟩
  · exact .inr ⟨hb.nextEid, k.page, b, k.phys, hb.not_valid, congrArg EpcmEntry.valid hb.entry, hb.page, hb.hidden⟩
  · exact .inl heid

/-- Settles O47: the page is that of a ticket, and the copy passed every content check. -/
theorem onlyCheckedSecsBecomesValid : Obligations.OnlyCheckedSecsBecomesValid := by
  intro s t n hwf htickets h hv hv'
  rcases step_created_or h with ⟨i, p, k, b, hp, hk, hb⟩ | ⟨hvalid, -⟩
  · obtain ⟨hepc, hframe⟩ := htickets i p k hp hk
    obtain rfl := hb.eq_page hv hv'
    exact ⟨b, k.phys, (noCheckFailsIffSecsOk s.cfg b hwf).1 hb.passed, hepc, hframe, hb.page, hb.hidden, hb.entry,
      hb.nextEid⟩
  · rw [hvalid n, hv] at hv'
    cases hv'

/-! ### Who is inside an ECREATE after a step (R68) -/

/-- A processor that is inside an ECREATE after another agent's move was inside it before (log 13). -/
theorem agentMove_inside {m : Move} {i : Nat} (h : agentMove s m = .next t) (hq : t.procs[i]? = some q)
    (hk : q.phase = .ecreate k) : s.procs[i]? = some q := by
  have hset : ∀ {j r}, (∀ k, r.phase ≠ .ecreate k) → (s.setProc j r).procs[i]? = some q → s.procs[i]? = some q := by
    intro j r hr hq
    obtain ⟨-, rfl⟩ | ⟨-, hq⟩ := State.procs_setProc_cases hq
    · exact absurd hk (hr k)
    · exact hq
  rcases agentMove_cases h with rfl | ⟨_, _, _, -, -, -, -, rfl⟩ | ⟨_, _, r, -, -, hr, rfl⟩ | ⟨_, _, -, -, -, rfl⟩ |
    ⟨_, _, rfl⟩ | ⟨_, _, -, rfl⟩ | ⟨_, _, -, rfl⟩ | ⟨_, rfl⟩
  case inr.inr.inl => exact hset (fun k hk => by simp [hk] at hr) hq
  case inr.inr.inr.inl => exact hset (by simp) hq
  all_goals exact hq

/-- A processor that is inside an ECREATE after a transition was inside it before, or has just passed the checks of the
acquire. -/
theorem exec_inside {i : Nat} (h : exec .enclsEcreate s = .next t) (hq : t.procs[i]? = some q)
    (hk : q.phase = .ecreate k) :
    s.procs[i]? = some q ∨ ∃ p, s.procs[i]? = some p ∧ q = { p with phase := .ecreate k } ∧ acquireChecks s p = .ok k := by
  obtain ⟨p, hp, ⟨-, hn⟩ | ⟨j, -, hn⟩⟩ := exec_next h
  · cases hn with
    | checkFailed | entryInUse =>
      obtain ⟨-, rfl⟩ | ⟨-, hq⟩ := State.procs_setProc_cases hq
      · cases hk
      · exact .inl hq
    | entryTaken hl hc hlock =>
      obtain ⟨rfl, rfl⟩ | ⟨-, hq⟩ := State.procs_setProc_cases hq
      · cases hk
        exact .inr ⟨p, hp, rfl, hc⟩
      · exact .inl hq
  · obtain ⟨r, hidle, hprocs⟩ := hn.ends
    rw [hprocs] at hq
    obtain ⟨-, rfl⟩ | ⟨-, hq⟩ := State.procs_setProc_cases hq
    · rw [hidle] at hk
      cases hk
    · exact .inl hq

/-- A processor that is inside an ECREATE after a step was inside it before, or works on an EPC page that R85 found. -/
theorem step_inside {i : Nat} (h : step s = .next t) (hq : t.procs[i]? = some q) (hk : q.phase = .ecreate k) :
    s.procs[i]? = some q ∨ s.inEpc k.page = true ∧ k.page = frameOf k.phys := by
  rcases step_cases h with ⟨j, rest, -, x, -, -, hx, rfl⟩ | ⟨m, rest, hm⟩
  · rw [settle_procs] at hq
    rcases exec_inside hx hq hk with hq | ⟨p, -, -, hc⟩
    · exact .inl hq
    · exact .inr (acquireChecks_page_inEpc (s := { s with active := j, turns := rest }) hc)
  · exact .inl (agentMove_inside (s := { s with turns := rest }) hm hq hk)

/-- Settles O58: a ticket is made by the checks of the acquire only, and no step changes the set EPC. -/
theorem stepKeepsTicketsInEpc : Obligations.StepKeepsTicketsInEpc := by
  intro s t hs h i q k hq hk
  obtain ⟨hcfg, -⟩ := configurationIsConstant s t h
  rw [State.inEpc, hcfg]
  rcases step_inside h hq hk with hq | hin
  · exact hs i q k hq hk
  · exact hin

end Sys2Proof.Machine
end

section
/-! PROOFS. Scope: exceptions. Valid pages that every step keeps; what a transition that ends in an event leaves alone, and the
return from it; the processor that has no further step; two processors inside an ECREATE. -/

namespace Sys2Proof.Machine

variable {s t u : State} {p q : Processor} {k : Ticket} {n : Nat}

/-! ### Valid pages (R133, R134) -/

/-- Page `n` keeps its contents, its hidden state and every field of its EPCM entry but the lock. -/
def PageKept (s t : State) (n : Nat) : Prop :=
  SameButLock (s.entry n) (t.entry n) ∧ t.page n = s.page n ∧ t.hiddenAt n = s.hiddenAt n

/-- A page is kept where nothing of the EPC is written and no field of its entry but the lock. -/
theorem PageKept.of_epcUntouched (h : EpcUntouched s t) (hentry : SameButLock (s.entry n) (t.entry n)) :
    PageKept s t n := by
  obtain ⟨hepc, hhidden, hscrambled, -⟩ := h
  exact ⟨hentry, State.page_congr hepc hscrambled n, State.hiddenAt_congr hhidden hscrambled n⟩

/-- Settling touches nothing of a page. -/
theorem PageKept.settle (h : PageKept s t n) (u : State) : PageKept s (settle u t) n := by
  unfold PageKept
  rw [State.entry_congr (settle_epcm u t), State.page_congr (settle_epc u t) (settle_scrambled u t),
    State.hiddenAt_congr (settle_hidden u t) (settle_scrambled u t)]
  exact h

/-- The commit keeps every valid page: it stores into its own page only where that one is not valid (R93). -/
theorem CommitNext.validPage_kept (h : CommitNext s p k t) (hv : (s.entry n).valid = true) : PageKept s t n := by
  by_cases hn : n = k.page
  · subst hn
    cases h with
    | alreadyValid => exact .of_epcUntouched ⟨rfl, rfl, rfl, rfl⟩ (s.tick.setLock_sameButLock _ _ _)
    | sourceUnreadable hnot | secsRejected hnot | completed hnot =>
      rw [hv] at hnot
      cases hnot
  · obtain ⟨hpage, hentry, hhidden⟩ := h.other_page hn
    exact ⟨hentry ▸ .refl _, hpage, hhidden⟩

/-- ECREATE keeps every valid page. -/
theorem exec_validPage_kept (h : exec .enclsEcreate s = .next t) (hv : (s.entry n).valid = true) : PageKept s t n := by
  obtain ⟨p, hp, ⟨hi, -⟩ | ⟨k, -, hn⟩⟩ := exec_next h
  · obtain ⟨hepc, -, hentry⟩ := acquireWritesOnlyTheLock s t p hp hi h
    exact .of_epcUntouched hepc (hentry n)
  · exact hn.validPage_kept hv

/-- Settles O46: a commit writes only a page that is not valid, settling writes none, and another agent's move at most a
lock. -/
theorem validPageIsNeverOverwritten : Obligations.ValidPageIsNeverOverwritten := by
  intro s t n h hv
  rcases step_cases h with ⟨i, rest, -, x, -, -, hx, rfl⟩ | ⟨m, rest, hm⟩
  · exact (exec_validPage_kept hx hv).settle _
  · obtain ⟨hepc, -, hentry⟩ := softwareCannotTouchEpc _ t m hm
    exact PageKept.of_epcUntouched hepc (hentry n)

/-! ### A transition that ends in an event (R134, R18) -/

/-- The processor after the event `e`, as `State.takeEvent` writes it. -/
def Processor.withEvent (p : Processor) (e : Event) : Processor :=
  { p with phase := .idle, event := some { event := e, pc := p.pc }, vmcs := vmcsAfter p.vmcs e }

/-- The executing processor `p` has taken an event: no identifier is drawn, and every EPCM entry is as before but for its
lock. -/
def EndsInEvent (s t : State) (p : Processor) : Prop :=
  (∃ e, t.current = some (p.withEvent e)) ∧ t.nextEid = s.nextEid ∧ ∀ n, SameButLock (s.entry n) (t.entry n)

/-- The acquire ends in an event, or it goes on, with what was recorded before. -/
theorem AcquireNext.endsInEvent_or (h : AcquireNext s p t) (hp : s.current = some p) :
    EndsInEvent s t p ∨ ∃ q, t.current = some q ∧ q.event = p.event := by
  cases h with
  | checkFailed | entryInUse => exact .inl ⟨⟨_, State.current_setCurrent s.tick hp⟩, rfl, fun _ => .refl _⟩
  | entryTaken => exact .inr ⟨_, State.current_setCurrent _ hp, rfl⟩

/-- The commit ends in an event, or it completes, with none recorded. -/
theorem CommitNext.endsInEvent_or (h : CommitNext s p k t) (hp : s.current = some p) :
    EndsInEvent s t p ∨ ∃ q, t.current = some q ∧ q.event = none := by
  cases h with
  | alreadyValid | sourceUnreadable | secsRejected =>
    exact .inl ⟨⟨_, State.current_setCurrent _ hp⟩, rfl, fun n => State.setLock_sameButLock _ _ n _⟩
  | completed => exact .inr ⟨_, State.current_setCurrent _ hp, rfl⟩

/-- An event recorded behind a transition, and not before, is one in which the transition has ended. -/
theorem exec_endsInEvent {r : EventRecord} (h : exec .enclsEcreate s = .next t) (hp : s.current = some p)
    (he : p.event = none) (hq : t.current = some q) (hr : q.event = some r) : EndsInEvent s t p := by
  have hends : EndsInEvent s t p ∨ ∃ q, t.current = some q ∧ q.event = none := by
    obtain ⟨p', hp', hx⟩ := exec_next h
    obtain rfl : p = p' := Option.some.inj (hp.symm.trans hp')
    obtain ⟨-, hn⟩ | ⟨k, -, hn⟩ := hx
    · exact he ▸ hn.endsInEvent_or hp
    · exact hn.endsInEvent_or hp
  refine hends.resolve_right fun ⟨q', hq', hnone⟩ => ?_
  obtain rfl : q = q' := Option.some.inj (hq.symm.trans hq')
  rw [hr] at hnone
  cases hnone

/-- The processor behind such a transition is the one that took the recorded event. -/
theorem EndsInEvent.current_eq {r : EventRecord} (h : EndsInEvent s t p) (hq : t.current = some q)
    (hr : q.event = some r) : q = p.withEvent r.event ∧ r.pc = p.pc := by
  obtain ⟨⟨e, ht⟩, -⟩ := h
  obtain rfl : q = p.withEvent e := Option.some.inj (hq.symm.trans ht)
  obtain rfl : _ = r := Option.some.inj hr
  exact ⟨rfl, rfl⟩

/-- Settles O41: `takeEvent` writes the record and the five fields only, and the lock is all that is released. -/
theorem eventsArePrecise : Obligations.EventsArePrecise := by
  intro s t p q r hp he h hq hr
  have hends := exec_endsInEvent h hp he hq hr
  obtain ⟨rfl, hpc⟩ := hends.current_eq hq hr
  obtain ⟨p', hp', hframe⟩ := exec_frame h
  obtain rfl : p = p' := Option.some.inj (hp.symm.trans hp')
  obtain ⟨-, hmem, -⟩ := exec_outsideUntouched h
  obtain ⟨-, heid, hentry⟩ := hends
  exact ⟨hpc, rfl, rfl, hframe.sameRegisters hp hq, rfl, heid, hmem, hentry, fun n hv => (exec_validPage_kept h hv).2⟩

/-! ### The return from an event (R137, R153) -/

/-- A processor between instructions, its next one not started, makes its move. -/
theorem betweenInstructions_of_idle {i : Nat} (f : Processor → State) (hp : s.procs[i]? = some p)
    (hi : p.phase = .idle) (hw : s.window i = none) : betweenInstructions s i f = .next (f p) := by
  simp [betweenInstructions, hp, hi, hw]

/-- The window of an instruction that has ended is closed by settling. -/
theorem window_settle_ended (u : State) (hp : t.current = some p) (hi : p.phase = .idle) :
    (settle u t).window t.active = none := by
  rw [settle_ended hp hi]
  exact State.window_land_of_none _ _ (State.window_setWindow_same _ _ _)

/-- The settled end of an instruction lets its processor return. -/
theorem resume_settle_ended (u : State) (hp : t.current = some p) (hi : p.phase = .idle) :
    agentMove (settle u t) (.resume t.active) = .next ((settle u t).setCurrent (returned p)) := by
  have hproc : (settle u t).procs[t.active]? = some p := by
    rw [settle_procs]
    exact hp
  refine (betweenInstructions_of_idle _ hproc hi (window_settle_ended u hp hi)).trans ?_
  rw [State.setProc, State.setCurrent, settle_active]

/-- Returning takes the record of the event back, and no VMCS field. -/
theorem returned_withEvent (he : p.event = none) (e : Event) :
    returned (p.withEvent e) = { p with phase := .idle, vmcs := vmcsAfter p.vmcs e } := by
  rw [returned, Processor.withEvent, ← he]

/-- Settles O52: settling closes the window, so nothing keeps the processor from returning. -/
theorem resumeRestoresProcessor : Obligations.ResumeRestoresProcessor := by
  intro s t p q r hp he h hq hr
  obtain ⟨rfl, -⟩ := (exec_endsInEvent h hp he hq hr).current_eq hq hr
  obtain ⟨-, -, -, -, hactive, -⟩ := exec_outsideUntouched h
  have hcurrent : (settle s t).current = some (p.withEvent r.event) := by
    rw [State.current, settle_procs, settle_active]
    exact hq
  refine ⟨_, hactive ▸ resume_settle_ended s hq rfl, ?_⟩
  rw [State.current_setCurrent _ hcurrent, returned_withEvent he]

/-! ### No further step (R136) -/

theorem processorMove_of_event (fetch : Fetch) {r : EventRecord} (hp : s.current = some p) (he : p.event = some r) :
    processorMove fetch s = .fault .outcomeTerminal := by
  simp only [processorMove, hp, he]

/-- Settles O5: the recorded event is looked at before the phase and before any fetch. -/
theorem recordedOutcomeIsTerminal : Obligations.RecordedOutcomeIsTerminal := by
  intro fetch s u p r j more hturn hp he
  rw [step, stepWith_eq_processorMove fetchInstr hturn, stepWith_eq_processorMove fetch hturn]
  exact ⟨processorMove_of_event _ hp he, processorMove_of_event _ hp he⟩

/-! ### Two processors inside an ECREATE (R141) -/

/-- Settles O59: a lock that is held by one processor alone is not held by another. -/
theorem twoEcreatesNeverShareAPage : Obligations.TwoEcreatesNeverShareAPage := by
  intro s i j p q k l hs hp hq hk hl hij hpage
  have hheld : EntryLock.held [i] = .held [j] := by
    rw [← hs i p k hp hk, ← hs j q l hq hl, hpage]
  cases hheld
  exact hij rfl

end Sys2Proof.Machine
end

section
/-! PROOFS. Scope: reset and hazards. Premise P4, that every step keeps; where the launch premises refuse; an ECREATE that
never waits; the state after reset. -/

namespace Sys2Proof.Machine

variable {s t : State} {p q : Processor} {k : Ticket} {n i page : Nat}

/-! ### Who holds a lock (R26) -/

/-- A lock is free, or held by some agent, and only by agents of which `P` holds. -/
def EntryLock.HeldOnlyBy (l : EntryLock) (P : Nat → Prop) : Prop :=
  match l with
  | .free => True
  | .held hs => hs ≠ [] ∧ ∀ a ∈ hs, P a

/-- Premise P4, page by page: only agents that execute a leaf there hold the lock. -/
theorem State.locksHeld_iff :
    s.LocksHeld ↔ ∀ n, s.inEpc n = true → (s.entry n).lock.HeldOnlyBy (s.leafOn n · = true) := by
  refine forall₂_congr fun n _ => ?_
  cases (s.entry n).lock <;> simp [EntryLock.HeldOnlyBy, leafOn_iff]

section HeldOnlyBy

variable {l : EntryLock} {P Q : Nat → Prop}

theorem EntryLock.HeldOnlyBy.imp (h : l.HeldOnlyBy P) (hPQ : ∀ a, l.heldBy a = true → P a → Q a) : l.HeldOnlyBy Q := by
  cases l with
  | free => trivial
  | held hs => exact ⟨h.1, fun a ha => hPQ a (List.contains_iff_mem.2 ha) (h.2 a ha)⟩

theorem EntryLock.HeldOnlyBy.heldBy_eq_false {a : Nat} (h : l.HeldOnlyBy P) (ha : ¬ P a) : l.heldBy a = false := by
  cases l with
  | free => rfl
  | held hs => exact Bool.eq_false_iff.2 fun hc => ha (h.2 a (List.contains_iff_mem.1 hc))

theorem EntryLock.HeldOnlyBy.joinHolders {a : Nat} (h : l.HeldOnlyBy P) (ha : P a) : (joinHolders l a).HeldOnlyBy P := by
  cases l with
  | free => simpa [Machine.joinHolders, EntryLock.HeldOnlyBy] using ha
  | held hs =>
    obtain ⟨hne, hall⟩ := h
    by_cases hmem : a ∈ hs
    · simpa [Machine.joinHolders, EntryLock.HeldOnlyBy, hmem] using ⟨hne, hall⟩
    · simpa [Machine.joinHolders, EntryLock.HeldOnlyBy, hmem, or_imp, forall_and] using ⟨hall, ha⟩

theorem EntryLock.HeldOnlyBy.leaveHolders (a : Nat) (h : l.HeldOnlyBy P) : (leaveHolders l a).HeldOnlyBy P := by
  cases l with
  | free => trivial
  | held hs =>
    simp only [Machine.leaveHolders]
    split_ifs with hnone
    · trivial
    · exact ⟨hnone, fun b hb => h.2 b (List.mem_of_mem_filter hb)⟩

end HeldOnlyBy

/-! ### Who executes a leaf -/

theorem State.leafOn_of_idle (hp : s.procs[i]? = some p) (hi : p.phase = .idle) (n : Nat) : s.leafOn n i = false := by
  simp [State.leafOn, hp, hi]

/-- An agent inside an ECREATE executes a leaf on its own page only (log 41). -/
theorem State.leafOn_of_inside (hp : s.procs[i]? = some p) (hk : p.phase = .ecreate k) (n : Nat) :
    s.leafOn n i = decide (k.page = n) := by
  simp [State.leafOn, hp, hk]

theorem State.leafOn_of_inOtherLeaf (h : s.inOtherLeaf i = true) (n : Nat) : s.leafOn n i = true := by
  unfold State.inOtherLeaf at h
  split at h
  · cases h
  · next hp => simp [State.leafOn, hp, of_decide_eq_true h]

/-- Another agent executes what it did. -/
theorem State.leafOn_of_set (h : t.procs = s.procs.set i q) {a : Nat} (ha : a ≠ i) (n : Nat) :
    t.leafOn n a = s.leafOn n a := by
  simp [State.leafOn, h, ha.symm]

/-- An agent that executes no leaf on a page does not hold its entry. -/
theorem State.LocksHeld.heldBy_eq_false (hs : s.LocksHeld) (hin : s.inEpc n = true) (h : s.leafOn n i = false) :
    (s.entry n).lock.heldBy i = false :=
  (State.locksHeld_iff.1 hs n hin).heldBy_eq_false (by simp [h])

/-- An agent that holds no listed entry holds none: the others are free. -/
theorem State.heldBy_of_not_holdsEntry (h : s.holdsEntry i = false) (n : Nat) : (s.entry n).lock.heldBy i = false := by
  by_cases hl : ∃ c ∈ s.epcm, c.1 = n
  · obtain ⟨c, hc, rfl⟩ := hl
    exact Bool.eq_false_iff.2 (List.any_eq_false.1 h c hc)
  · rw [State.entry, Assoc.read_of_not_listed fun c hc he => hl ⟨c, hc, he⟩]
    rfl

/-! ### Premise P4 in every step (R149; log 41) -/

/-- Premise P4 is about the configuration, the processors and the EPCM only. -/
theorem State.LocksHeld.congr (hs : s.LocksHeld) (hcfg : t.cfg = s.cfg) (hp : t.procs = s.procs) (he : t.epcm = s.epcm) :
    t.LocksHeld := by
  simpa only [State.LocksHeld, State.inEpc, State.entry, hcfg, hp, he] using hs

/-- Premise P4 is kept where processor `i` is written: on a page whose lock is as before and not held by `i`, and on one
whose lock is only held by agents that execute a leaf now. -/
theorem State.LocksHeld.of_set (hs : s.LocksHeld) (hcfg : t.cfg = s.cfg) (hprocs : t.procs = s.procs.set i q)
    (h : ∀ n, s.inEpc n = true → ((t.entry n).lock = (s.entry n).lock ∧ (s.entry n).lock.heldBy i = false) ∨
      (t.entry n).lock.HeldOnlyBy (t.leafOn n · = true)) : t.LocksHeld := by
  refine State.locksHeld_iff.2 fun n hin => ?_
  rw [State.inEpc, hcfg] at hin
  rcases h n hin with ⟨hlock, hfree⟩ | hheld
  · rw [hlock]
    refine (State.locksHeld_iff.1 hs n hin).imp fun a ha hleaf => ?_
    have hne : a ≠ i := by
      rintro rfl
      rw [hfree] at ha
      cases ha
    exact (State.leafOn_of_set hprocs hne n).trans hleaf
  · exact hheld

/-- A processor that holds no entry may change. -/
theorem State.LocksHeld.setProc (hs : s.LocksHeld) (h : ∀ n, s.inEpc n = true → (s.entry n).lock.heldBy i = false)
    (q : Processor) : (s.setProc i q).LocksHeld :=
  hs.of_set rfl rfl fun n hin => .inl ⟨rfl, h n hin⟩

theorem State.LocksHeld.setProc_of_idle (hs : s.LocksHeld) (hp : s.procs[i]? = some p) (hi : p.phase = .idle)
    (q : Processor) : (s.setProc i q).LocksHeld :=
  hs.setProc (fun n hin => hs.heldBy_eq_false hin (State.leafOn_of_idle hp hi n)) q

/-- One lock may change, where agents that execute a leaf on its page hold it. -/
theorem State.LocksHeld.setLock (hs : s.LocksHeld) {l : EntryLock} (h : l.HeldOnlyBy (s.leafOn page · = true)) :
    (s.setLock page l).LocksHeld := by
  refine State.locksHeld_iff.2 fun n hin => ?_
  by_cases hn : n = page
  · subst hn
    rw [State.entry_setLock_same]
    exact h
  · rw [State.entry_setLock_other _ _ hn]
    exact State.locksHeld_iff.1 hs n hin

theorem agentMove_locksHeld {m : Move} (h : agentMove s m = .next t) (hs : s.LocksHeld) : t.LocksHeld := by
  rcases agentMove_cases h with rfl | ⟨page, i, l, hin, hleaf, -, hl, rfl⟩ | ⟨_, _, q, hp, hi, -, rfl⟩ |
    ⟨_, _, -, -, hnone, rfl⟩ | ⟨_, _, rfl⟩ | ⟨_, _, -, rfl⟩ | ⟨_, _, -, rfl⟩ | ⟨_, rfl⟩
  case inr.inl =>
    have hheld := State.locksHeld_iff.1 hs page hin
    rcases hl with rfl | rfl
    · exact hs.setLock (hheld.joinHolders (State.leafOn_of_inOtherLeaf hleaf page))
    · exact hs.setLock (hheld.leaveHolders i)
  case inr.inr.inl => exact hs.setProc_of_idle hp hi q
  case inr.inr.inr.inl => exact hs.setProc (fun n _ => State.heldBy_of_not_holdsEntry hnone n) _
  all_goals exact hs.congr rfl rfl rfl

/-- The acquire takes a free entry for an agent that executes an ECREATE on it from now on. -/
theorem AcquireNext.locksHeld (h : AcquireNext s p t) (hp : s.current = some p) (hi : p.phase = .idle)
    (hs : s.LocksHeld) : t.LocksHeld := by
  cases h with
  | checkFailed | entryInUse => exact State.LocksHeld.setProc_of_idle (s := s.tick) hs hp hi _
  | @entryTaken k hl hc hlock =>
    refine hs.of_set rfl rfl fun n hin => ?_
    rw [State.entry_setCurrent]
    by_cases hn : n = k.page
    · subst hn
      refine .inr ?_
      rw [State.entry_setLock_same]
      have hcur := State.current_setCurrent (p := { p with phase := .ecreate k })
        (s.tick.setLock k.page (.held [s.active])) hp
      simpa [EntryLock.HeldOnlyBy] using State.leafOn_of_inside hcur rfl k.page
    · rw [State.entry_setLock_other _ _ hn]
      exact .inl ⟨rfl, hs.heldBy_eq_false hin (State.leafOn_of_idle hp hi n)⟩

/-- The commit frees the one entry that its processor can hold. -/
theorem CommitNext.locksHeld (h : CommitNext s p k t) (hp : s.current = some p) (hk : p.phase = .ecreate k)
    (hs : s.LocksHeld) : t.LocksHeld := by
  obtain ⟨hcfg, -⟩ := h.frame
  obtain ⟨q, -, hprocs⟩ := h.ends
  refine hs.of_set hcfg hprocs fun n hin => ?_
  by_cases hn : n = k.page
  · subst hn
    rw [h.lock_free]
    exact .inr trivial
  · obtain ⟨-, hentry, -⟩ := h.other_page hn
    rw [hentry]
    refine .inl ⟨rfl, hs.heldBy_eq_false hin ((State.leafOn_of_inside hp hk n).trans ?_)⟩
    exact decide_eq_false (Ne.symm hn)

theorem exec_locksHeld (h : exec .enclsEcreate s = .next t) (hs : s.LocksHeld) : t.LocksHeld := by
  obtain ⟨p, hp, ⟨hi, hn⟩ | ⟨k, hk, hn⟩⟩ := exec_next h
  · exact hn.locksHeld hp hi hs
  · exact hn.locksHeld hp hk hs

/-- Settles O57: an agent takes an entry for a leaf that it executes, and ends the leaf holding none. -/
theorem stepKeepsLocksHeld : Obligations.StepKeepsLocksHeld := by
  intro s t hs h
  rcases step_cases h with ⟨i, rest, p, x, -, -, hx, rfl⟩ | ⟨m, rest, hm⟩
  · exact (exec_locksHeld hx hs).congr (settle_cfg _ _) (settle_procs _ _) (settle_epcm _ _)
  · exact agentMove_locksHeld hm hs

/-! ### Outside the launch premises (R149) -/

/-- Where only P4 fails among P1 to P4, the launch is refused for it. -/
theorem launchRefusal_of_not_locksHeld (hl : Launchable s p) (hlocks : ¬ s.LocksHeld) :
    launchRefusal s p = some .lockWithoutHolder := by
  have hproc : processorRefusal s.cfg p = none := (processorRefusal_eq_none_iff hl.1 hl.2.1).2 hl
  have hhonest : s.locksHonest = false := Bool.eq_false_iff.2 (mt locksHonest_iff.1 hlocks)
  simp [launchRefusal, hproc, hhonest]

/-- Settles O8: the launch premises are what `launchRefusal` asks, and it is asked before any check. -/
theorem outsidePremisesRefused : Obligations.OutsidePremisesRefused := by
  intro s p hp hi
  have hnone := launchRefusal_eq_none_iff hp hi
  rw [exec_of_idle hp hi]
  refine ⟨fun hout => ?_, fun hl hlocks => ?_, hnone.2⟩
  · obtain ⟨r, hr⟩ := Option.ne_none_iff_exists'.1 (mt hnone.1 hout)
    exact ⟨r, ecreateAcquire_of_refusal hr⟩
  · exact ecreateAcquire_of_refusal (launchRefusal_of_not_locksHeld hl hlocks)

/-! ### An ECREATE never waits (R154) -/

/-- The source page of the ticket `k` is well placed for `p`, at an address of the mode's width. -/
def SourcePlaced (c : Config) (p : Processor) (k : Ticket) : Prop :=
  wrapAddress p.mode k.laSrc = k.laSrc ∧ Placed c p k.laSrc pageBytes

/-- Premise P5 covers the source page that the checks found. -/
theorem OperandsOk.sourcePlaced (h : OperandsOk s p k) (hplaced : OperandsPlaced s p) : SourcePlaced s.cfg p k := by
  obtain ⟨b, -, ⟨⟨-, hread, -⟩, -⟩, -, -, -, -, -, hsrc⟩ := h
  unfold SourcePlaced
  rw [hsrc]
  exact ⟨wrapAddress_linear p _, (hplaced.2 b hread).1⟩

/-- Where the source page is well placed, the commit is refused nothing. -/
theorem SourcePlaced.ecreateCommit_next (h : SourcePlaced s.cfg p k) : ∃ t, ecreateCommit s p k = .next t := by
  have hnone := (placementRefusal_eq_none_iff h.1 (by decide)).2 h.2
  unfold ecreateCommit
  split
  · exact ⟨_, rfl⟩
  · split
    next r hr =>
      rw [readOperand_eq_refuse hr] at hnone
      cases hnone
    next => exact ⟨_, rfl⟩
    next => exact ⟨_, rfl⟩

theorem ecreateCommit_of_placementRefusal {r : Refusal} (hv : (s.entry k.page).valid = false)
    (h : placementRefusal s.cfg p k.laSrc pageBytes = some r) : ecreateCommit s p k = .refused r := by
  simp [ecreateCommit, hv, readOperand_of_placementRefusal h]

/-- The source pages stay well placed where processor `i` is written, if its own does. -/
theorem State.TicketsPlaced.of_set (hs : s.TicketsPlaced) (hcfg : t.cfg = s.cfg) (hprocs : t.procs = s.procs.set i q)
    (h : ∀ k, q.phase = .ecreate k → SourcePlaced s.cfg q k) : t.TicketsPlaced := by
  intro j r k hr hk
  rw [hcfg]
  rw [hprocs] at hr
  obtain ⟨-, rfl⟩ | ⟨-, hr⟩ := State.procs_setProc_cases hr
  · exact h k hk
  · exact hs j r k hr hk

/-- A ticket is made where premise P5 holds. -/
theorem AcquireNext.ticketsPlaced (h : AcquireNext s p t) (hp : s.current = some p) (hi : p.phase = .idle)
    (hs : s.TicketsPlaced) : t.TicketsPlaced := by
  cases h with
  | checkFailed | entryInUse => exact hs.of_set rfl rfl nofun
  | @entryTaken k hl hc hlock =>
    obtain ⟨-, -, hplaced⟩ := (launchRefusal_eq_none_iff hp hi).1 hl
    refine hs.of_set rfl rfl fun j hj => ?_
    obtain rfl : k = j := Phase.ecreate.inj hj
    exact (acquireChecks_eq_ok_iff_operandsOk.1 hc).sourcePlaced hplaced

theorem exec_ticketsPlaced (h : exec .enclsEcreate s = .next t) (hs : s.TicketsPlaced) : t.TicketsPlaced := by
  obtain ⟨p, hp, ⟨hi, hn⟩ | ⟨k, -, hn⟩⟩ := exec_next h
  · exact hn.ticketsPlaced hp hi hs
  · obtain ⟨hcfg, -⟩ := hn.frame
    obtain ⟨q, hidle, hprocs⟩ := hn.ends
    exact hs.of_set hcfg hprocs fun j hj => by simp [hidle] at hj

theorem step_ticketsPlaced (h : step s = .next t) (hs : s.TicketsPlaced) : t.TicketsPlaced := by
  rcases step_cases h with ⟨i, rest, p, x, -, -, hx, rfl⟩ | ⟨m, rest, hm⟩
  · have hplaced : x.TicketsPlaced := exec_ticketsPlaced hx hs
    unfold State.TicketsPlaced
    rw [settle_procs, settle_cfg]
    exact hplaced
  · intro j r k hr hk
    rw [(agentMove_cfg_procs hm).1]
    exact hs j r k (agentMove_inside (s := { s with turns := rest }) hm hr hk) hk

/-- A commit on a well placed source page answers a next state, and it ends the instruction. -/
theorem SourcePlaced.exec_ends (h : SourcePlaced s.cfg p k) (hp : s.current = some p) (hk : p.phase = .ecreate k) :
    ∃ t q, exec .enclsEcreate s = .next t ∧ t.current = some q ∧ q.phase = .idle := by
  obtain ⟨t, ht⟩ := h.ecreateCommit_next
  have hn : CommitNext s p k t := ecreateCommit_eq_next_iff.1 ht
  obtain ⟨-, -, -, -, hactive, -⟩ := hn.frame
  obtain ⟨q, hidle, hprocs⟩ := hn.ends
  refine ⟨t, q, (exec_of_inside hp hk).trans ht, ?_, hidle⟩
  rw [State.current, hprocs, hactive]
  exact State.current_setCurrent s hp

/-- Settles O42: the one thing that could refuse an ECREATE that has started is the place of its source page, which premise
P5 fixed before, and no step changes. -/
theorem ecreateNeverWaits : Obligations.EcreateNeverWaits := by
  refine ⟨fun s p h => ⟨?_, fun k hk => hk.sourcePlaced h.2.2⟩, fun s p k ⟨hp, hk⟩ hw hplaced => ?_,
    fun s t hs h => step_ticketsPlaced h hs, fun s p k ⟨hp, hk⟩ hw hv hplaced => ?_⟩
  · obtain ⟨_, -, hx⟩ | ⟨_, -, hx⟩ := exec_admitted h <;> exact ⟨_, hx⟩
  · exact SourcePlaced.exec_ends ⟨hw, hplaced⟩ hp hk
  · obtain ⟨r, hr⟩ := Option.ne_none_iff_exists'.1 (mt (placementRefusal_eq_none_iff hw (by decide)).1 hplaced)
    rw [exec_of_inside hp hk, ecreateCommit_of_placementRefusal hv hr]
    simpa using placementRefusal_cases hr

/-! ### The state after reset (R45, R149; logs 4 to 9) -/

theorem State.reset_locksHeld : State.reset.LocksHeld := fun _ _ => .inl rfl

/-- Every processor is between instructions after reset (log 6). -/
theorem State.reset_phase (hp : State.reset.procs[i]? = some p) : p.phase = .idle := by
  have hmem : p ∈ [Processor.reset, Processor.reset] := List.mem_of_getElem? hp
  obtain rfl : p = Processor.reset := by simpa using hmem
  rfl

/-- No processor is inside an ECREATE after reset. -/
theorem State.reset_not_inside (hp : State.reset.procs[i]? = some p) : p.phase ≠ .ecreate k := by
  simp [State.reset_phase hp]

/-- Settles O56: what is asked of a processor inside an ECREATE is asked of none. -/
theorem resetIsExclusive : Obligations.ResetIsExclusive :=
  ⟨fun _ _ _ hp hk => absurd hk (State.reset_not_inside hp), fun _ _ _ hp hk => absurd hk (State.reset_not_inside hp),
    fun _ _ _ hp hk => absurd hk (State.reset_not_inside hp), State.reset_locksHeld⟩

/-- Settles O60: the launch premises, evaluated, refuse nothing. -/
theorem resetMeetsLaunchPremises : Obligations.ResetMeetsLaunchPremises := by
  refine ⟨(launchRefusal_eq_none_iff rfl rfl).1 ?_, rfl, rfl, fun n => ⟨rfl, rfl⟩⟩
  decide +kernel

end Sys2Proof.Machine
end
